-- ==== Sys2Proof/Word.lean ====
section
/-! DEFINITION. The smallest data of the machine: a byte, the bit cursor, the error kinds. -/

namespace Sys2Proof

/-- A byte: 8 bits, bit 0 the least significant (00_scope.md R9, section 6.1). -/
abbrev Byte := BitVec 8

/-- A 16-bit value: LEN and NLEN of a stored block (30_encoding.md R76). -/
abbrev Half := BitVec 16

/-- The bit cursor `pc = (byte_position, bit_position)` (10_state.md R12). `byte` is a natural number (D14),
`bit` is 3 bits, 0 to 7 (R13 (b)). -/
structure Cursor where
  /-- `byte_position`. -/
  byte : Nat
  /-- `bit_position`. -/
  bit : Fin 8
  deriving DecidableEq, Repr

/-- The error kinds, in the order of their codes 1 to 11 (60_exceptions.md R200). -/
inductive ErrorKind
  /-- 1: a read finds no input left (R201). -/
  | streamExhausted
  /-- 2: `put_byte` with `out_pos >= OUT_CAP` (R202). -/
  | bufferFull
  /-- 3: BTYPE = 3 (R203). -/
  | invalidBlockType
  /-- 4: LEN and NLEN are not complements (R204). -/
  | lengthMismatch
  /-- 5: a literal/length symbol outside 0 to 285 or a distance symbol outside 0 to 29 (R205). -/
  | invalidSymbol
  /-- 6: a distance of 0, above `emitted` or above `CAPACITY` (R206). -/
  | invalidDistance
  /-- 7: a missing child, an over-subscribed set of lengths, a bad repeat (R207). -/
  | malformedTree
  /-- 8: the wrapper: CM is not 8 (R208). -/
  | unsupportedCompressionMethod
  /-- 9: the wrapper: the header is no multiple of 31 (R208). -/
  | headerChecksumInvalid
  /-- 10: the wrapper: FDICT is set (R208). -/
  | presetDictionaryUnsupported
  /-- 11: the wrapper: the trailer differs from the Adler-32 of the output (R208). -/
  | checksumMismatch
  deriving DecidableEq, Repr

end Sys2Proof
end

