-- ==== Sys2Proof/Config.lean ====
section
/-! DEFINITION. What is fixed for a run and not changed by it: the implementation parameters of 00_scope.md R5, and
the free value of the spec (93_implementation_defined.md U8, U9). -/

namespace Sys2Proof

/-- A byte memory: the list of the (address, byte) pairs that hold a value, addresses strictly rising. An address
that is not listed holds NO VALUE: it has never been written (10_state.md R14, R16). -/
abbrev Memory := List Host.Cell

/-- The byte memories of the CORE (20_memory.md R41, R42, R43). -/
inductive Space
  /-- The input buffer. -/
  | input
  /-- The sliding window. -/
  | window
  /-- The output sink. -/
  | output
  deriving DecidableEq, Repr

/-- FREE VALUE: what a byte of a memory that holds no value reads as. 93_implementation_defined.md U8 and U9: any
value, a model must not fix it. The constant has no body, so no proof can know a value of it. Log 1. -/
opaque Config.unwritten : Space → Nat → Byte

/-- The input buffer `IN` with its length `IN_LEN` (10_state.md R11). -/
structure Input where
  /-- The bytes of `IN`. -/
  mem : Memory
  /-- `IN_LEN`. -/
  len : Nat
  deriving DecidableEq, Repr

/-- The parameters of a run (00_scope.md R5). None is changed by a run. -/
structure Params where
  /-- `IN` and `IN_LEN`. -/
  input : Input
  /-- `WBITS`, the window-size exponent, 8 to 15 (D21). -/
  wbits : Nat
  /-- `OUT_CAP`; `none` is infinity, the growable sink (D29). -/
  outCap : Option Nat
  /-- `start_byte`: the byte index of the first block header (D15). -/
  startByte : Nat
  /-- `TRACE`: the trace hook, without effect (60_exceptions.md R224). -/
  trace : Bool
  deriving DecidableEq, Repr

end Sys2Proof
end

