-- ==== Sys2Proof/Machine/Memory.lean ====
section
/-! DEFINITION. The operations of a byte memory. An unlisted address holds no value; a write keeps the addresses
strictly rising, so equal memories are equal lists. -/

namespace Sys2Proof

/-- The byte that address `x` holds, or none where nothing has been written (10_state.md R14, R16). This is the ONE
definition of what an unlisted address reads as: no value. -/
def Memory.read : Memory → Nat → Option Byte
  | [], _ => none
  | (a, b) :: m, x => if x = a then some b else Memory.read m x

/-- `MemWrite(space, addr, 1, v)` (00_scope.md R9, section 6.2). -/
def Memory.write : Memory → Nat → Byte → Memory
  | [], x, v => [(x, v)]
  | (a, b) :: m, x, v =>
    if x < a then (x, v) :: (a, b) :: m
    else if x = a then (x, v) :: m
    else (a, b) :: Memory.write m x v

/-- The canonical form: strictly rising addresses. No entry can equal what an unlisted address reads as, since that is
no value. -/
abbrev Memory.wf (m : Memory) : Prop := List.Pairwise (fun p q : Host.Cell => p.1 < q.1) m

/-- The memory that holds the bytes of a list from address `a` up. -/
def Memory.ofBytes (a : Nat) : List Byte → Memory
  | [] => []
  | b :: bs => (a, b) :: Memory.ofBytes (a + 1) bs

/-- The input buffer that holds a list of bytes (10_state.md R11). -/
def Input.ofBytes (bs : List Byte) : Input := ⟨Memory.ofBytes 0 bs, bs.length⟩

/-- `IN[a]` (20_memory.md R41). Byte `IN[a]` exists for `a < IN_LEN`; a byte the host has not supplied is the free
value (log 1). -/
def Input.byte (m : Input) (a : Nat) : Byte := (Memory.read m.mem a).getD (Config.unwritten .input a)

/-- The host has supplied exactly the bytes `IN[0]` to `IN[IN_LEN - 1]` (10_state.md R11; 70_reset_and_hazards.md
R232 (a)). -/
def Input.wf (m : Input) : Bool := m.mem.map Prod.fst == List.range m.len

end Sys2Proof
end

