-- ==== Sys2Proof/Machine/BitReader.lean ====
section
/-! DEFINITION. The BitReader's read operations as functions of the input buffer and the bit cursor (40_bit_reader.md
R90 to R98; R100 (e): "the value of every read is a function of IN and the cursor alone"). -/

namespace Sys2Proof

/-- The number of the stream bit a cursor names: `8*byte_position + bit_position` (40_bit_reader.md R91). -/
def Cursor.index (c : Cursor) : Nat := 8 * c.byte + c.bit.val

/-- The cursor that names stream bit `p` (R91). -/
def Cursor.ofIndex (p : Nat) : Cursor := ⟨p / 8, ⟨p % 8, Nat.mod_lt p (by decide)⟩⟩

/-- The cursor `n` stream bits further on. -/
def Cursor.advance (c : Cursor) (n : Nat) : Cursor := Cursor.ofIndex (c.index + n)

/-- The advance of a single-bit read: "increment bit_position; at 8, reset to 0 and increment byte_position" (R92). -/
def Cursor.next (c : Cursor) : Cursor := if c.bit = 7 then ⟨c.byte + 1, 0⟩ else ⟨c.byte, c.bit + 1⟩

/-- `skip_to_next_byte` (R98). -/
def Cursor.align (c : Cursor) : Cursor := if 0 < c.bit.val then ⟨c.byte + 1, 0⟩ else c

/-- Stream bit `p`: bit `p mod 8` of byte `IN[p / 8]` (R91). -/
def Input.streamBit (m : Input) (p : Nat) : Bool := (m.byte (p / 8)).getLsbD (p % 8)

/-- What a read operation ends in: a value with the cursor after it, or an error kind with the cursor as it stands when
it is raised. -/
inductive Read (α : Type)
  | ok (v : α) (c : Cursor)
  | raises (k : ErrorKind) (c : Cursor)
  deriving DecidableEq, Repr

/-- One read after another; an error of the first abandons the second (60_exceptions.md R210). -/
def Read.bind {α β : Type} (r : Read α) (f : α → Cursor → Read β) : Read β :=
  match r with
  | .ok v c => f v c
  | .raises k c => .raises k c

/-- `read_bit_lsb` (R92). -/
def readBitLsb (m : Input) (c : Cursor) : Read Bool :=
  if m.len ≤ c.byte then .raises .streamExhausted c
  else .ok ((m.byte c.byte).getLsbD c.bit.val) c.next

/-- `read_bit_msb` (R93): bit index 7 - position, the same advance. -/
def readBitMsb (m : Input) (c : Cursor) : Read Bool :=
  if m.len ≤ c.byte then .raises .streamExhausted c
  else .ok ((m.byte c.byte).getLsbD (7 - c.bit.val)) c.next

/-- `read_bits_lsb(n)` (R94): the first bit read is bit 0 of the value. -/
def readBitsLsb (m : Input) : Nat → Cursor → Read Nat
  | 0, c => .ok 0 c
  | n + 1, c =>
    (readBitLsb m c).bind fun b c₁ => (readBitsLsb m n c₁).bind fun v c₂ => .ok (b.toNat + 2 * v) c₂

/-- The loop of `read_bits_msb` (R95), `acc` the bits so far: `acc = (acc << 1) | bit`. -/
def readBitsMsbFrom (m : Input) : Nat → Nat → Cursor → Read Nat
  | 0, acc, c => .ok acc c
  | n + 1, acc, c => (readBitLsb m c).bind fun b c₁ => readBitsMsbFrom m n (2 * acc + b.toNat) c₁

/-- `read_bits_msb(n)` (R95; D3: it composes `read_bit_lsb`). -/
def readBitsMsb (m : Input) (n : Nat) (c : Cursor) : Read Nat := readBitsMsbFrom m n 0 c

/-- `rev_n(v)`: bit `i` of the result is bit `n-1-i` of `v` (00_scope.md R9, section 6.1). -/
def revBits : Nat → Nat → Nat
  | 0, _ => 0
  | n + 1, v => v % 2 * 2 ^ n + revBits n (v / 2)

/-- `read_huffman_code(code_length)` (R96). -/
def readHuffmanCode (m : Input) (n : Nat) (c : Cursor) : Read Nat :=
  (readBitsMsb m n c).bind fun v c₁ => .ok (revBits n v) c₁

/-- `count` bytes from address `a` as a little-endian number (R97; 20_memory.md R46). -/
def bytesLe (m : Input) (a : Nat) : Nat → Nat
  | 0 => 0
  | n + 1 => (m.byte a).toNat + 256 * bytesLe m (a + 1) n

/-- `read_bytes(count)` (R97; D6: one test, before any byte is consumed). Its precondition, an aligned cursor, is the
caller's: the operation on the state refuses without it. -/
def readBytes (m : Input) (count : Nat) (c : Cursor) : Read Nat :=
  if m.len < c.byte + count then .raises .streamExhausted c
  else .ok (bytesLe m c.byte count) ⟨c.byte + count, c.bit⟩

end Sys2Proof
end

