-- ==== Sys2Proof/Machine/Tables.lean ====
section
/-! DEFINITION. The constant tables of 30_encoding.md section 6 (R70 to R74): "process-wide immutable constants". -/

namespace Sys2Proof.Machine

/-- `MAX_BITS`, the longest Huffman code (00_scope.md R6). -/
def maxBits : Nat := 15

/-- `ORDER`: the order of the code-length-code lengths (30_encoding.md R70). -/
def orderTable : List Nat :=
  [16, 17, 18, 0, 8, 7, 9, 6, 10, 5, 11, 4, 12, 3, 13, 2, 14, 1, 15]

/-- `LBASE`: the base of match length symbol 257 + k at index k (R73). -/
def lbaseTable : List Nat :=
  [3, 4, 5, 6, 7, 8, 9, 10, 11, 13, 15, 17, 19, 23, 27] ++
  [31, 35, 43, 51, 59, 67, 83, 99, 115, 131, 163, 195, 227, 258]

/-- `LEXTRA`: the number of extra bits of match length symbol 257 + k at index k (R73; 90_conflicts.md C2). -/
def lextraTable : List Nat :=
  [0, 0, 0, 0, 0, 0, 0, 0, 1, 1, 1, 1, 2, 2, 2] ++
  [2, 3, 3, 3, 3, 4, 4, 4, 4, 5, 5, 5, 5, 0]

/-- `DBASE`: the base of distance symbol d at index d (R74). -/
def dbaseTable : List Nat :=
  [1, 2, 3, 4, 5, 7, 9, 13, 17, 25, 33, 49, 65, 97, 129] ++
  [193, 257, 385, 513, 769, 1025, 1537, 2049, 3073, 4097, 6145, 8193, 12289, 16385, 24577]

/-- `DEXTRA`: the number of extra bits of distance symbol d at index d (R74). -/
def dextraTable : List Nat :=
  [0, 0, 0, 0, 1, 1, 2, 2, 3, 3, 4, 4, 5, 5, 6] ++
  [6, 7, 7, 8, 8, 9, 9, 10, 10, 11, 11, 12, 12, 13, 13]

/-- `ORDER[i]`. -/
def order (i : Nat) : Nat := orderTable.getD i 0

/-- `LBASE[sym - 257]` by the symbol's number. -/
def lbase (sym : Nat) : Nat := lbaseTable.getD (sym - 257) 0

/-- `LEXTRA[sym - 257]` by the symbol's number. -/
def lextra (sym : Nat) : Nat := lextraTable.getD (sym - 257) 0

/-- `DBASE[d]`. -/
def dbase (d : Nat) : Nat := dbaseTable.getD d 0

/-- `DEXTRA[d]`. -/
def dextra (d : Nat) : Nat := dextraTable.getD d 0

/-- `FIXED_LL_LEN`: symbols 0 to 143 and 280 to 287 get length 8, 144 to 255 get 9, 256 to 279 get 7 (R71). -/
def fixedLlLen : List Nat :=
  List.replicate 144 8 ++ List.replicate 112 9 ++ List.replicate 24 7 ++ List.replicate 8 8

/-- `FIXED_D_LEN`: all 30 distance symbols get length 5 (R72). -/
def fixedDLen : List Nat := List.replicate 30 5

end Sys2Proof.Machine
end

