-- ==== Sys2Proof/Machine/HuffmanTree.lean ====
section
/-! DEFINITION. The Huffman trees, `build` and `decode_symbol` (41_huffman_tree.md R110 to R118). -/

namespace Sys2Proof

/-- A Huffman tree (10_state.md R18). The index a node has in the arena is not observable (R18; U13), so a node is
represented by the tree that hangs from it: an absent child, a leaf, or an internal node with its two children. Log 7. -/
inductive Tree
  /-- No node: the child link is absent. -/
  | absent
  /-- A leaf: symbol, code value, code length, no children. -/
  | leaf (symbol code len : Nat)
  /-- An internal node: left child (bit 0), right child (bit 1), no symbol. -/
  | node (left right : Tree)
  deriving DecidableEq, Repr

/-- The arena before any insertion: the root alone, an internal node with no children (R115). -/
def Tree.bareRoot : Tree := .node .absent .absent

/-- The left child, absent where there is none. -/
def Tree.left : Tree → Tree
  | .node l _ => l
  | .absent => .absent
  | .leaf _ _ _ => .absent

/-- The right child, absent where there is none. -/
def Tree.right : Tree → Tree
  | .node _ r => r
  | .absent => .absent
  | .leaf _ _ _ => .absent

/-- The number of nodes of the arena that holds the tree (10_state.md R19). -/
def Tree.nodes : Tree → Nat
  | .absent => 0
  | .leaf _ _ _ => 1
  | .node l r => 1 + l.nodes + r.nodes

/-- The number of leaves (10_state.md R19). -/
def Tree.leaves : Tree → Nat
  | .absent => 0
  | .leaf _ _ _ => 1
  | .node l r => l.leaves + r.leaves

/-- `insert(s, code, len)` from the node at which the bits `i-1` down to 0 of the code are still to be consumed (R115):
left on bit 0, right on bit 1, internal nodes created lazily. -/
def Tree.insert (symbol code len : Nat) : Nat → Tree → Tree
  | 0, _ => .leaf symbol code len
  | i + 1, t =>
    if code.testBit i then .node t.left (Tree.insert symbol code len i t.right)
    else .node (Tree.insert symbol code len i t.left) t.right

/-- Step 1, count: `bl_count[len]` for `len` 0 to 15, symbols of length 0 not counted (R111). -/
def countLengths (lengths : List Nat) : List Nat :=
  lengths.foldl (fun bl len => if len = 0 then bl else bl.set len (bl.getD len 0 + 1)) (List.replicate 16 0)

/-- Step 2: `code = (code + bl_count[len-1]) << 1; next_code[len] = code`, over the counts of the lengths `len-1`
(R112). -/
def firstCodesFrom (code : Nat) : List Nat → List Nat
  | [] => []
  | b :: bs => (code + b) * 2 :: firstCodesFrom ((code + b) * 2) bs

/-- `next_code[0..15]` before assignment; entry 0 is no register of the spec and stays 0 (R112; 10_state.md R23). -/
def firstCodes (blCount : List Nat) : List Nat := 0 :: firstCodesFrom 0 (blCount.take 15)

/-- What `build` leaves: the tree as far as it got, the scratch registers, and whether it succeeded. When it raises
`MalformedTree`, what it wrote before stays written (00_scope.md R9; log 8). -/
structure Build where
  /-- The arena. -/
  tree : Tree
  /-- `bl_count[0..15]` (10_state.md R23). -/
  blCount : List Nat
  /-- `next_code[0..15]` (10_state.md R23). -/
  nextCode : List Nat
  /-- False when `MalformedTree` is raised (R114). -/
  ok : Bool
  deriving DecidableEq, Repr

/-- Steps 3 and 4 for the symbols from `s` on (R113, R114, R115): assign the next code of the length, check it against
`1 << len`, insert it. -/
def assignCodes : List Nat → Nat → Build → Build
  | [], _, b => b
  | len :: rest, s, b =>
    if len = 0 then assignCodes rest (s + 1) b
    else
      let code := b.nextCode.getD len 0
      let nextCode := b.nextCode.set len (code + 1)
      if 2 ^ len ≤ code then ⟨b.tree, b.blCount, nextCode, false⟩
      else assignCodes rest (s + 1) ⟨b.tree.insert s code len len, b.blCount, nextCode, b.ok⟩

/-- `build(lengths)` (R110). -/
def build (lengths : List Nat) : Build :=
  assignCodes lengths 0 ⟨.bareRoot, countLengths lengths, firstCodes (countLengths lengths), true⟩

/-- `decode_symbol(tree)` (R117): read one bit, descend left on 0 and right on 1, until a leaf. The bit is read before
the child is tested. -/
def Tree.walk (m : Input) : Tree → Cursor → Read Nat
  | .absent, c => .raises .malformedTree c
  | .leaf symbol _ _, c => .ok symbol c
  | .node l r, c =>
    match readBitLsb m c with
    | .raises k c₁ => .raises k c₁
    | .ok false c₁ => Tree.walk m l c₁
    | .ok true c₁ => Tree.walk m r c₁

/-- The code of a symbol, most significant bit first: the path from the root to its leaf (R118 (b)). -/
def Tree.codeOf : Tree → Nat → Option (List Bool)
  | .absent, _ => none
  | .leaf symbol _ _, s => if symbol = s then some [] else none
  | .node l r, s =>
    match Tree.codeOf l s with
    | some p => some (false :: p)
    | none => (Tree.codeOf r s).map (true :: ·)

/-- The subtree of all codes of length `len` that begin with `code`, `depth` bits before their end, given to consecutive
symbols from `symbol` on. -/
def Tree.block (len : Nat) : Nat → Nat → Nat → Tree
  | 0, code, symbol => .leaf symbol code len
  | depth + 1, code, symbol =>
    .node (Tree.block len depth (2 * code) symbol) (Tree.block len depth (2 * code + 1) (symbol + 2 ^ depth))

/-- `FIXED_LL_TREE`, the constant literal/length tree (10_state.md R17), written from the code table of 30_encoding.md
R71; theorem `fixedLlTree_eq_build` of Laws/HuffmanTree.lean says that it is `build(FIXED_LL_LEN)`. -/
def fixedLlTree : Tree :=
  .node
    (.node
      (.node (Tree.block 7 4 0b000 256) (.node (Tree.block 7 3 0b0010 272) (Tree.block 8 4 0b0011 0)))
      (Tree.block 8 6 0b01 16))
    (.node
      (Tree.block 8 6 0b10 80)
      (.node
        (.node (.node (Tree.block 8 3 0b11000 280) (Tree.block 9 4 0b11001 144)) (Tree.block 9 5 0b1101 160))
        (Tree.block 9 6 0b111 192)))

/-- `FIXED_D_TREE = build(FIXED_D_LEN)`: constructed, consulted by no rule (10_state.md R17; 90_conflicts.md C3). -/
def fixedDTree : Tree := (build Machine.fixedDLen).tree

end Sys2Proof
end

