-- ==== Sys2Proof/Syntax.lean ====
section
/-! DEFINITION. The instructions: the elements of the DEFLATE stream, one constructor for each row of the opcode
table (30_encoding.md R82). -/

namespace Sys2Proof

/-- One element of the stream. Every operand is the raw field the stream carries, at its width; an operand that the
table gives no bits is absent. -/
inductive Instr
  /-- STORED: block header, BTYPE = 0 (R61, R62); `final` is BFINAL. -/
  | stored (final : Bool)
  /-- FIXED: block header, BTYPE = 1. -/
  | fixed (final : Bool)
  /-- DYNAMIC: block header, BTYPE = 2. -/
  | dynamic (final : Bool)
  /-- RESERVED: block header, BTYPE = 3. -/
  | reserved (final : Bool)
  /-- LEN: the stored-block header LEN, NLEN (R63, R76); the data bytes follow in the stream. -/
  | len (len nlen : BitVec 16)
  /-- HLIT: `hlit = a + 257` (R64). -/
  | hlit (a : BitVec 5)
  /-- HDIST: `hdist = b + 1` (R64). -/
  | hdist (b : BitVec 5)
  /-- HCLEN: `hclen = c + 4` (R64). -/
  | hclen (c : BitVec 4)
  /-- CLLEN: one code-length-code length (R65). -/
  | cllen (v : BitVec 3)
  /-- CL: code-length symbol 0 to 15 (R66). -/
  | cl (n : BitVec 4)
  /-- CL_REP: code-length symbol 16, 2 extra bits (R66). -/
  | clRep (x : BitVec 2)
  /-- CL_ZERO3: code-length symbol 17, 3 extra bits (R66). -/
  | clZero3 (x : BitVec 3)
  /-- CL_ZERO7: code-length symbol 18, 7 extra bits (R66). -/
  | clZero7 (x : BitVec 7)
  /-- LIT, the row of the symbols 0 to 143 (R67). -/
  | lit0 (b : Byte)
  /-- LIT, the row of the symbols 144 to 255 (R67). -/
  | lit144 (b : Byte)
  /-- EOB: symbol 256 (R67). -/
  | eob
  /-- LEN257: length 3 (R73). -/
  | len257
  /-- LEN258: length 4 (R73). -/
  | len258
  /-- LEN259: length 5 (R73). -/
  | len259
  /-- LEN260: length 6 (R73). -/
  | len260
  /-- LEN261: length 7 (R73). -/
  | len261
  /-- LEN262: length 8 (R73). -/
  | len262
  /-- LEN263: length 9 (R73). -/
  | len263
  /-- LEN264: length 10 (R73). -/
  | len264
  /-- LEN265: length 11 + x, 1 extra bit (R73). -/
  | len265 (x : BitVec 1)
  /-- LEN266: length 13 + x, 1 extra bit (R73). -/
  | len266 (x : BitVec 1)
  /-- LEN267: length 15 + x, 1 extra bit (R73). -/
  | len267 (x : BitVec 1)
  /-- LEN268: length 17 + x, 1 extra bit (R73). -/
  | len268 (x : BitVec 1)
  /-- LEN269: length 19 + x, 2 extra bits (R73). -/
  | len269 (x : BitVec 2)
  /-- LEN270: length 23 + x, 2 extra bits (R73). -/
  | len270 (x : BitVec 2)
  /-- LEN271: length 27 + x, 2 extra bits (R73). -/
  | len271 (x : BitVec 2)
  /-- LEN272: length 31 + x, 2 extra bits (R73). -/
  | len272 (x : BitVec 2)
  /-- LEN273: length 35 + x, 3 extra bits (R73). -/
  | len273 (x : BitVec 3)
  /-- LEN274: length 43 + x, 3 extra bits (R73). -/
  | len274 (x : BitVec 3)
  /-- LEN275: length 51 + x, 3 extra bits (R73). -/
  | len275 (x : BitVec 3)
  /-- LEN276: length 59 + x, 3 extra bits (R73). -/
  | len276 (x : BitVec 3)
  /-- LEN277: length 67 + x, 4 extra bits (R73). -/
  | len277 (x : BitVec 4)
  /-- LEN278: length 83 + x, 4 extra bits (R73). -/
  | len278 (x : BitVec 4)
  /-- LEN279: length 99 + x, 4 extra bits (R73). -/
  | len279 (x : BitVec 4)
  /-- LEN280: length 115 + x, 4 extra bits (R73). -/
  | len280 (x : BitVec 4)
  /-- LEN281: length 131 + x, 5 extra bits (R73). -/
  | len281 (x : BitVec 5)
  /-- LEN282: length 163 + x, 5 extra bits (R73). -/
  | len282 (x : BitVec 5)
  /-- LEN283: length 195 + x, 5 extra bits (R73). -/
  | len283 (x : BitVec 5)
  /-- LEN284: length 227 + x, 5 extra bits (R73). -/
  | len284 (x : BitVec 5)
  /-- LEN285: length 258 (R73). -/
  | len285
  /-- LLINV: literal/length symbol 286 (`s` false) or 287 (`s` true), illegal (R77). -/
  | llinv (s : Bool)
  /-- DIST0: distance 1 (R74). -/
  | dist0
  /-- DIST1: distance 2 (R74). -/
  | dist1
  /-- DIST2: distance 3 (R74). -/
  | dist2
  /-- DIST3: distance 4 (R74). -/
  | dist3
  /-- DIST4: distance 5 + y, 1 extra bit (R74). -/
  | dist4 (y : BitVec 1)
  /-- DIST5: distance 7 + y, 1 extra bit (R74). -/
  | dist5 (y : BitVec 1)
  /-- DIST6: distance 9 + y, 2 extra bits (R74). -/
  | dist6 (y : BitVec 2)
  /-- DIST7: distance 13 + y, 2 extra bits (R74). -/
  | dist7 (y : BitVec 2)
  /-- DIST8: distance 17 + y, 3 extra bits (R74). -/
  | dist8 (y : BitVec 3)
  /-- DIST9: distance 25 + y, 3 extra bits (R74). -/
  | dist9 (y : BitVec 3)
  /-- DIST10: distance 33 + y, 4 extra bits (R74). -/
  | dist10 (y : BitVec 4)
  /-- DIST11: distance 49 + y, 4 extra bits (R74). -/
  | dist11 (y : BitVec 4)
  /-- DIST12: distance 65 + y, 5 extra bits (R74). -/
  | dist12 (y : BitVec 5)
  /-- DIST13: distance 97 + y, 5 extra bits (R74). -/
  | dist13 (y : BitVec 5)
  /-- DIST14: distance 129 + y, 6 extra bits (R74). -/
  | dist14 (y : BitVec 6)
  /-- DIST15: distance 193 + y, 6 extra bits (R74). -/
  | dist15 (y : BitVec 6)
  /-- DIST16: distance 257 + y, 7 extra bits (R74). -/
  | dist16 (y : BitVec 7)
  /-- DIST17: distance 385 + y, 7 extra bits (R74). -/
  | dist17 (y : BitVec 7)
  /-- DIST18: distance 513 + y, 8 extra bits (R74). -/
  | dist18 (y : BitVec 8)
  /-- DIST19: distance 769 + y, 8 extra bits (R74). -/
  | dist19 (y : BitVec 8)
  /-- DIST20: distance 1025 + y, 9 extra bits (R74). -/
  | dist20 (y : BitVec 9)
  /-- DIST21: distance 1537 + y, 9 extra bits (R74). -/
  | dist21 (y : BitVec 9)
  /-- DIST22: distance 2049 + y, 10 extra bits (R74). -/
  | dist22 (y : BitVec 10)
  /-- DIST23: distance 3073 + y, 10 extra bits (R74). -/
  | dist23 (y : BitVec 10)
  /-- DIST24: distance 4097 + y, 11 extra bits (R74). -/
  | dist24 (y : BitVec 11)
  /-- DIST25: distance 6145 + y, 11 extra bits (R74). -/
  | dist25 (y : BitVec 11)
  /-- DIST26: distance 8193 + y, 12 extra bits (R74). -/
  | dist26 (y : BitVec 12)
  /-- DIST27: distance 12289 + y, 12 extra bits (R74). -/
  | dist27 (y : BitVec 12)
  /-- DIST28: distance 16385 + y, 13 extra bits (R74). -/
  | dist28 (y : BitVec 13)
  /-- DIST29: distance 24577 + y, 13 extra bits (R74). -/
  | dist29 (y : BitVec 13)
  /-- DINV: distance symbol 30 (`d` false) or 31 (`d` true), illegal (R77). -/
  | dinv (d : Bool)
  deriving DecidableEq, Repr

end Sys2Proof
end

