-- ==== Sys2Proof/WellFormed.lean ====
section
/-! DEFINITION. The well-formedness of an instruction as syntax. The operand types already give every field its width;
what is left to check is the symbol range of the two LIT rows of the opcode table. -/

namespace Sys2Proof

/-- `LIT` has two rows, symbols 0 to 143 and symbols 144 to 255 (30_encoding.md R71, R82): a literal belongs to exactly
one of them. Every other row admits every value of its fields. -/
def Instr.wf : Instr → Bool
  | .lit0 b => b.toNat < 144
  | .lit144 b => 144 ≤ b.toNat
  | _ => true

end Sys2Proof
end

