-- ==== Sys2Proof/Decode.lean ====
section
/-! DEFINITION. The decoder: from the stream at the bit cursor to the next element, total on any input, rejecting by
the name of an error kind (30_encoding.md); then the encoder, from the same tables. -/

namespace Sys2Proof

/-- The places of the stream at which an element begins (the `context` column of the opcode table). A place whose
elements are Huffman-coded carries the tree in force (30_encoding.md R69). -/
inductive Ctx
  /-- A block header (R61). -/
  | header
  /-- The header of a stored block, after the block header (R63). -/
  | stored
  /-- The HLIT field (R64). -/
  | hlit
  /-- The HDIST field (R64). -/
  | hdist
  /-- The HCLEN field (R64). -/
  | hclen
  /-- A code-length-code length (R65). -/
  | cllen
  /-- A code-length symbol, coded by `CL_TREE` (R66). -/
  | codeLength (t : Tree)
  /-- A literal/length symbol, coded by the block's literal/length tree (R67). -/
  | symbol (t : Tree)
  /-- The distance symbol of a match in a fixed block: 5 bits (R68; 44_symbol_decode.md R165). -/
  | distFixed
  /-- The distance symbol of a match in a dynamic block, coded by `D_TREE` (R68; 44_symbol_decode.md R164). -/
  | distTree (t : Tree)
  deriving DecidableEq, Repr

/-- The block header of a BTYPE value (R62). -/
def headerInstr (final : Bool) (btype : Nat) : Instr :=
  match btype with
  | 0 => .stored final
  | 1 => .fixed final
  | 2 => .dynamic final
  | _ => .reserved final

/-- The rows LEN257 to LEN285, by `symbol - 257`, each made from the value of its extra bits (R73). -/
def lenRows : List (Nat → Instr) :=
  ([fun _ => .len257,
   fun _ => .len258,
   fun _ => .len259,
   fun _ => .len260,
   fun _ => .len261,
   fun _ => .len262,
   fun _ => .len263,
   fun _ => .len264,
   fun x => .len265 (.ofNat 1 x),
   fun x => .len266 (.ofNat 1 x)] : List (Nat → Instr)) ++
  ([fun x => .len267 (.ofNat 1 x),
   fun x => .len268 (.ofNat 1 x),
   fun x => .len269 (.ofNat 2 x),
   fun x => .len270 (.ofNat 2 x),
   fun x => .len271 (.ofNat 2 x),
   fun x => .len272 (.ofNat 2 x),
   fun x => .len273 (.ofNat 3 x),
   fun x => .len274 (.ofNat 3 x),
   fun x => .len275 (.ofNat 3 x),
   fun x => .len276 (.ofNat 3 x)] : List (Nat → Instr)) ++
  ([fun x => .len277 (.ofNat 4 x),
   fun x => .len278 (.ofNat 4 x),
   fun x => .len279 (.ofNat 4 x),
   fun x => .len280 (.ofNat 4 x),
   fun x => .len281 (.ofNat 5 x),
   fun x => .len282 (.ofNat 5 x),
   fun x => .len283 (.ofNat 5 x),
   fun x => .len284 (.ofNat 5 x),
   fun _ => .len285] : List (Nat → Instr))

/-- The rows DIST0 to DIST29, by symbol, each made from the value of its extra bits (R74). -/
def distRows : List (Nat → Instr) :=
  ([fun _ => .dist0,
   fun _ => .dist1,
   fun _ => .dist2,
   fun _ => .dist3,
   fun y => .dist4 (.ofNat 1 y),
   fun y => .dist5 (.ofNat 1 y),
   fun y => .dist6 (.ofNat 2 y),
   fun y => .dist7 (.ofNat 2 y),
   fun y => .dist8 (.ofNat 3 y),
   fun y => .dist9 (.ofNat 3 y)] : List (Nat → Instr)) ++
  ([fun y => .dist10 (.ofNat 4 y),
   fun y => .dist11 (.ofNat 4 y),
   fun y => .dist12 (.ofNat 5 y),
   fun y => .dist13 (.ofNat 5 y),
   fun y => .dist14 (.ofNat 6 y),
   fun y => .dist15 (.ofNat 6 y),
   fun y => .dist16 (.ofNat 7 y),
   fun y => .dist17 (.ofNat 7 y),
   fun y => .dist18 (.ofNat 8 y),
   fun y => .dist19 (.ofNat 8 y)] : List (Nat → Instr)) ++
  ([fun y => .dist20 (.ofNat 9 y),
   fun y => .dist21 (.ofNat 9 y),
   fun y => .dist22 (.ofNat 10 y),
   fun y => .dist23 (.ofNat 10 y),
   fun y => .dist24 (.ofNat 11 y),
   fun y => .dist25 (.ofNat 11 y),
   fun y => .dist26 (.ofNat 12 y),
   fun y => .dist27 (.ofNat 12 y),
   fun y => .dist28 (.ofNat 13 y),
   fun y => .dist29 (.ofNat 13 y)] : List (Nat → Instr))

/-- Match length symbol `sym` (257 to 285) with extra value `x`. -/
def lenInstr (sym x : Nat) : Instr := lenRows.getD (sym - 257) (fun _ => .len257) x

/-- Distance symbol `sym` (0 to 29) with extra value `y`. -/
def distInstr (sym y : Nat) : Instr := distRows.getD sym (fun _ => .dist0) y

/-- What the decoder answers: an instruction and the cursor after it, or the error kind that reading it raises and the
cursor as it then stands. -/
abbrev Decoded := Read Instr

/-- The rest of a code-length element after its symbol (43_block_decoder.md R143 to R147). -/
def codeLengthRest (m : Input) (sym : Nat) (c : Cursor) : Decoded :=
  if sym ≤ 15 then .ok (.cl (.ofNat 4 sym)) c
  else if sym = 16 then (readBitsLsb m 2 c).bind fun x c₁ => .ok (.clRep (.ofNat 2 x)) c₁
  else if sym = 17 then (readBitsLsb m 3 c).bind fun x c₁ => .ok (.clZero3 (.ofNat 3 x)) c₁
  else (readBitsLsb m 7 c).bind fun x c₁ => .ok (.clZero7 (.ofNat 7 x)) c₁

/-- The rest of a literal/length element after its symbol (44_symbol_decode.md R160 to R163, R168). A symbol above 287
is no leaf of any tree that `build` makes; it raises as 286 and 287 do (R160). -/
def symbolRest (m : Input) (sym : Nat) (c : Cursor) : Decoded :=
  if sym < 144 then .ok (.lit0 (.ofNat 8 sym)) c
  else if sym < 256 then .ok (.lit144 (.ofNat 8 sym)) c
  else if sym = 256 then .ok .eob c
  else if sym ≤ 285 then
    (readBitsLsb m (Machine.lextra sym) c).bind fun x c₁ => .ok (lenInstr sym x) c₁
  else if sym ≤ 287 then .ok (.llinv (sym == 287)) c
  else .raises .invalidSymbol c

/-- The rest of a distance element after its symbol (44_symbol_decode.md R166, R169). -/
def distanceRest (m : Input) (sym : Nat) (c : Cursor) : Decoded :=
  if sym ≤ 29 then
    (readBitsLsb m (Machine.dextra sym) c).bind fun y c₁ => .ok (distInstr sym y) c₁
  else if sym ≤ 31 then .ok (.dinv (sym == 31)) c
  else .raises .invalidSymbol c

/-- The decoder: one element at the cursor, in the order of reads of the pseudocode of files 43 and 44. -/
def decode (m : Input) (ctx : Ctx) (c : Cursor) : Decoded :=
  match ctx with
  | .header => (readBitsLsb m 1 c).bind fun f c₁ => (readBitsLsb m 2 c₁).bind fun t c₂ => .ok (headerInstr (f == 1) t) c₂
  | .stored =>
    (readBytes m 2 c.align).bind fun l c₁ => (readBytes m 2 c₁).bind fun n c₂ => .ok (.len (.ofNat 16 l) (.ofNat 16 n)) c₂
  | .hlit => (readBitsLsb m 5 c).bind fun v c₁ => .ok (.hlit (.ofNat 5 v)) c₁
  | .hdist => (readBitsLsb m 5 c).bind fun v c₁ => .ok (.hdist (.ofNat 5 v)) c₁
  | .hclen => (readBitsLsb m 4 c).bind fun v c₁ => .ok (.hclen (.ofNat 4 v)) c₁
  | .cllen => (readBitsLsb m 3 c).bind fun v c₁ => .ok (.cllen (.ofNat 3 v)) c₁
  | .codeLength t => (t.walk m c).bind fun sym c₁ => codeLengthRest m sym c₁
  | .symbol t => (t.walk m c).bind fun sym c₁ => symbolRest m sym c₁
  | .distFixed => (readBitsMsb m 5 c).bind fun sym c₁ => distanceRest m sym c₁
  | .distTree t => (t.walk m c).bind fun sym c₁ => distanceRest m sym c₁

/-! ### The encoder -/

/-- The three alphabets (00_scope.md, glossary). -/
inductive Alphabet
  | codeLength
  | literalLength
  | distance
  deriving DecidableEq, Repr

/-- The fields of a dynamic block that are plain numbers (30_encoding.md R64, R65). -/
inductive Field
  | hlit
  | hdist
  | hclen
  | cllen
  deriving DecidableEq, Repr

/-- The format of an element (the `format` and `encoding` columns of the opcode table). -/
inductive Form
  /-- BFINAL and BTYPE (R61). -/
  | blockHeader (final : Bool) (btype : Nat)
  /-- LEN and NLEN (R63). -/
  | storedHeader (len nlen : Nat)
  /-- An LSB-first number of `width` bits (R64, R65). -/
  | field (f : Field) (width value : Nat)
  /-- A symbol of an alphabet, then `width` extra bits, LSB-first (R66 to R68). -/
  | coded (a : Alphabet) (symbol width extra : Nat)
  deriving DecidableEq, Repr

/-- The format of every row of the opcode table. -/
def Instr.form : Instr → Form
  | .stored f => .blockHeader f 0
  | .fixed f => .blockHeader f 1
  | .dynamic f => .blockHeader f 2
  | .reserved f => .blockHeader f 3
  | .len l n => .storedHeader l.toNat n.toNat
  | .hlit a => .field .hlit 5 a.toNat
  | .hdist b => .field .hdist 5 b.toNat
  | .hclen c => .field .hclen 4 c.toNat
  | .cllen v => .field .cllen 3 v.toNat
  | .cl n => .coded .codeLength n.toNat 0 0
  | .clRep x => .coded .codeLength 16 2 x.toNat
  | .clZero3 x => .coded .codeLength 17 3 x.toNat
  | .clZero7 x => .coded .codeLength 18 7 x.toNat
  | .lit0 b => .coded .literalLength b.toNat 0 0
  | .lit144 b => .coded .literalLength b.toNat 0 0
  | .eob => .coded .literalLength 256 0 0
  | .len257 => .coded .literalLength 257 0 0
  | .len258 => .coded .literalLength 258 0 0
  | .len259 => .coded .literalLength 259 0 0
  | .len260 => .coded .literalLength 260 0 0
  | .len261 => .coded .literalLength 261 0 0
  | .len262 => .coded .literalLength 262 0 0
  | .len263 => .coded .literalLength 263 0 0
  | .len264 => .coded .literalLength 264 0 0
  | .len265 x => .coded .literalLength 265 1 x.toNat
  | .len266 x => .coded .literalLength 266 1 x.toNat
  | .len267 x => .coded .literalLength 267 1 x.toNat
  | .len268 x => .coded .literalLength 268 1 x.toNat
  | .len269 x => .coded .literalLength 269 2 x.toNat
  | .len270 x => .coded .literalLength 270 2 x.toNat
  | .len271 x => .coded .literalLength 271 2 x.toNat
  | .len272 x => .coded .literalLength 272 2 x.toNat
  | .len273 x => .coded .literalLength 273 3 x.toNat
  | .len274 x => .coded .literalLength 274 3 x.toNat
  | .len275 x => .coded .literalLength 275 3 x.toNat
  | .len276 x => .coded .literalLength 276 3 x.toNat
  | .len277 x => .coded .literalLength 277 4 x.toNat
  | .len278 x => .coded .literalLength 278 4 x.toNat
  | .len279 x => .coded .literalLength 279 4 x.toNat
  | .len280 x => .coded .literalLength 280 4 x.toNat
  | .len281 x => .coded .literalLength 281 5 x.toNat
  | .len282 x => .coded .literalLength 282 5 x.toNat
  | .len283 x => .coded .literalLength 283 5 x.toNat
  | .len284 x => .coded .literalLength 284 5 x.toNat
  | .len285 => .coded .literalLength 285 0 0
  | .llinv s => .coded .literalLength (286 + s.toNat) 0 0
  | .dist0 => .coded .distance 0 0 0
  | .dist1 => .coded .distance 1 0 0
  | .dist2 => .coded .distance 2 0 0
  | .dist3 => .coded .distance 3 0 0
  | .dist4 y => .coded .distance 4 1 y.toNat
  | .dist5 y => .coded .distance 5 1 y.toNat
  | .dist6 y => .coded .distance 6 2 y.toNat
  | .dist7 y => .coded .distance 7 2 y.toNat
  | .dist8 y => .coded .distance 8 3 y.toNat
  | .dist9 y => .coded .distance 9 3 y.toNat
  | .dist10 y => .coded .distance 10 4 y.toNat
  | .dist11 y => .coded .distance 11 4 y.toNat
  | .dist12 y => .coded .distance 12 5 y.toNat
  | .dist13 y => .coded .distance 13 5 y.toNat
  | .dist14 y => .coded .distance 14 6 y.toNat
  | .dist15 y => .coded .distance 15 6 y.toNat
  | .dist16 y => .coded .distance 16 7 y.toNat
  | .dist17 y => .coded .distance 17 7 y.toNat
  | .dist18 y => .coded .distance 18 8 y.toNat
  | .dist19 y => .coded .distance 19 8 y.toNat
  | .dist20 y => .coded .distance 20 9 y.toNat
  | .dist21 y => .coded .distance 21 9 y.toNat
  | .dist22 y => .coded .distance 22 10 y.toNat
  | .dist23 y => .coded .distance 23 10 y.toNat
  | .dist24 y => .coded .distance 24 11 y.toNat
  | .dist25 y => .coded .distance 25 11 y.toNat
  | .dist26 y => .coded .distance 26 12 y.toNat
  | .dist27 y => .coded .distance 27 12 y.toNat
  | .dist28 y => .coded .distance 28 13 y.toNat
  | .dist29 y => .coded .distance 29 13 y.toNat
  | .dinv d => .coded .distance (30 + d.toNat) 0 0

/-- The stream bits of an LSB-first field of `n` bits (R60). -/
def lsbBits : Nat → Nat → List Bool
  | 0, _ => []
  | n + 1, v => v.testBit 0 :: lsbBits n (v / 2)

/-- The stream bits of an MSB-first field of `n` bits (R60). -/
def msbBits (n v : Nat) : List Bool := (lsbBits n v).reverse

/-- The stream bits of an element at a place of the stream, or none where the element has no place there or its symbol
no code (30_encoding.md R81). -/
def encode (ctx : Ctx) (i : Instr) : Option (List Bool) :=
  match ctx, i.form with
  | .header, .blockHeader f t => some (f :: lsbBits 2 t)
  | .stored, .storedHeader l n => some (lsbBits 16 l ++ lsbBits 16 n)
  | .hlit, .field .hlit w v => some (lsbBits w v)
  | .hdist, .field .hdist w v => some (lsbBits w v)
  | .hclen, .field .hclen w v => some (lsbBits w v)
  | .cllen, .field .cllen w v => some (lsbBits w v)
  | .codeLength t, .coded .codeLength s w x => (t.codeOf s).map (· ++ lsbBits w x)
  | .symbol t, .coded .literalLength s w x => (t.codeOf s).map (· ++ lsbBits w x)
  | .distFixed, .coded .distance s w x => some (msbBits 5 s ++ lsbBits w x)
  | .distTree t, .coded .distance s w x => (t.codeOf s).map (· ++ lsbBits w x)
  | _, _ => none

/-- The fixed literal/length code of a symbol, from the code table of 30_encoding.md R71. -/
def fixedCode (sym : Nat) : List Bool :=
  if sym < 144 then msbBits 8 (48 + sym)
  else if sym < 256 then msbBits 9 (400 + (sym - 144))
  else if sym < 280 then msbBits 7 (sym - 256)
  else msbBits 8 (192 + (sym - 280))

/-- The cursor at which an element's bits begin: the stored header is preceded by padding to the next byte boundary
(30_encoding.md R63, R80), every other element begins at the cursor itself. -/
def Ctx.start (ctx : Ctx) (c : Cursor) : Cursor :=
  match ctx with
  | .stored => c.align
  | .header | .hlit | .hdist | .hclen | .cllen | .codeLength _ | .symbol _ | .distFixed | .distTree _ => c

/-- The input holds the bits `bs` from the cursor on. -/
def Input.holds (m : Input) (c : Cursor) (bs : List Bool) : Prop :=
  c.index + bs.length ≤ 8 * m.len ∧ ∀ k (h : k < bs.length), m.streamBit (c.index + k) = bs[k]

/-! ### Words of the opcode table -/

/-- The bits of a table word as one number in stream order: the table writes a row's bits in stream order, leftmost
first, and numbers them from the right, so bit `nbits - 1` of the word is the first bit of the stream. Log 12. -/
def tableStream (nbits w : Nat) : Nat := revBits nbits w

/-- `n` bytes of a number, least significant first: the first stream bit in bit 0 of the first byte (R91). -/
def streamBytes (v : Nat) : Nat → List Byte
  | 0 => []
  | n + 1 => .ofNat 8 v :: streamBytes (v / 256) n

/-- The input that holds a table word, followed by zero bits: 8 bytes, more than the longest element. -/
def tableInput (nbits w : Nat) : Input := Input.ofBytes (streamBytes (tableStream nbits w) 8)

/-- The place of the stream a table word is read at. The table's `context` column says it for each row; from a word
alone it is: the stored header for 32 bits; the distance symbol of a fixed block where the word is exactly one
distance element; else a literal/length symbol of a fixed block. Log 12. -/
def tableCtx (nbits w : Nat) : Ctx :=
  if nbits = 32 then .stored
  else
    match decode (tableInput nbits w) .distFixed ⟨0, 0⟩ with
    | .ok _ c => if c.index = nbits then .distFixed else .symbol fixedLlTree
    | .raises _ _ => .symbol fixedLlTree

/-- The instruction the decoder reads from a word of the opcode table (numbered as the table numbers it), or none where
the decoder refuses. -/
def decodeTableWord (nbits w : Nat) : Option Instr :=
  match decode (tableInput nbits w) (tableCtx nbits w) ⟨0, 0⟩ with
  | .ok i _ => some i
  | .raises _ _ => none

end Sys2Proof
end

