-- ==== Sys2Proof/Machine/State.lean ====
section
/-! DEFINITION. The state of the machine as plain data (10_state.md), the reasons a step can stop, and the state before
the first Start. -/

namespace Sys2Proof.Machine

/-- The `phase` register (10_state.md R22). -/
inductive Phase
  | idle
  | readHeader
  | stored
  | fixedHuffman
  | dynamicHuffman
  | done
  | finished
  | error
  deriving DecidableEq, Repr

/-- The `status` register (10_state.md R25). -/
inductive Status
  | idle
  | running
  | finished
  | error
  deriving DecidableEq, Repr

/-- MODEL'S OWN. Which element comes next inside a Huffman block: the position in the pseudocode of 43_block_decoder.md
R140 to R148 and 44_symbol_decode.md R160 to R167. Log 5. -/
inductive Pos
  | hlit
  | hdist
  | hclen
  | cllen
  | codeLength
  | symbol
  | distance
  deriving DecidableEq, Repr

/-- MODEL'S OWN. Where the zlib wrapper stands: the position in the pseudocode of 46_zlib_frame.md R192 to R195. Log 13. -/
inductive Frame
  /-- The CORE alone, started by the host. -/
  | raw
  /-- CMF and FLG are to be read (R192). -/
  | header
  /-- The CORE runs under the wrapper (R193). -/
  | body
  /-- The trailer is to be read and checked (R194, R195). -/
  | trailer
  /-- The checksum agreed; the decode is complete (R195). -/
  | complete
  deriving DecidableEq, Repr

/-- A command of the host. -/
inductive Command
  /-- Start with its parameters (70_reset_and_hazards.md R230). -/
  | start (p : Params)
  /-- `inflate_zlib(input)` with the capacity of the output and the trace switch (46_zlib_frame.md R190). -/
  | inflateZlib (input : Input) (outCap : Option Nat) (trace : Bool)
  deriving DecidableEq, Repr

/-- The reasons a step stops with a fault. -/
inductive Fault
  /-- Raised by the step in `Idle`, `Finished` or `Error` when the inbox holds no command: "no step is possible ...
  other than a new Start" (60_exceptions.md R211; 70_reset_and_hazards.md R234). Safe: the hardware does nothing there.
  Log 6. -/
  | awaitingStart
  deriving DecidableEq, Repr

/-- The reasons a step has no meaning. Each but the first is a situation the spec itself says the model refuses. -/
inductive Refusal
  /-- Raised by `exec` for an instruction without a meaning; no instruction is. Safe. -/
  | notModelled (mnemonic : String)
  /-- Raised by `read_bytes` with `bit_position != 0` (20_memory.md R48; D5; U1). Safe. Log 15. -/
  | unalignedReadBytes
  /-- Raised by `read_bytes` with a count outside 1 to 4 (40_bit_reader.md R97; D6; U2). Safe. Log 15. -/
  | byteCountOutOfRange
  /-- Raised by `read_bits_lsb` and `read_bits_msb` with more than 16 bits, and by `read_huffman_code` with a length
  outside 1 to 15 (40_bit_reader.md R94 to R96; D6; U2). Safe. Log 15. -/
  | bitCountOutOfRange
  /-- Raised by the wrapper for a header with CINFO above 7 that passes the other checks (46_zlib_frame.md R197; D21;
  U3). Safe. Log 15. -/
  | windowInfoAboveSeven
  /-- Raised by Start with `WBITS` outside 8 to 15 (00_scope.md R5; D21). Safe. Log 15. -/
  | windowExponentOutOfRange
  /-- Raised by Start with `start_byte` above `IN_LEN` (00_scope.md R5; D15). Safe. Log 15. -/
  | startByteOutOfRange
  /-- Raised by Start while `status = Running` (70_reset_and_hazards.md R230; U6). Safe. Log 15. -/
  | startWhileRunning
  deriving DecidableEq, Repr

/-- The state of the machine. -/
structure State where
  /-- The parameters of the run (00_scope.md R5); never changed by it. -/
  params : Params
  /-- MODEL'S OWN. The host's commands not yet taken, oldest first. Log 3. -/
  inbox : List Command
  /-- `pc = (byte_position, bit_position)` (10_state.md R12). -/
  pc : Cursor
  /-- `OUT` (10_state.md R14). -/
  out : Memory
  /-- `out_pos` (10_state.md R14). -/
  outPos : Nat
  /-- `WIN` (10_state.md R15). -/
  win : Memory
  /-- `cursor`, the window slot the next byte goes to (10_state.md R15). -/
  cursor : Nat
  /-- `emitted` (10_state.md R15; D13: no upper bound). -/
  emitted : Nat
  /-- `CL_TREE` (10_state.md R17); after its block it keeps what was written last: DESIGN CHOICE, log 21. -/
  clTree : Tree
  /-- `LL_TREE` (10_state.md R17); after its block it keeps what was written last: DESIGN CHOICE, log 21. -/
  llTree : Tree
  /-- `D_TREE` (10_state.md R17); after its block it keeps what was written last: DESIGN CHOICE, log 21. -/
  dTree : Tree
  /-- `cl_len[0..18]` (10_state.md R20); outside its phase it keeps what was written last: DESIGN CHOICE, log 21. -/
  clLen : List Nat
  /-- `lens[0..319]` (10_state.md R20); outside its phase it keeps what was written last: DESIGN CHOICE, log 21. -/
  lens : List Nat
  /-- `bfinal` (10_state.md R21). -/
  bfinal : Bool
  /-- `btype` (10_state.md R21). -/
  btype : BitVec 2
  /-- `hlit`, the count after the offset (10_state.md R21); outside its phase it keeps what was written last: DESIGN
  CHOICE, log 21. -/
  hlit : Nat
  /-- `hdist`, the count after the offset (10_state.md R21); outside its phase it keeps what was written last: DESIGN
  CHOICE, log 21. -/
  hdist : Nat
  /-- `hclen`, the count after the offset (10_state.md R21); outside its phase it keeps what was written last: DESIGN
  CHOICE, log 21. -/
  hclen : Nat
  /-- `phase` (10_state.md R22). -/
  phase : Phase
  /-- MODEL'S OWN. The element that comes next inside a Huffman block. Log 5. -/
  pos : Pos
  /-- MODEL'S OWN. The loop counter `i` of 43_block_decoder.md R141 and R143. Log 5. -/
  i : Nat
  /-- `bl_count[0..15]` (10_state.md R23); kept after its operation: DESIGN CHOICE, log 9. -/
  blCount : List Nat
  /-- `next_code[1..15]` at the indices 1 to 15 (10_state.md R23); kept after its operation: DESIGN CHOICE, log 9. -/
  nextCode : List Nat
  /-- `length` (10_state.md R24); kept after its operation: DESIGN CHOICE, log 9. -/
  length : Nat
  /-- `distance` (10_state.md R24); kept after its operation: DESIGN CHOICE, log 9. -/
  distance : Nat
  /-- `src` (10_state.md R24); kept after its operation: DESIGN CHOICE, log 9. -/
  src : Nat
  /-- `remaining` (10_state.md R24); kept after its operation: DESIGN CHOICE, log 9. -/
  remaining : Nat
  /-- `status` (10_state.md R25). -/
  status : Status
  /-- `error_kind`; none is code 0, no error has been raised (10_state.md R25). -/
  errorKind : Option ErrorKind
  /-- MODEL'S OWN. Where the zlib wrapper stands. Log 13. -/
  frame : Frame
  deriving DecidableEq, Repr

/-- The machine before the first Start: `status = Idle`, `phase = Idle`, `error_kind = 0` (70_reset_and_hazards.md R231).
The memories hold no value (log 1); every other register holds the value log 2 names, since R231 leaves it
unspecified. -/
def State.reset : State where
  params := ⟨⟨[], 0⟩, 15, none, 0, false⟩
  inbox := []
  pc := ⟨0, 0⟩
  out := []
  outPos := 0
  win := []
  cursor := 0
  emitted := 0
  clTree := .bareRoot
  llTree := .bareRoot
  dTree := .bareRoot
  clLen := List.replicate 19 0
  lens := List.replicate 320 0
  bfinal := false
  btype := 0
  hlit := 0
  hdist := 0
  hclen := 0
  phase := .idle
  pos := .symbol
  i := 0
  blCount := List.replicate 16 0
  nextCode := List.replicate 16 0
  length := 0
  distance := 0
  src := 0
  remaining := 0
  status := .idle
  errorKind := none
  frame := .raw

end Sys2Proof.Machine
end

