-- ==== Sys2Proof/Machine/Ops.lean ====
section
/-! DEFINITION. The named operations over registers and memories: the register updates, `raise`, the BitReader called
on the state, the window and the sink. -/

namespace Sys2Proof.Machine

/-! ### Parameters -/

/-- `CAPACITY = 1 << WBITS` (00_scope.md R5). -/
def State.capacity (s : State) : Nat := 2 ^ s.params.wbits

/-- The input buffer of the run. -/
def State.input (s : State) : Input := s.params.input

/-! ### Register updates -/

/-- Writes the bit cursor. -/
def State.setPc (s : State) (c : Cursor) : State := { s with pc := c }

/-- Latches the block header: `bfinal` and `btype` (43_block_decoder.md R136). -/
def State.setHeader (s : State) (final : Bool) (btype : BitVec 2) : State := { s with bfinal := final, btype := btype }

/-- Writes `bfinal` alone: the header is read bit after bit (43_block_decoder.md R136). -/
def State.setBfinal (s : State) (final : Bool) : State := { s with bfinal := final }

/-- Writes `phase`, a phase of the running machine (10_state.md R22). -/
def State.setPhase (s : State) (p : Phase) : State := { s with phase := p }

/-- Writes the position inside a Huffman block. -/
def State.setPos (s : State) (p : Pos) : State := { s with pos := p }

/-- Writes `hlit`. -/
def State.setHlit (s : State) (n : Nat) : State := { s with hlit := n }

/-- Writes `hdist`. -/
def State.setHdist (s : State) (n : Nat) : State := { s with hdist := n }

/-- Writes `hclen`. -/
def State.setHclen (s : State) (n : Nat) : State := { s with hclen := n }

/-- `for s in 0..18: cl_len[s] <- 0`, and the loop counter at 0 (43_block_decoder.md R141). -/
def State.clearClLen (s : State) : State := { s with clLen := List.replicate 19 0, i := 0 }

/-- `cl_len[ORDER[i]] <- v`, and the next `i` (43_block_decoder.md R141). -/
def State.putClLen (s : State) (v : Nat) : State := { s with clLen := s.clLen.set (order s.i) v, i := s.i + 1 }

/-- `lens[i] <- v ; i = i + 1` (43_block_decoder.md R144 to R147). The entries above `i` keep what an earlier block left
there (R20 gives them no value; DESIGN CHOICE, log 21). -/
def State.putLen (s : State) (v : Nat) : State := { s with lens := s.lens.set s.i v, i := s.i + 1 }

/-- `i = 0`, the start of the code-length loop (43_block_decoder.md R143). -/
def State.clearI (s : State) : State := { s with i := 0 }

/-- What a `build` into `CL_TREE` leaves, scratch registers included (43_block_decoder.md R142). -/
def State.setClTree (s : State) (b : Build) : State :=
  { s with clTree := b.tree, blCount := b.blCount, nextCode := b.nextCode }

/-- What a `build` into `LL_TREE` leaves (43_block_decoder.md R148). -/
def State.setLlTree (s : State) (b : Build) : State :=
  { s with llTree := b.tree, blCount := b.blCount, nextCode := b.nextCode }

/-- What a `build` into `D_TREE` leaves (43_block_decoder.md R148). -/
def State.setDTree (s : State) (b : Build) : State :=
  { s with dTree := b.tree, blCount := b.blCount, nextCode := b.nextCode }

/-- Writes `length`. -/
def State.setLength (s : State) (n : Nat) : State := { s with length := n }

/-- Writes `distance`. -/
def State.setDistance (s : State) (n : Nat) : State := { s with distance := n }

/-- Writes `src`. -/
def State.setSrc (s : State) (n : Nat) : State := { s with src := n }

/-- Writes `remaining`. -/
def State.setRemaining (s : State) (n : Nat) : State := { s with remaining := n }

/-- The window's part of `append`: the write at `cursor`, its advance, the count (42_sliding_window.md R126). -/
def State.pushWin (s : State) (b : Byte) : State :=
  { s with win := s.win.write s.cursor b, cursor := (s.cursor + 1) % s.capacity, emitted := s.emitted + 1 }

/-- The sink's part of `put_byte`: the write at `out_pos` and its advance (40_bit_reader.md R99). -/
def State.pushOut (s : State) (b : Byte) : State := { s with out := s.out.write s.outPos b, outPos := s.outPos + 1 }

/-- The three writes of `raise` (60_exceptions.md R210). -/
def State.setError (s : State) (k : ErrorKind) : State := { s with errorKind := some k, phase := .error, status := .error }

/-- `phase <- Finished ; status <- Finished` (45_inflate_engine.md R180). -/
def State.setFinished (s : State) : State := { s with phase := .finished, status := .finished }

/-- Writes the place of the wrapper. -/
def State.setFrame (s : State) (f : Frame) : State := { s with frame := f }

/-- Writes the inbox. -/
def State.setInbox (s : State) (cs : List Command) : State := { s with inbox := cs }

/-! ### Taking an exception -/

/-- `raise K` (60_exceptions.md R210), the one exceptional control transfer: `error_kind` is set once, `phase` and
`status` become `Error`, everything else keeps its value (R211). There is no handler, no saved cursor and no return
(R209, R212); only a Start leaves `Error`. -/
def raise (k : ErrorKind) (s : State) : State := if s.status = .error then s else s.setError k

/-- What an operation on the state ends in: a value and the state, a raised error (no later statement executes), or a
refusal. -/
inductive Op (α : Type)
  | ok (v : α) (s : State)
  | raised (s : State)
  | refused (r : Refusal)

/-- One operation after another; an error abandons every caller (60_exceptions.md R210). -/
def Op.bind {α β : Type} (o : Op α) (f : α → State → Op β) : Op β :=
  match o with
  | .ok v s => f v s
  | .raised s => .raised s
  | .refused r => .refused r

/-- The outcome of a step that runs the operation last: a raised error is a next state. -/
def Op.outcome (o : Op Unit) : Host.Outcome State Fault Refusal :=
  match o with
  | .ok _ s => .next s
  | .raised s => .next s
  | .refused r => .refused r

/-! ### The BitReader called on the state (40_bit_reader.md) -/

/-- A read of the run's input: the cursor moves, and an error is raised. -/
def liftRead {α : Type} (s : State) (r : Read α) : Op α :=
  match r with
  | .ok v c => .ok v (s.setPc c)
  | .raises k c => .raised (raise k (s.setPc c))

/-- `read_bit_lsb` (R92). -/
def callReadBitLsb (s : State) : Op Bool := liftRead s (readBitLsb s.input s.pc)

/-- `read_bit_msb` (R93). -/
def callReadBitMsb (s : State) : Op Bool := liftRead s (readBitMsb s.input s.pc)

/-- `read_bits_lsb(n)`, n from 0 to 16 (R94; D6). -/
def callReadBitsLsb (n : Nat) (s : State) : Op Nat :=
  if n ≤ 16 then liftRead s (readBitsLsb s.input n s.pc) else .refused .bitCountOutOfRange

/-- `read_bits_msb(n)`, n from 0 to 16 (R95; D6). -/
def callReadBitsMsb (n : Nat) (s : State) : Op Nat :=
  if n ≤ 16 then liftRead s (readBitsMsb s.input n s.pc) else .refused .bitCountOutOfRange

/-- `read_huffman_code(code_length)`, code_length from 1 to 15 (R96). -/
def callReadHuffmanCode (n : Nat) (s : State) : Op Nat :=
  if 1 ≤ n ∧ n ≤ 15 then liftRead s (readHuffmanCode s.input n s.pc) else .refused .bitCountOutOfRange

/-- `read_bytes(count)`, count from 1 to 4, the cursor aligned (R97; D5, D6). -/
def callReadBytes (count : Nat) (s : State) : Op Nat :=
  if s.pc.bit ≠ 0 then .refused .unalignedReadBytes
  else if count = 0 ∨ 4 < count then .refused .byteCountOutOfRange
  else liftRead s (readBytes s.input count s.pc)

/-- `skip_to_next_byte` (R98). -/
def skipToNextByte (s : State) : State := s.setPc s.pc.align

/-- `decode_symbol(tree)` (41_huffman_tree.md R117). -/
def decodeSymbol (t : Tree) (s : State) : Op Nat := liftRead s (t.walk s.input s.pc)

/-! ### The sink and the window -/

/-- The sink has no room: `out_pos >= OUT_CAP` (40_bit_reader.md R99). -/
def State.sinkFull (s : State) : Bool :=
  match s.params.outCap with
  | none => false
  | some n => n ≤ s.outPos

/-- `put_byte(byte)` (40_bit_reader.md R99). -/
def putByte (b : Byte) (s : State) : Op Unit :=
  if s.sinkFull then .raised (raise .bufferFull s) else .ok () (s.pushOut b)

/-- `append(byte)` (42_sliding_window.md R126; D16): window write, cursor, `emitted`, then `put_byte`. -/
def append (b : Byte) (s : State) : Op Unit := putByte b (s.pushWin b)

/-- `WIN[a]` (20_memory.md R42); a slot never written reads as the free value (U8; log 1). -/
def State.winByte (s : State) (a : Nat) : Byte := (s.win.read a).getD (Config.unwritten .window a)

/-- `OUT[a]`, read by the host and by the wrapper's checksum (10_state.md R14; 46_zlib_frame.md R195); a byte never
written reads as the free value (U9; log 1). -/
def State.outByte (s : State) (a : Nat) : Byte := (s.out.read a).getD (Config.unwritten .output a)

/-- The loop of `copy_back` (42_sliding_window.md R127): each byte is read, then appended, before the next is read;
`remaining` counts the bytes still to copy (10_state.md R24; log 10). -/
def copyLoop : Nat → State → Op Unit
  | 0, s => .ok () s
  | n + 1, s =>
    (append (s.winByte s.src) s).bind fun _ s₁ => copyLoop n ((s₁.setSrc ((s₁.src + 1) % s₁.capacity)).setRemaining n)

/-- `copy_back(length, distance)` (42_sliding_window.md R127, R128). -/
def copyBack (length distance : Nat) (s : State) : Op Unit :=
  if distance = 0 ∨ s.emitted < distance ∨ s.capacity < distance then .raised (raise .invalidDistance s)
  else copyLoop length ((s.setSrc ((s.cursor + s.capacity - distance) % s.capacity)).setRemaining length)

end Sys2Proof.Machine
end

