-- ==== Sys2Proof/Machine/Flags.lean ====
section
/-! DEFINITION. Flags and status. The CORE has no condition codes and no operation sets a flag as a side effect of a
value (10_state.md R26); what there is: `bfinal` (State.setHeader), and what `status` and `error_kind` encode. -/

namespace Sys2Proof.Machine

/-- The `status` that goes with a `phase` (10_state.md R25): `Running` exactly in `ReadHeader`, `Stored`,
`FixedHuffman`, `DynamicHuffman` and `Done`. -/
def statusOf : Phase → Status
  | .idle => .idle
  | .readHeader => .running
  | .stored => .running
  | .fixedHuffman => .running
  | .dynamicHuffman => .running
  | .done => .running
  | .finished => .finished
  | .error => .error

/-- The numeric code of an error kind (60_exceptions.md R200). -/
def errorCode : ErrorKind → BitVec 4
  | .streamExhausted => 1
  | .bufferFull => 2
  | .invalidBlockType => 3
  | .lengthMismatch => 4
  | .invalidSymbol => 5
  | .invalidDistance => 6
  | .malformedTree => 7
  | .unsupportedCompressionMethod => 8
  | .headerChecksumInvalid => 9
  | .presetDictionaryUnsupported => 10
  | .checksumMismatch => 11

/-- The register `error_kind` as the host reads it, 0 when no error has been raised (10_state.md R25). -/
def State.errorRegister (s : State) : BitVec 4 :=
  match s.errorKind with
  | none => 0
  | some k => errorCode k

end Sys2Proof.Machine
end

