-- ==== Sys2Proof/Machine/Operands.lean ====
section
/-! DEFINITION. The operands (30_encoding.md R75): every number the stream carries outside a Huffman code is unsigned
and is turned into an operand by adding a constant. -/

namespace Sys2Proof.Machine

/-- `hlit = field + 257` (R64). -/
def hlitCount (a : BitVec 5) : Nat := a.toNat + 257

/-- `hdist = field + 1` (R64). -/
def hdistCount (b : BitVec 5) : Nat := b.toNat + 1

/-- `hclen = field + 4` (R64). -/
def hclenCount (c : BitVec 4) : Nat := c.toNat + 4

/-- The repeat count of code-length symbol 16 (R66). -/
def repeatCount (x : BitVec 2) : Nat := 3 + x.toNat

/-- The zero count of code-length symbol 17 (R66). -/
def zeroCount3 (x : BitVec 3) : Nat := 3 + x.toNat

/-- The zero count of code-length symbol 18 (R66). -/
def zeroCount7 (x : BitVec 7) : Nat := 11 + x.toNat

/-- The match length of symbol `sym` with extra value `x` (R73; 44_symbol_decode.md R163). -/
def matchLengthOf (sym x : Nat) : Nat := lbase sym + x

/-- The match distance of symbol `d` with extra value `y` (R74; 44_symbol_decode.md R166). -/
def matchDistanceOf (d y : Nat) : Nat := dbase d + y

/-- LEN and NLEN are complements: `LEN ^ NLEN == 0xFFFF` on 16-bit values (R76). -/
def lenComplement (len nlen : Half) : Bool := len ^^^ nlen == 0xFFFF#16

/-- `total = hlit + hdist`, the number of code lengths a dynamic header defines (43_block_decoder.md R143). -/
def State.total (s : State) : Nat := s.hlit + s.hdist

/-- The previous code length `lens[i-1]` (43_block_decoder.md R145). -/
def State.previousLen (s : State) : Nat := s.lens.getD (s.i - 1) 0

end Sys2Proof.Machine
end

