-- ==== Sys2Proof/Machine/CodeLength.lean ====
section
/-! DEFINITION. CL, CL_REP, CL_ZERO3, CL_ZERO7: the code-length symbols (43_block_decoder.md R143 to R148). The symbol
and its extra bits have been read. -/

namespace Sys2Proof.Machine

/-- `repeat n times: lens[i] <- v ; i = i + 1` (R144 to R147). -/
def fillLens : Nat → Nat → State → State
  | 0, _, s => s
  | n + 1, v, s => fillLens n v (s.putLen v)

/-- `LL_TREE <- build(lens[0 .. hlit-1])`, then `D_TREE <- build(lens[hlit .. hlit+hdist-1])` (R148), then the decode
loop. -/
def buildBlockTrees (s : State) : State :=
  let ll := build (s.lens.take s.hlit)
  let s₁ := s.setLlTree ll
  if ll.ok then
    let d := build ((s.lens.drop s.hlit).take s.hdist)
    let s₂ := s₁.setDTree d
    if d.ok then s₂.setPos .symbol else raise .malformedTree s₂
  else raise .malformedTree s₁

/-- The end of one turn of the code-length loop: on while `i < total`, else the trees (R143, R148). -/
def endLens (s : State) : State := if s.i < s.total then s else buildBlockTrees s

/-- A run of `n` code lengths `v`: `MalformedTree` where it would define more than `total` (R145 to R147; D10). -/
def runLens (n v : Nat) (s : State) : State :=
  if s.total < s.i + n then raise .malformedTree s else endLens (fillLens n v s)

/-- CL (R144): the next code length is the symbol. -/
def execCl (n : BitVec 4) (s : State) : Host.Outcome State Fault Refusal :=
  .next (endLens (fillLens 1 n.toNat s))

/-- CL_REP (R145): the previous length 3 to 6 times; `MalformedTree` when there is none. -/
def execClRep (x : BitVec 2) (s : State) : Host.Outcome State Fault Refusal :=
  .next (if s.i = 0 then raise .malformedTree s else runLens (repeatCount x) s.previousLen s)

/-- CL_ZERO3 (R146): 3 to 10 zero lengths. -/
def execClZero3 (x : BitVec 3) (s : State) : Host.Outcome State Fault Refusal :=
  .next (runLens (zeroCount3 x) 0 s)

/-- CL_ZERO7 (R147): 11 to 138 zero lengths. -/
def execClZero7 (x : BitVec 7) (s : State) : Host.Outcome State Fault Refusal :=
  .next (runLens (zeroCount7 x) 0 s)

end Sys2Proof.Machine
end

