-- ==== Sys2Proof/Machine/DynamicHeader.lean ====
section
/-! DEFINITION. HLIT, HDIST, HCLEN and CLLEN: the first part of the dynamic-table header (43_block_decoder.md R140 to
R142). -/

namespace Sys2Proof.Machine

/-- HLIT (R140). -/
def execHlit (a : BitVec 5) (s : State) : Host.Outcome State Fault Refusal :=
  .next ((s.setHlit (hlitCount a)).setPos .hdist)

/-- HDIST (R140). -/
def execHdist (b : BitVec 5) (s : State) : Host.Outcome State Fault Refusal :=
  .next ((s.setHdist (hdistCount b)).setPos .hclen)

/-- HCLEN (R140), and the start of the loop of R141: `cl_len` is zeroed (D22). -/
def execHclen (c : BitVec 4) (s : State) : Host.Outcome State Fault Refusal :=
  .next ((s.setHclen (hclenCount c)).clearClLen.setPos .cllen)

/-- `CL_TREE <- build(cl_len[0..18])` (R142), then the code-length loop begins at `i = 0` (R143). -/
def buildClTree (s : State) : State :=
  let b := build s.clLen
  if b.ok then ((s.setClTree b).setPos .codeLength).clearI else raise .malformedTree (s.setClTree b)

/-- CLLEN (R141): one code-length-code length; after the last, `CL_TREE` is built (R142). -/
def execCllen (v : BitVec 3) (s : State) : Host.Outcome State Fault Refusal :=
  let s₁ := s.putClLen v.toNat
  .next (if s₁.i < s₁.hclen then s₁ else buildClTree s₁)

end Sys2Proof.Machine
end

