-- ==== Sys2Proof/Machine/Header.lean ====
section
/-! DEFINITION. The block headers STORED, FIXED, DYNAMIC, RESERVED (43_block_decoder.md R136, R137). The three bits
have been read; the meaning latches them and dispatches. -/

namespace Sys2Proof.Machine

/-- STORED (R137): `Stored` is selected. -/
def execStored (final : Bool) (s : State) : Host.Outcome State Fault Refusal :=
  .next ((s.setHeader final 0).setPhase .stored)

/-- FIXED (R137, R139): `FixedHuffman` is selected; no bits are read to set it up. -/
def execFixed (final : Bool) (s : State) : Host.Outcome State Fault Refusal :=
  .next (((s.setHeader final 1).setPhase .fixedHuffman).setPos .symbol)

/-- DYNAMIC (R137, R140): `DynamicHuffman` is selected; HLIT comes next. -/
def execDynamic (final : Bool) (s : State) : Host.Outcome State Fault Refusal :=
  .next (((s.setHeader final 2).setPhase .dynamicHuffman).setPos .hlit)

/-- RESERVED (R137): raises `InvalidBlockType`, the header latched (60_exceptions.md R203). -/
def execReserved (final : Bool) (s : State) : Host.Outcome State Fault Refusal :=
  .next (raise .invalidBlockType (s.setHeader final 3))

end Sys2Proof.Machine
end

