-- ==== Sys2Proof/Machine/Literal.lean ====
section
/-! DEFINITION. LIT (two rows), EOB and LLINV: the literal/length symbols that are no match (44_symbol_decode.md R161,
R162, R168). -/

namespace Sys2Proof.Machine

/-- LIT, symbols 0 to 143 (R161): the symbol is the byte. -/
def execLit0 (b : Byte) (s : State) : Host.Outcome State Fault Refusal := (append b s).outcome

/-- LIT, symbols 144 to 255 (R161). -/
def execLit144 (b : Byte) (s : State) : Host.Outcome State Fault Refusal := (append b s).outcome

/-- EOB (R162): the block is complete, `Done` (43_block_decoder.md R150). -/
def execEob (s : State) : Host.Outcome State Fault Refusal := .next (s.setPhase .done)

/-- LLINV, symbols 286 and 287 (R168): raises `InvalidSymbol` (60_exceptions.md R205). -/
def execLlinv (_sym287 : Bool) (s : State) : Host.Outcome State Fault Refusal := .next (raise .invalidSymbol s)

end Sys2Proof.Machine
end

