-- ==== Sys2Proof/Machine/MatchDistance.lean ====
section
/-! DEFINITION. DIST0 to DIST29 and DINV: the match distance and the copy (44_symbol_decode.md R166, R167, R169). -/

namespace Sys2Proof.Machine

/-- `distance = DBASE[d] + extra` (R166), then `copy_back(length, distance)` (R167); the next literal/length symbol
follows. -/
def matchDistance (d y : Nat) (s : State) : Host.Outcome State Fault Refusal :=
  let s₁ := s.setDistance (matchDistanceOf d y)
  ((copyBack s₁.length s₁.distance s₁).bind fun _ s₂ => .ok () (s₂.setPos .symbol)).outcome

/-- DINV, distance symbols 30 and 31 (R169): raises `InvalidSymbol` (60_exceptions.md R205). -/
def execDinv (_sym31 : Bool) (s : State) : Host.Outcome State Fault Refusal := .next (raise .invalidSymbol s)

/-- DIST0 (R166, R167). -/
def execDist0 (s : State) : Host.Outcome State Fault Refusal := matchDistance 0 0 s

/-- DIST1 (R166, R167). -/
def execDist1 (s : State) : Host.Outcome State Fault Refusal := matchDistance 1 0 s

/-- DIST2 (R166, R167). -/
def execDist2 (s : State) : Host.Outcome State Fault Refusal := matchDistance 2 0 s

/-- DIST3 (R166, R167). -/
def execDist3 (s : State) : Host.Outcome State Fault Refusal := matchDistance 3 0 s

/-- DIST4 (R166, R167). -/
def execDist4 (y : BitVec 1) (s : State) : Host.Outcome State Fault Refusal := matchDistance 4 y.toNat s

/-- DIST5 (R166, R167). -/
def execDist5 (y : BitVec 1) (s : State) : Host.Outcome State Fault Refusal := matchDistance 5 y.toNat s

/-- DIST6 (R166, R167). -/
def execDist6 (y : BitVec 2) (s : State) : Host.Outcome State Fault Refusal := matchDistance 6 y.toNat s

/-- DIST7 (R166, R167). -/
def execDist7 (y : BitVec 2) (s : State) : Host.Outcome State Fault Refusal := matchDistance 7 y.toNat s

/-- DIST8 (R166, R167). -/
def execDist8 (y : BitVec 3) (s : State) : Host.Outcome State Fault Refusal := matchDistance 8 y.toNat s

/-- DIST9 (R166, R167). -/
def execDist9 (y : BitVec 3) (s : State) : Host.Outcome State Fault Refusal := matchDistance 9 y.toNat s

/-- DIST10 (R166, R167). -/
def execDist10 (y : BitVec 4) (s : State) : Host.Outcome State Fault Refusal := matchDistance 10 y.toNat s

/-- DIST11 (R166, R167). -/
def execDist11 (y : BitVec 4) (s : State) : Host.Outcome State Fault Refusal := matchDistance 11 y.toNat s

/-- DIST12 (R166, R167). -/
def execDist12 (y : BitVec 5) (s : State) : Host.Outcome State Fault Refusal := matchDistance 12 y.toNat s

/-- DIST13 (R166, R167). -/
def execDist13 (y : BitVec 5) (s : State) : Host.Outcome State Fault Refusal := matchDistance 13 y.toNat s

/-- DIST14 (R166, R167). -/
def execDist14 (y : BitVec 6) (s : State) : Host.Outcome State Fault Refusal := matchDistance 14 y.toNat s

/-- DIST15 (R166, R167). -/
def execDist15 (y : BitVec 6) (s : State) : Host.Outcome State Fault Refusal := matchDistance 15 y.toNat s

/-- DIST16 (R166, R167). -/
def execDist16 (y : BitVec 7) (s : State) : Host.Outcome State Fault Refusal := matchDistance 16 y.toNat s

/-- DIST17 (R166, R167). -/
def execDist17 (y : BitVec 7) (s : State) : Host.Outcome State Fault Refusal := matchDistance 17 y.toNat s

/-- DIST18 (R166, R167). -/
def execDist18 (y : BitVec 8) (s : State) : Host.Outcome State Fault Refusal := matchDistance 18 y.toNat s

/-- DIST19 (R166, R167). -/
def execDist19 (y : BitVec 8) (s : State) : Host.Outcome State Fault Refusal := matchDistance 19 y.toNat s

/-- DIST20 (R166, R167). -/
def execDist20 (y : BitVec 9) (s : State) : Host.Outcome State Fault Refusal := matchDistance 20 y.toNat s

/-- DIST21 (R166, R167). -/
def execDist21 (y : BitVec 9) (s : State) : Host.Outcome State Fault Refusal := matchDistance 21 y.toNat s

/-- DIST22 (R166, R167). -/
def execDist22 (y : BitVec 10) (s : State) : Host.Outcome State Fault Refusal := matchDistance 22 y.toNat s

/-- DIST23 (R166, R167). -/
def execDist23 (y : BitVec 10) (s : State) : Host.Outcome State Fault Refusal := matchDistance 23 y.toNat s

/-- DIST24 (R166, R167). -/
def execDist24 (y : BitVec 11) (s : State) : Host.Outcome State Fault Refusal := matchDistance 24 y.toNat s

/-- DIST25 (R166, R167). -/
def execDist25 (y : BitVec 11) (s : State) : Host.Outcome State Fault Refusal := matchDistance 25 y.toNat s

/-- DIST26 (R166, R167). -/
def execDist26 (y : BitVec 12) (s : State) : Host.Outcome State Fault Refusal := matchDistance 26 y.toNat s

/-- DIST27 (R166, R167). -/
def execDist27 (y : BitVec 12) (s : State) : Host.Outcome State Fault Refusal := matchDistance 27 y.toNat s

/-- DIST28 (R166, R167). -/
def execDist28 (y : BitVec 13) (s : State) : Host.Outcome State Fault Refusal := matchDistance 28 y.toNat s

/-- DIST29 (R166, R167). -/
def execDist29 (y : BitVec 13) (s : State) : Host.Outcome State Fault Refusal := matchDistance 29 y.toNat s

end Sys2Proof.Machine
end

