-- ==== Sys2Proof/Machine/MatchLength.lean ====
section
/-! DEFINITION. LEN257 to LEN285: the match length (44_symbol_decode.md R163). -/

namespace Sys2Proof.Machine

/-- `length = LBASE[sym - 257] + extra` (R163); the distance symbol comes next (30_encoding.md R68). -/
def matchLength (sym x : Nat) (s : State) : Host.Outcome State Fault Refusal :=
  .next ((s.setLength (matchLengthOf sym x)).setPos .distance)

/-- LEN257 (R163). -/
def execLen257 (s : State) : Host.Outcome State Fault Refusal := matchLength 257 0 s

/-- LEN258 (R163). -/
def execLen258 (s : State) : Host.Outcome State Fault Refusal := matchLength 258 0 s

/-- LEN259 (R163). -/
def execLen259 (s : State) : Host.Outcome State Fault Refusal := matchLength 259 0 s

/-- LEN260 (R163). -/
def execLen260 (s : State) : Host.Outcome State Fault Refusal := matchLength 260 0 s

/-- LEN261 (R163). -/
def execLen261 (s : State) : Host.Outcome State Fault Refusal := matchLength 261 0 s

/-- LEN262 (R163). -/
def execLen262 (s : State) : Host.Outcome State Fault Refusal := matchLength 262 0 s

/-- LEN263 (R163). -/
def execLen263 (s : State) : Host.Outcome State Fault Refusal := matchLength 263 0 s

/-- LEN264 (R163). -/
def execLen264 (s : State) : Host.Outcome State Fault Refusal := matchLength 264 0 s

/-- LEN265 (R163). -/
def execLen265 (x : BitVec 1) (s : State) : Host.Outcome State Fault Refusal := matchLength 265 x.toNat s

/-- LEN266 (R163). -/
def execLen266 (x : BitVec 1) (s : State) : Host.Outcome State Fault Refusal := matchLength 266 x.toNat s

/-- LEN267 (R163). -/
def execLen267 (x : BitVec 1) (s : State) : Host.Outcome State Fault Refusal := matchLength 267 x.toNat s

/-- LEN268 (R163). -/
def execLen268 (x : BitVec 1) (s : State) : Host.Outcome State Fault Refusal := matchLength 268 x.toNat s

/-- LEN269 (R163). -/
def execLen269 (x : BitVec 2) (s : State) : Host.Outcome State Fault Refusal := matchLength 269 x.toNat s

/-- LEN270 (R163). -/
def execLen270 (x : BitVec 2) (s : State) : Host.Outcome State Fault Refusal := matchLength 270 x.toNat s

/-- LEN271 (R163). -/
def execLen271 (x : BitVec 2) (s : State) : Host.Outcome State Fault Refusal := matchLength 271 x.toNat s

/-- LEN272 (R163). -/
def execLen272 (x : BitVec 2) (s : State) : Host.Outcome State Fault Refusal := matchLength 272 x.toNat s

/-- LEN273 (R163). -/
def execLen273 (x : BitVec 3) (s : State) : Host.Outcome State Fault Refusal := matchLength 273 x.toNat s

/-- LEN274 (R163). -/
def execLen274 (x : BitVec 3) (s : State) : Host.Outcome State Fault Refusal := matchLength 274 x.toNat s

/-- LEN275 (R163). -/
def execLen275 (x : BitVec 3) (s : State) : Host.Outcome State Fault Refusal := matchLength 275 x.toNat s

/-- LEN276 (R163). -/
def execLen276 (x : BitVec 3) (s : State) : Host.Outcome State Fault Refusal := matchLength 276 x.toNat s

/-- LEN277 (R163). -/
def execLen277 (x : BitVec 4) (s : State) : Host.Outcome State Fault Refusal := matchLength 277 x.toNat s

/-- LEN278 (R163). -/
def execLen278 (x : BitVec 4) (s : State) : Host.Outcome State Fault Refusal := matchLength 278 x.toNat s

/-- LEN279 (R163). -/
def execLen279 (x : BitVec 4) (s : State) : Host.Outcome State Fault Refusal := matchLength 279 x.toNat s

/-- LEN280 (R163). -/
def execLen280 (x : BitVec 4) (s : State) : Host.Outcome State Fault Refusal := matchLength 280 x.toNat s

/-- LEN281 (R163). -/
def execLen281 (x : BitVec 5) (s : State) : Host.Outcome State Fault Refusal := matchLength 281 x.toNat s

/-- LEN282 (R163). -/
def execLen282 (x : BitVec 5) (s : State) : Host.Outcome State Fault Refusal := matchLength 282 x.toNat s

/-- LEN283 (R163). -/
def execLen283 (x : BitVec 5) (s : State) : Host.Outcome State Fault Refusal := matchLength 283 x.toNat s

/-- LEN284 (R163). -/
def execLen284 (x : BitVec 5) (s : State) : Host.Outcome State Fault Refusal := matchLength 284 x.toNat s

/-- LEN285 (R163). -/
def execLen285 (s : State) : Host.Outcome State Fault Refusal := matchLength 285 0 s

end Sys2Proof.Machine
end

