-- ==== Sys2Proof/Machine/Stored.lean ====
section
/-! DEFINITION. LEN: the stored block (43_block_decoder.md R138). The alignment and the four bytes have been read; the
meaning checks them and copies the data. -/

namespace Sys2Proof.Machine

/-- The copy loop of the stored body (R138; D7): byte by byte, each read and then appended; `remaining` counts down. -/
def copyStored : Nat → State → Op Unit
  | 0, s => .ok () s
  | n + 1, s =>
    (callReadBytes 1 s).bind fun b s₁ => (append (.ofNat 8 b) s₁).bind fun _ s₂ => copyStored n (s₂.setRemaining n)

/-- LEN (R138): `LengthMismatch` unless LEN and NLEN are complements, before any data byte; then exactly LEN bytes. -/
def execLen (len nlen : Half) (s : State) : Host.Outcome State Fault Refusal :=
  if lenComplement len nlen then
    ((copyStored len.toNat (s.setRemaining len.toNat)).bind fun _ s₁ => .ok () (s₁.setPhase .done)).outcome
  else .next (raise .lengthMismatch s)

end Sys2Proof.Machine
end

