-- ==== Sys2Proof/Machine/Fetch.lean ====
section
/-! DEFINITION. Fetching the next element: the place of the stream the state stands at, the decoder there, and what an
error while reading leaves. -/

namespace Sys2Proof.Machine

/-- The place of the stream that `phase` and the position inside the block name (43_block_decoder.md R135, R140 to R148;
44_symbol_decode.md R160 to R167). In a fixed block the trees are the constants and the distance is 5 bits (R139, R165).
A phase that reads no element has no place; the header stands for it and is not used. -/
def State.ctx (s : State) : Ctx :=
  match s.phase with
  | .readHeader | .idle | .done | .finished | .error => .header
  | .stored => .stored
  | .fixedHuffman =>
    match s.pos with
    | .distance => .distFixed
    | .symbol | .hlit | .hdist | .hclen | .cllen | .codeLength => .symbol fixedLlTree
  | .dynamicHuffman =>
    match s.pos with
    | .hlit => .hlit
    | .hdist => .hdist
    | .hclen => .hclen
    | .cllen => .cllen
    | .codeLength => .codeLength s.clTree
    | .symbol => .symbol s.llTree
    | .distance => .distTree s.dTree

/-- What a header cut short leaves in `bfinal`: "BFINAL may have been read and latched before it is raised"
(43_block_decoder.md R136). It is written when its bit was there. Log 11. -/
def latchCutHeader (s : State) : State :=
  match s.phase with
  | .readHeader =>
    match readBitLsb s.input s.pc with
    | .ok f _ => s.setBfinal f
    | .raises _ _ => s
  | .idle | .stored | .fixedHuffman | .dynamicHuffman | .done | .finished | .error => s

/-- One element: decode it at the cursor, move the cursor past it, execute it; an error of the reading is raised with
the cursor where the reads left it (60_exceptions.md R201, R207). -/
def runElement (s : State) : Host.Outcome State Fault Refusal :=
  match decode s.input s.ctx s.pc with
  | .ok i c => exec i (s.setPc c)
  | .raises k c => .next (raise k ((latchCutHeader s).setPc c))

end Sys2Proof.Machine
end

