-- ==== Sys2Proof/Machine/Engine.lean ====
section
/-! DEFINITION. The engine loop over blocks (45_inflate_engine.md R180, R181) and the host's Start
(70_reset_and_hazards.md R230). -/

namespace Sys2Proof.Machine

/-- Where the wrapper stands when the CORE has finished: a wrapped run goes on to its trailer (46_zlib_frame.md R194). -/
def frameAfterBody : Frame → Frame
  | .body => .trailer
  | .raw => .raw
  | .header => .header
  | .trailer => .trailer
  | .complete => .complete

/-- The turn of the engine loop after a block (R180, R181): `Finished` after a block whose BFINAL bit was 1, else the
next block header. -/
def endBlock (s : State) : Host.Outcome State Fault Refusal :=
  .next (if s.bfinal then s.setFinished.setFrame (frameAfterBody s.frame) else s.setPhase .readHeader)

/-- The state Start leaves (R230): what R230 lists, and every other register and memory as before the first Start,
since nothing of an earlier run is carried over (60_exceptions.md R212). Log 4. -/
def startState (p : Params) (inbox : List Command) : State :=
  { State.reset with
    params := p
    inbox := inbox
    pc := ⟨p.startByte, 0⟩
    phase := .readHeader
    status := .running }

/-- Start (R230): refused while Running (U6) and with parameters outside their range (00_scope.md R5). -/
def start (p : Params) (s : State) : Host.Outcome State Fault Refusal :=
  if s.status = .running then .refused .startWhileRunning
  else if p.wbits < 8 ∨ 15 < p.wbits then .refused .windowExponentOutOfRange
  else if p.input.len < p.startByte then .refused .startByteOutOfRange
  else .next (startState p s.inbox)

end Sys2Proof.Machine
end

