-- ==== Sys2Proof/Machine/ZlibFrame.lean ====
section
/-! DEFINITION. The adjacent ZlibFrame wrapper (46_zlib_frame.md): its entry point, its header, its trailer. Log 13. -/

namespace Sys2Proof.Machine

/-- The state in which `inflate_zlib` begins (R190): a fresh BitReader at `(0, 0)`, the header still to be read. WBITS
comes from the header. DESIGN CHOICE, log 22: `status`, `phase` and `error_kind` are `Idle`, `Idle` and 0 from here until
the header is accepted or fails, also when an earlier run ended in `Finished` or `Error`; the spec gives them only before
the first Start (70_reset_and_hazards.md R231) and at Start (R230). The registers R230 does not list: log 4. -/
def zlibState (input : Input) (outCap : Option Nat) (trace : Bool) (inbox : List Command) : State :=
  { State.reset with params := ⟨input, 15, outCap, 2, trace⟩, inbox := inbox, frame := .header }

/-- `inflate_zlib(input)` (R190): it begins a run, so it is refused during one (U6); taken in `Finished` or `Error` it
leaves them at once for `zlibState` (DESIGN CHOICE, log 22). -/
def startZlib (input : Input) (outCap : Option Nat) (trace : Bool) (s : State) : Host.Outcome State Fault Refusal :=
  if s.status = .running then .refused .startWhileRunning else .next (zlibState input outCap trace s.inbox)

/-- CM = CMF[3:0] (R191). -/
def zlibCm (cmf : Byte) : BitVec 4 := cmf.extractLsb' 0 4

/-- CINFO = CMF[7:4] (R191). -/
def zlibCinfo (cmf : Byte) : BitVec 4 := cmf.extractLsb' 4 4

/-- FDICT = FLG[5] (R191). -/
def zlibFdict (flg : Byte) : Bool := flg.getLsbD 5

/-- `WBITS = CINFO + 8` (R192). -/
def zlibWbits (cmf : Byte) : Nat := (zlibCinfo cmf).toNat + 8

/-- The three header checks in the source's order (R192): the error of the first that fails. -/
def zlibHeaderError (cmf flg : Byte) : Option ErrorKind :=
  if zlibCm cmf ≠ 8 then some .unsupportedCompressionMethod
  else if (cmf.toNat * 256 + flg.toNat) % 31 ≠ 0 then some .headerChecksumInvalid
  else if zlibFdict flg then some .presetDictionaryUnsupported
  else none

/-- What follows the two header bytes (R192, R193): the checks, the refusal of CINFO above 7 (R197), then Start with
`start_byte = 2` and the window the header names. -/
def zlibAfterHeader (cmf flg : Byte) (s : State) : Op Unit :=
  match zlibHeaderError cmf flg with
  | some k => .raised (raise k s)
  | none =>
    if 7 < (zlibCinfo cmf).toNat then .refused .windowInfoAboveSeven
    else .ok () ((startState ⟨s.params.input, zlibWbits cmf, s.params.outCap, 2, s.params.trace⟩ s.inbox).setFrame .body)

/-- The header step (R192; D25): both bytes are read before any check. -/
def zlibHeader (s : State) : Host.Outcome State Fault Refusal :=
  ((callReadBytes 1 s).bind fun cmf s₁ =>
    (callReadBytes 1 s₁).bind fun flg s₂ => zlibAfterHeader (.ofNat 8 cmf) (.ofNat 8 flg) s₂).outcome

/-- One byte of the running Adler-32 sums `(a, b)` (R196). -/
def adlerStep (ab : Nat × Nat) (x : Byte) : Nat × Nat :=
  ((ab.1 + x.toNat) % 65521, (ab.2 + (ab.1 + x.toNat) % 65521) % 65521)

/-- `adler32(bytes)` (R196). -/
def adler32 (bytes : List Byte) : BitVec 32 :=
  let ab := bytes.foldl adlerStep (1, 0)
  .ofNat 32 (ab.2 * 2 ^ 16 + ab.1)

/-- `OUT[0 .. out_pos-1]`, the produced output (10_state.md R14). -/
def State.output (s : State) : List Byte := (List.range s.outPos).map s.outByte

/-- The trailer as four bytes, most significant first (R194). -/
def trailerOf (t3 t2 t1 t0 : Nat) : BitVec 32 := .ofNat 32 (((t3 * 256 + t2) * 256 + t1) * 256 + t0)

/-- The check (R195): `ChecksumMismatch` unless the trailer is the Adler-32 of the output. -/
def zlibCheck (trailer : BitVec 32) (s : State) : State :=
  if adler32 s.output = trailer then s.setFrame .complete else raise .checksumMismatch s

/-- The trailer step (R194, R195; D26): align, read four single bytes, check. -/
def zlibTrailer (s : State) : Host.Outcome State Fault Refusal :=
  ((callReadBytes 1 (skipToNextByte s)).bind fun t3 s₁ =>
    (callReadBytes 1 s₁).bind fun t2 s₂ =>
      (callReadBytes 1 s₂).bind fun t1 s₃ =>
        (callReadBytes 1 s₃).bind fun t0 s₄ => .ok () (zlibCheck (trailerOf t3 t2 t1 t0) s₄)).outcome

/-- Between runs the host may act: the oldest command of the inbox is taken (00_scope.md R7; 70_reset_and_hazards.md
R230, R234); without one there is no step (60_exceptions.md R211; log 6). -/
def awaitHost (s : State) : Host.Outcome State Fault Refusal :=
  match s.inbox with
  | [] => .fault .awaitingStart
  | .start p :: rest => start p (s.setInbox rest)
  | .inflateZlib input outCap trace :: rest => startZlib input outCap trace (s.setInbox rest)

/-- A step in `Idle`: the wrapper's header if a wrapped decode has begun, else the host. -/
def idleStep (s : State) : Host.Outcome State Fault Refusal :=
  match s.frame with
  | .header => zlibHeader s
  | .raw | .body | .trailer | .complete => awaitHost s

/-- A step in `Finished`: the wrapper's trailer if the run was wrapped and it is still to come, else the host. -/
def finishedStep (s : State) : Host.Outcome State Fault Refusal :=
  match s.frame with
  | .trailer => zlibTrailer s
  | .raw | .header | .body | .complete => awaitHost s

end Sys2Proof.Machine
end

