-- ==== Sys2Proof/Machine/Step.lean ====
section
/-! DEFINITION. One step of the machine, and where a word is placed so that the next step runs it. -/

namespace Sys2Proof.Machine

/-- One step: an element of the stream in the four reading phases, the turn of the engine loop in `Done`, and outside a
run the wrapper's own reads or the host's next command. -/
def step (s : State) : Host.Outcome State Fault Refusal :=
  match s.phase with
  | .readHeader => runElement s
  | .stored => runElement s
  | .fixedHuffman => runElement s
  | .dynamicHuffman => runElement s
  | .done => endBlock s
  | .idle => idleStep s
  | .finished => finishedStep s
  | .error => awaitHost s

/-- The phase and the position at which an element of a place is read. -/
def placeOf : Ctx → Phase × Pos
  | .header => (.readHeader, .symbol)
  | .stored => (.stored, .symbol)
  | .hlit => (.dynamicHuffman, .hlit)
  | .hdist => (.dynamicHuffman, .hdist)
  | .hclen => (.dynamicHuffman, .hclen)
  | .cllen => (.dynamicHuffman, .cllen)
  | .codeLength _ => (.dynamicHuffman, .codeLength)
  | .symbol _ => (.fixedHuffman, .symbol)
  | .distFixed => (.fixedHuffman, .distance)
  | .distTree _ => (.dynamicHuffman, .distance)

/-- The memory with bytes written from address `a` on. -/
def writeBytes (m : Memory) (a : Nat) : List Byte → Memory
  | [] => m
  | b :: bs => writeBytes (m.write a b) (a + 1) bs

/-- The state with a table word, zero bits after it, stored in `IN` where the next step reads its element, and with the
phase and position at which such a word is read (log 12): this stands for the host's load of a stream and for the steps
that bring the CORE to that place. The cursor, the window, the sink and every other register stay. -/
def State.withFetchWord (s : State) (nbits w : Nat) : State :=
  let ctx := tableCtx nbits w
  let c := ctx.start s.pc
  { s with
    params := { s.params with
      input := ⟨writeBytes s.params.input.mem c.byte (streamBytes (tableStream nbits w * 2 ^ c.bit.val) 8),
        max s.params.input.len (c.byte + 8)⟩ }
    phase := (placeOf ctx).1
    pos := (placeOf ctx).2
    status := .running }

end Sys2Proof.Machine
end

