-- ==== Sys2Proof/Safety.lean ====
section
/-! DEFINITION. What counts as a safe run: the invariants of 10_state.md, in the words claims use. -/

namespace Sys2Proof

/-- Every leaf of the tree carries a symbol of an alphabet of `n` symbols. -/
def Tree.SymbolsBelow (n : Nat) : Tree → Prop
  | .absent => True
  | .leaf s _ _ => s < n
  | .node l r => Tree.SymbolsBelow n l ∧ Tree.SymbolsBelow n r

/-- The root is an internal node, as in every built tree (10_state.md R18). -/
def Tree.RootInternal (t : Tree) : Prop := ∃ l r, t = .node l r

/-- A tree that stands for an alphabet of `n` symbols (10_state.md R18, R19). -/
def Tree.Over (t : Tree) (n : Nat) : Prop := t.RootInternal ∧ t.SymbolsBelow n

end Sys2Proof

namespace Sys2Proof.Machine

/-- R13: (a) `byte_position <= IN_LEN`; (c) if `bit_position > 0` then `byte_position < IN_LEN`. (R13 (b) is the type of
the cursor.) -/
def State.CursorInBounds (s : State) : Prop :=
  s.pc.byte ≤ s.input.len ∧ (s.pc.bit ≠ 0 → s.pc.byte < s.input.len)

/-- R14: `out_pos <= OUT_CAP`; exactly the bytes `OUT[0..out_pos-1]` have been written. -/
def State.SinkInOrder (s : State) : Prop :=
  (∀ n, s.params.outCap = some n → s.outPos ≤ n) ∧ s.out.map Prod.fst = List.range s.outPos

/-- R16 (a), (b), R130: the cursor is a slot of the window and is `emitted mod CAPACITY`; the memory is canonical;
exactly the slots that an `append` has written hold a value. -/
def State.WindowInBounds (s : State) : Prop :=
  s.cursor < s.capacity ∧ s.cursor = s.emitted % s.capacity ∧ s.win.wf ∧
    ∀ a, (s.win.read a).isSome = true ↔ a < s.emitted ∧ a < s.capacity

/-- R16 (c), (d): as long as no `BufferFull` has been raised, `emitted = out_pos` and the slot `d` before the cursor
holds the byte emitted `d` positions before the output position. -/
def State.WindowHoldsHistory (s : State) : Prop :=
  s.errorKind ≠ some .bufferFull →
    s.emitted = s.outPos ∧
      ∀ d, 1 ≤ d → d ≤ s.emitted → d ≤ s.capacity →
        s.win.read ((s.cursor + s.capacity - d) % s.capacity) = s.out.read (s.emitted - d)

/-- R25: `status` goes with `phase`; an error kind is recorded exactly in `Error`. -/
def State.StatusAgrees (s : State) : Prop :=
  s.status = statusOf s.phase ∧ (s.errorKind.isSome = true ↔ s.phase = .error)

/-- The parameters are in their ranges (00_scope.md R5; 70_reset_and_hazards.md R232 (a)). -/
def State.ParamsInRange (s : State) : Prop := s.input.wf = true ∧ 8 ≤ s.params.wbits ∧ s.params.wbits ≤ 15

/-- A command whose input buffer the host has supplied whole (70_reset_and_hazards.md R232 (a)). -/
def Command.wf : Command → Prop
  | .start p => p.input.wf = true
  | .inflateZlib input _ _ => input.wf = true

/-- Every command of the inbox is one the host may give. -/
def State.InboxWellFormed (s : State) : Prop := ∀ c ∈ s.inbox, c.wf

/-- R20, R23: the code-length arrays and the scratch registers of `build` have their sizes and their entries fit. -/
def State.ArraysInRange (s : State) : Prop :=
  s.clLen.length = 19 ∧ (∀ v ∈ s.clLen, v ≤ 7) ∧ s.lens.length = 320 ∧ (∀ v ∈ s.lens, v ≤ 15) ∧
    s.blCount.length = 16 ∧ s.nextCode.length = 16

/-- R21: `hlit` is 257 to 288. -/
def State.HlitInRange (s : State) : Prop := 257 ≤ s.hlit ∧ s.hlit ≤ 288

/-- R21: `hdist` is 1 to 32. -/
def State.HdistInRange (s : State) : Prop := 1 ≤ s.hdist ∧ s.hdist ≤ 32

/-- R24: `length` is 3 to 258. -/
def State.LengthInRange (s : State) : Prop := 3 ≤ s.length ∧ s.length ≤ 258

/-- What holds at each place inside a block (10_state.md R17 to R24; 70_reset_and_hazards.md R239): the counts read so
far are in range, the loop counter is inside its loop, the trees in force are built, the length of a match is in
range. -/
def State.BlockInOrder (s : State) : Prop :=
  match s.phase with
  | .idle | .readHeader | .stored | .done | .finished | .error => True
  | .fixedHuffman => s.pos = .symbol ∨ (s.pos = .distance ∧ s.LengthInRange)
  | .dynamicHuffman =>
    match s.pos with
    | .hlit => True
    | .hdist => s.HlitInRange
    | .hclen => s.HlitInRange ∧ s.HdistInRange
    | .cllen => s.HlitInRange ∧ s.HdistInRange ∧ s.i < s.hclen ∧ s.hclen ≤ 19
    | .codeLength => s.HlitInRange ∧ s.HdistInRange ∧ s.i < s.total ∧ s.clTree.Over 19
    | .symbol => s.llTree.Over 288 ∧ s.dTree.Over 32
    | .distance => s.llTree.Over 288 ∧ s.dTree.Over 32 ∧ s.LengthInRange

/-- The run is in progress. -/
def State.Running (s : State) : Prop := s.status = .running

/-- The CORE's run has ended (70_reset_and_hazards.md R234). -/
def State.Ended (s : State) : Prop := s.status = .finished ∨ s.status = .error

/-- The invariant of the machine: everything above. -/
structure State.Inv (s : State) : Prop where
  params : s.ParamsInRange
  inbox : s.InboxWellFormed
  cursor : s.CursorInBounds
  sink : s.SinkInOrder
  window : s.WindowInBounds
  history : s.WindowHoldsHistory
  status : s.StatusAgrees
  arrays : s.ArraysInRange
  block : s.BlockInOrder

/-- The sink has room for `n` more bytes. -/
def Room (s : State) (n : Nat) : Prop := ∀ cap, s.params.outCap = some cap → s.outPos + n ≤ cap

/-- What `n` appends of the bytes `b 0`, `b 1`, ... leave in the sink and the window: the bytes stored to and every other
byte of the two memories (40_bit_reader.md R99; 42_sliding_window.md R126). The addresses are `out_pos + k` in `OUT` and
`(cursor + k) mod CAPACITY` in `WIN`, of the state before. -/
structure Appended (s t : State) (n : Nat) (b : Nat → Byte) : Prop where
  outPos : t.outPos = s.outPos + n
  emitted : t.emitted = s.emitted + n
  cursor : t.cursor = (s.cursor + n) % s.capacity
  outNew : ∀ k < n, t.out.read (s.outPos + k) = some (b k)
  outOld : ∀ a, (∀ k < n, a ≠ s.outPos + k) → t.out.read a = s.out.read a
  winNew : ∀ k < n, n ≤ k + s.capacity → t.win.read ((s.cursor + k) % s.capacity) = some (b k)
  winOld : ∀ a, (∀ k < n, a ≠ (s.cursor + k) % s.capacity) → t.win.read a = s.win.read a

/-- The byte `k` of a back-reference of distance `d`: the window byte `d` slots before the cursor, then the next, the last
`d` bytes repeating cyclically (42_sliding_window.md R127). -/
def copySource (s : State) (d k : Nat) : Byte := s.winByte ((s.cursor + s.capacity - d + k % d) % s.capacity)

end Sys2Proof.Machine
end

