-- ==== Sys2Proof/Certificates/Slice0/Obligations.lean ====
section
/-! DEFINITION. The statements for the provers. R<n> are the numbered rules of spec/; log <n> is notes/assumptions/<n>.md. -/

namespace Sys2Proof.Claims

open Sys2Proof.Machine

/-- The `n` stream bits from bit `p` on as a number, the first the least significant: `(S >> p) & ((1 << n) - 1)`, with
`S` the whole buffer as one little-endian number (40_bit_reader.md R94). -/
def field (m : Input) (p n : Nat) : Nat := bytesLe m 0 m.len / 2 ^ p % 2 ^ n

/-- The state with an error taken: the three writes of `raise` (60_exceptions.md R210). -/
def failed (s : State) (k : ErrorKind) : State := { s with errorKind := some k, phase := .error, status := .error }

/-- The instruction writes `length` and goes on to the distance symbol; it changes nothing else. -/
def SetsLength (i : Instr) (n : Nat) : Prop := ∀ s : State, exec i s = .next { s with length := n, pos := .distance }

/-- The instruction, where its distance `d` is one the window holds and the sink has room, copies `length` bytes from
`d` back and goes on to the next symbol; of the registers it changes only `distance` and the scratch of the copy. -/
def CopiesBack (i : Instr) (d : Nat) : Prop :=
  ∀ s : State, s.cursor < s.capacity → d ≤ s.emitted → d ≤ s.capacity → Room s s.length →
    ∃ t, exec i s = .next t ∧ Appended s t s.length (copySource s d) ∧
      t = { s with distance := d, pos := .symbol, src := t.src, remaining := t.remaining, out := t.out,
                   outPos := t.outPos, win := t.win, cursor := t.cursor, emitted := t.emitted }

/-- A run of `n` code lengths `v` from `lens[i]` on: those entries and the counter, nothing else. -/
def Filled (s t : State) (n v : Nat) : Prop :=
  (∀ j, t.lens[j]? = if s.i ≤ j ∧ j < s.i + n ∧ j < s.lens.length then some v else s.lens[j]?) ∧
    t = { s with lens := t.lens, i := s.i + n }

/-- What follows the last code length of a dynamic header: both trees are built from `lens`, split at `hlit`, and the
data begins; or one of the two builds fails (43_block_decoder.md R148). -/
def TreesBuilt (u t : State) : Prop :=
  let ll := build (u.lens.take u.hlit)
  let d := build ((u.lens.drop u.hlit).take u.hdist)
  if ll.ok = true ∧ d.ok = true then
    t = { u with llTree := ll.tree, dTree := d.tree, blCount := d.blCount, nextCode := d.nextCode, pos := .symbol }
  else
    t = failed { u with llTree := t.llTree, dTree := t.dTree, blCount := t.blCount, nextCode := t.nextCode }
      .malformedTree

/-- The instruction defines the next `n` code lengths as `v`: it goes on where `total` is not reached, and builds the
trees where it is. -/
def DefinesLengths (i : Instr) (n v : Nat) (s : State) : Prop :=
  (s.i + n < s.hlit + s.hdist → ∃ t, exec i s = .next t ∧ Filled s t n v) ∧
    (s.i + n = s.hlit + s.hdist → ∃ u t, exec i s = .next t ∧ Filled s u n v ∧ TreesBuilt u t)

/-- The code that `build` assigns to symbol `s`: the first code of its length plus the number of earlier symbols of that
length (41_huffman_tree.md R113). -/
def canonicalCode (lengths : List Nat) (s : Nat) : Nat :=
  (firstCodes (countLengths lengths)).getD (lengths.getD s 0) 0 + (lengths.take s).count (lengths.getD s 0)

/-- Every leaf stands at the depth its length says, 1 to 15 (10_state.md R19), `d` the depth of this node. -/
def LeavesAtDepth : Nat → Tree → Prop
  | _, .absent => True
  | d, .leaf _ _ len => len = d ∧ 1 ≤ len ∧ len ≤ 15
  | d, .node l r => LeavesAtDepth (d + 1) l ∧ LeavesAtDepth (d + 1) r

/-- The instructions that append to the window and the sink: LEN, the literals, DIST0 to DIST29 (42_sliding_window.md
R125). -/
def appends (i : Instr) : Bool :=
  match i.form with
  | .storedHeader _ _ => true
  | .coded .literalLength sym _ _ => sym < 256
  | .coded .distance sym _ _ => sym ≤ 29
  | .coded .codeLength _ _ _ => false
  | .blockHeader _ _ => false
  | .field _ _ _ => false

/-- A tree that `build` makes of lengths it accepts, for an alphabet of at most `n` symbols (41_huffman_tree.md R110,
R116). -/
def BuiltFor (n : Nat) (t : Tree) : Prop :=
  ∃ lengths : List Nat, lengths.length ≤ n ∧ (∀ len ∈ lengths, len ≤ 15) ∧ (build lengths).ok = true ∧
    t = (build lengths).tree

/-- Every place of the stream, a place coded by a tree with any tree the CORE can build for its alphabet: 19, 288 and 32
symbols (10_state.md R17, R19; 30_encoding.md R69). -/
def BuiltPlace : Ctx → Prop
  | .header | .stored | .hlit | .hdist | .hclen | .cllen | .distFixed => True
  | .codeLength t => BuiltFor 19 t
  | .symbol t => BuiltFor 288 t
  | .distTree t => BuiltFor 32 t

/-- The state with the trace switch set. -/
def withTrace (b : Bool) (s : State) : State := { s with params := { s.params with trace := b } }

/-- An outcome with the trace switch of its state set. -/
def outcomeWithTrace (b : Bool) : Host.Outcome State Fault Refusal → Host.Outcome State Fault Refusal
  | .next s => .next (withTrace b s)
  | .fault r => .fault r
  | .refused r => .refused r

end Sys2Proof.Claims

open Sys2Proof Sys2Proof.Machine Sys2Proof.Claims

/-! ### Encoding -/

/-- At every place of the stream, with whatever tree is in force there, the decoder reads back every well-formed
instruction from the bits the encoder writes for it, and stops right after them (30_encoding.md R60 to R68). -/
def Obligations.DecodeAfterEncode : Prop :=
  ∀ (m : Input) (ctx : Ctx) (c : Cursor) (i : Instr) (bs : List Bool), i.wf = true → encode ctx i = some bs →
    m.holds (ctx.start c) bs → decode m ctx c = .ok i ((ctx.start c).advance bs.length)

/-- At every place of a fixed or a dynamic block, whatever trees `build` accepted are in force, a decoded instruction is
well formed and has an encoding there, the stream holds exactly those bits, and the cursor stands right after them
(30_encoding.md R60 to R69, R71 to R74, R77). -/
def Obligations.EncodeAfterDecode : Prop :=
  ∀ (m : Input) (ctx : Ctx) (c d : Cursor) (i : Instr), BuiltPlace ctx → decode m ctx c = .ok i d →
    i.wf = true ∧ ∃ bs, encode ctx i = some bs ∧ m.holds (ctx.start c) bs ∧ d = (ctx.start c).advance bs.length

/-- Words written out from the encodings of the spec decode to the elements they stand for: the final dynamic header
`1 01` (R61, R62), LEN and NLEN of three bytes (R63), HLIT 0 (R64), literal `A` of a fixed block `01110001` (R71), EOB
`0000000`, length symbol 266 with extra bit 1 `0001010 1` (R73), distance symbol 4 with extra bit 0 `00100 0` (R74) and
the illegal distance symbol 30 `11110` (R77). The bytes hold the first stream bit in bit 0. -/
def Obligations.WordsDecode : Prop :=
  decode (Input.ofBytes [0x05]) .header ⟨0, 0⟩ = .ok (.dynamic true) ⟨0, 3⟩ ∧
  decode (Input.ofBytes [0x01, 0x03, 0x00, 0xFC, 0xFF]) .stored ⟨0, 3⟩ = .ok (.len 3 0xFFFC) ⟨5, 0⟩ ∧
  decode (Input.ofBytes [0x00]) .hlit ⟨0, 0⟩ = .ok (.hlit 0) ⟨0, 5⟩ ∧
  decode (Input.ofBytes [0x8E]) (.symbol fixedLlTree) ⟨0, 0⟩ = .ok (.lit0 0x41) ⟨1, 0⟩ ∧
  decode (Input.ofBytes [0x00]) (.symbol fixedLlTree) ⟨0, 0⟩ = .ok .eob ⟨0, 7⟩ ∧
  decode (Input.ofBytes [0xA8]) (.symbol fixedLlTree) ⟨0, 0⟩ = .ok (.len266 1) ⟨1, 0⟩ ∧
  decode (Input.ofBytes [0x04]) .distFixed ⟨0, 0⟩ = .ok (.dist4 0) ⟨0, 6⟩ ∧
  decode (Input.ofBytes [0x0F]) .distFixed ⟨0, 0⟩ = .ok (.dinv false) ⟨0, 5⟩

/-- The fixed literal/length code (30_encoding.md R71): the lengths; the constant tree is what `build` makes of them;
the code table; and the code is complete, so that a walk can only run out of input. The code table and the completeness
are marked derived in R71. -/
def Obligations.FixedLiteralLengthCode : Prop :=
  fixedLlLen.length = 288 ∧
  (∀ sym < 288, fixedLlLen.getD sym 0 =
    if sym ≤ 143 then 8 else if sym ≤ 255 then 9 else if sym ≤ 279 then 7 else 8) ∧
  (build fixedLlLen).ok = true ∧ (build fixedLlLen).tree = fixedLlTree ∧
  (∀ sym < 288, fixedLlTree.codeOf sym = some
    (if sym ≤ 143 then msbBits 8 (48 + sym) else if sym ≤ 255 then msbBits 9 (400 + (sym - 144))
     else if sym ≤ 279 then msbBits 7 (sym - 256) else msbBits 8 (192 + (sym - 280)))) ∧
  ∀ (m : Input) (c d : Cursor) (k : ErrorKind), fixedLlTree.walk m c = .raises k d → k = .streamExhausted

/-- The fixed distance code (30_encoding.md R72; 44_symbol_decode.md R165): `build` gives symbol `d` the 5-bit code `d`;
the raw 5-bit read agrees with a walk of that tree on symbols 0 to 29, and on 30 and 31 the decoder answers the illegal
distance symbol, with no extra bits read. The agreement is marked derived in R165. -/
def Obligations.FixedDistanceCode : Prop :=
  (build fixedDLen).ok = true ∧ (∀ d < 30, fixedDTree.codeOf d = some (msbBits 5 d)) ∧
  ∀ (m : Input) (c c' : Cursor) (v : Nat), readBitsMsb m 5 c = .ok v c' →
    v < 32 ∧ (v < 30 → fixedDTree.walk m c = .ok v c') ∧
    (v = 30 → decode m .distFixed c = .ok (.dinv false) c') ∧ (v = 31 → decode m .distFixed c = .ok (.dinv true) c')

/-- The constant tables (30_encoding.md R70, R73, R74): ORDER whole, and the laws and ends of the two base and extra-bit
tables. The middles of LBASE and DBASE are general knowledge in R73 and derived in R74. -/
def Obligations.ConstantTables : Prop :=
  orderTable = [16, 17, 18, 0, 8, 7, 9, 6, 10, 5, 11, 4, 12, 3, 13, 2, 14, 1, 15] ∧
  lbaseTable.length = 29 ∧ lextraTable.length = 29 ∧ lbase 257 = 3 ∧ lbase 285 = 258 ∧ lextra 285 = 0 ∧
  (∀ k < 27, lbase (257 + k + 1) = lbase (257 + k) + 2 ^ lextra (257 + k)) ∧
  dbaseTable.length = 30 ∧ dextraTable.length = 30 ∧ dbase 0 = 1 ∧ dbase 29 = 24577 ∧
  (∀ d < 29, dbase (d + 1) = dbase d + 2 ^ dextra d) ∧ ∀ d < 30, dextra d = d / 2 - 1

/-! ### The BitReader, the sink and the window -/

/-- `read_bit_lsb` and `read_bit_msb` (40_bit_reader.md R92, R93): which bit of the byte, the advance, and the test before
anything is read. -/
def Obligations.ReadBitOrder : Prop :=
  ∀ (m : Input) (c : Cursor),
    (c.byte < m.len → readBitLsb m c = .ok ((m.byte c.byte).getLsbD c.bit.val) (Cursor.ofIndex (c.index + 1)) ∧
      readBitMsb m c = .ok ((m.byte c.byte).getLsbD (7 - c.bit.val)) (Cursor.ofIndex (c.index + 1))) ∧
    (m.len ≤ c.byte → readBitLsb m c = .raises .streamExhausted c ∧ readBitMsb m c = .raises .streamExhausted c)

/-- `read_bits_lsb(n)` in closed form, and two reads in a row as one (40_bit_reader.md R94, R100 (b), (c), marked derived
there): with `n` bits left it is the field of the whole buffer seen as one little-endian number, and the cursor moves `n`
bits; with fewer it raises, the cursor at the end of the buffer; a read of `a` bits and then of `b` bits is a read of
`a + b`. -/
def Obligations.ReadBitsClosedForm : Prop :=
  ∀ (m : Input) (n : Nat) (c : Cursor),
    (c.index + n ≤ 8 * m.len → readBitsLsb m n c = .ok (field m c.index n) (Cursor.ofIndex (c.index + n))) ∧
    (c.index ≤ 8 * m.len → 8 * m.len < c.index + n → readBitsLsb m n c = .raises .streamExhausted ⟨m.len, 0⟩) ∧
    ∀ (b : Nat) (d e : Cursor) (lo hi : Nat), readBitsLsb m n c = .ok lo d → readBitsLsb m b d = .ok hi e →
      readBitsLsb m (n + b) c = .ok (lo ||| hi <<< n) e

/-- The law of `read_bits_msb` and `read_huffman_code` (40_bit_reader.md R95, R96, marked derived there): the first is the
bit reversal of `read_bits_lsb`, the second is `read_bits_lsb`, cursor and errors alike; `rev_n` is the `n`-bit
reversal. -/
def Obligations.ReadBitsMsbReverses : Prop :=
  (∀ (m : Input) (n : Nat) (c : Cursor),
    (∀ v d, readBitsLsb m n c = .ok v d → readBitsMsb m n c = .ok (revBits n v) d) ∧
    (∀ k d, readBitsLsb m n c = .raises k d → readBitsMsb m n c = .raises k d) ∧
    readHuffmanCode m n c = readBitsLsb m n c) ∧
  ∀ n v, revBits n v < 2 ^ n ∧ ∀ i < n, (revBits n v).testBit i = v.testBit (n - 1 - i)

/-- `read_bytes(count)` on an aligned cursor (40_bit_reader.md R97, R76): the bytes little-endian, the same value and cursor
as `read_bits_lsb(8*count)`, and with too few bytes an error that leaves the cursor where it was. The agreement with
`read_bits_lsb` is marked derived in R97. -/
def Obligations.ReadBytesLittleEndian : Prop :=
  ∀ (m : Input) (a count : Nat),
    (a + count ≤ m.len → ∃ v, readBytes m count ⟨a, 0⟩ = .ok v ⟨a + count, 0⟩ ∧
      readBitsLsb m (8 * count) ⟨a, 0⟩ = .ok v ⟨a + count, 0⟩ ∧
      (∀ k < count, v / 256 ^ k % 256 = (m.byte (a + k)).toNat) ∧ v < 256 ^ count) ∧
    (m.len < a + count → readBytes m count ⟨a, 0⟩ = .raises .streamExhausted ⟨a, 0⟩)

/-- `skip_to_next_byte` (40_bit_reader.md R98): the bit position becomes 0 and the byte position moves up by one exactly
when the bit position was not 0; on an aligned cursor nothing happens; nothing else changes, and nothing is read; twice is
the same as once; a cursor in bounds (10_state.md R13) stays in bounds. -/
def Obligations.SkipToNextByte : Prop :=
  ∀ s : State, (s.pc.bit = 0 → skipToNextByte s = s) ∧
    (s.pc.bit ≠ 0 → skipToNextByte s = { s with pc := ⟨s.pc.byte + 1, 0⟩ }) ∧
    skipToNextByte (skipToNextByte s) = skipToNextByte s ∧ (s.CursorInBounds → (skipToNextByte s).CursorInBounds)

/-- `put_byte` (40_bit_reader.md R99): `BufferFull` with nothing written when `out_pos >= OUT_CAP`, never with an infinite
sink; else the byte at `out_pos` and the advance. Every other byte of the sink stays. -/
def Obligations.PutByte : Prop :=
  ∀ (b : Byte) (s : State),
    (Room s 1 → ∃ t, putByte b s = .ok () t ∧ t = { s with out := t.out, outPos := s.outPos + 1 } ∧
      t.out.read s.outPos = some b ∧ ∀ a, a ≠ s.outPos → t.out.read a = s.out.read a) ∧
    (∀ cap, s.params.outCap = some cap → cap ≤ s.outPos → s.status ≠ .error →
      putByte b s = .raised (failed s .bufferFull))

/-- What every read of the BitReader does to the machine (40_bit_reader.md R100 (a), (d), marked derived there): with the
bits left it moves the cursor by exactly the bits it is defined to consume and changes nothing else; with too few it
raises `StreamExhausted`, the cursor at the end of the buffer (for `read_bytes`: where it was). -/
def Obligations.ReadsMoveOnlyTheCursor : Prop :=
  ∀ (s : State) (n : Nat), s.CursorInBounds → s.status ≠ .error →
    (s.pc.index + 1 ≤ 8 * s.input.len →
      (∃ v, callReadBitLsb s = .ok v { s with pc := s.pc.advance 1 }) ∧
      (∃ v, callReadBitMsb s = .ok v { s with pc := s.pc.advance 1 })) ∧
    (8 * s.input.len < s.pc.index + 1 →
      callReadBitLsb s = .raised (failed s .streamExhausted) ∧ callReadBitMsb s = .raised (failed s .streamExhausted)) ∧
    (n ≤ 16 → s.pc.index + n ≤ 8 * s.input.len →
      (∃ v < 2 ^ n, callReadBitsLsb n s = .ok v { s with pc := s.pc.advance n }) ∧
      (∃ v < 2 ^ n, callReadBitsMsb n s = .ok v { s with pc := s.pc.advance n })) ∧
    (n ≤ 16 → 8 * s.input.len < s.pc.index + n →
      callReadBitsLsb n s = .raised (failed { s with pc := ⟨s.input.len, 0⟩ } .streamExhausted) ∧
      callReadBitsMsb n s = .raised (failed { s with pc := ⟨s.input.len, 0⟩ } .streamExhausted)) ∧
    (1 ≤ n → n ≤ 15 → callReadHuffmanCode n s = callReadBitsLsb n s) ∧
    (1 ≤ n → n ≤ 4 → s.pc.bit = 0 →
      (s.pc.byte + n ≤ s.input.len →
        ∃ v < 256 ^ n, callReadBytes n s = .ok v { s with pc := ⟨s.pc.byte + n, 0⟩ }) ∧
      (s.input.len < s.pc.byte + n → callReadBytes n s = .raised (failed s .streamExhausted)))

/-! ### The Huffman trees -/

/-- Steps 1 and 2 of `build` (41_huffman_tree.md R111, R112), on its scratch registers: the counts, `bl_count[0] = 0`, and
the first code of every length. -/
def Obligations.BuildCounts : Prop :=
  ∀ lengths : List Nat, (∀ len ∈ lengths, len ≤ 15) →
    (build lengths).blCount = countLengths lengths ∧
    (countLengths lengths).getD 0 0 = 0 ∧ (∀ len, 1 ≤ len → (countLengths lengths).getD len 0 = lengths.count len) ∧
    (firstCodes (countLengths lengths)).getD 1 0 = 0 ∧
    ∀ len, 1 ≤ len → len < 15 → (firstCodes (countLengths lengths)).getD (len + 1) 0 =
      ((firstCodes (countLengths lengths)).getD len 0 + lengths.count len) * 2

/-- The over-subscription check is exact (41_huffman_tree.md R114, marked derived there): `build` raises `MalformedTree`
if and only if the sum of `2^(-len)` over the symbols with a code exceeds 1. -/
def Obligations.BuildRejectsExactlyOversubscribed : Prop :=
  ∀ lengths : List Nat, (∀ len ∈ lengths, len ≤ 15) →
    ((build lengths).ok = false ↔ 2 ^ 15 < (lengths.map fun len => if len = 0 then 0 else 2 ^ (15 - len)).sum)

/-- The canonical code (41_huffman_tree.md R113) and its round trip (R118 (a), marked derived there): in a tree that
`build` accepts, every symbol with a length has the code that R113 assigns, and a stream that holds this code, most
significant bit first, decodes to the symbol and moves the cursor by its length. -/
def Obligations.CanonicalCodesDecode : Prop :=
  ∀ lengths : List Nat, (∀ len ∈ lengths, len ≤ 15) → (build lengths).ok = true →
    ∀ sym < lengths.length, lengths.getD sym 0 ≠ 0 →
      canonicalCode lengths sym < 2 ^ lengths.getD sym 0 ∧
      (build lengths).tree.codeOf sym = some (msbBits (lengths.getD sym 0) (canonicalCode lengths sym)) ∧
      ∀ (m : Input) (c : Cursor), m.holds c (msbBits (lengths.getD sym 0) (canonicalCode lengths sym)) →
        (build lengths).tree.walk m c = .ok sym (c.advance (lengths.getD sym 0))

/-- The invariants of a built tree (10_state.md R19; the node bound is marked derived there): one leaf for each symbol
with a length, each at its depth 1 to 15, exactly those symbols coded, no code a prefix of another's, at most
`1 + 15 * n` nodes; and the node counts of the two constant trees. -/
def Obligations.BuiltTreeShape : Prop :=
  (∀ lengths : List Nat, (∀ len ∈ lengths, len ≤ 15) → (build lengths).ok = true →
    (build lengths).tree.leaves = lengths.countP (· ≠ 0) ∧ LeavesAtDepth 0 (build lengths).tree ∧
    (∀ sym, ((build lengths).tree.codeOf sym).isSome = true ↔ lengths.getD sym 0 ≠ 0) ∧
    (∀ a b p q, (build lengths).tree.codeOf a = some p → (build lengths).tree.codeOf b = some q → p <+: q → a = b) ∧
    (build lengths).tree.nodes ≤ 1 + 15 * lengths.length) ∧
  fixedLlTree.nodes = 575 ∧ fixedLlTree.leaves = 288 ∧ fixedDTree.nodes = 60 ∧ fixedDTree.leaves = 30

/-- What `build` accepts without codes, and what a walk of it does (41_huffman_tree.md R116, R117): all-zero lengths give
the bare root; on it the first bit, whatever it is, raises `MalformedTree` and has been consumed; at the end of the
input `StreamExhausted` is raised instead. -/
def Obligations.EmptyTreeWalk : Prop :=
  ∀ n : Nat, (build (List.replicate n 0)).ok = true ∧ (build (List.replicate n 0)).tree = .bareRoot ∧
    ∀ (m : Input) (c : Cursor),
      (c.index < 8 * m.len → (build (List.replicate n 0)).tree.walk m c = .raises .malformedTree (c.advance 1)) ∧
      (8 * m.len ≤ c.index → (build (List.replicate n 0)).tree.walk m c = .raises .streamExhausted c)

/-! ### Blocks -/

/-- STORED, FIXED, DYNAMIC, RESERVED (43_block_decoder.md R137; 60_exceptions.md R203): the header's two fields are
latched; BTYPE 0, 1, 2 select the phase; BTYPE 3 raises `InvalidBlockType`. Nothing else changes but the model's own place
`pos` (log 5). -/
def Obligations.BlockHeaders : Prop :=
  ∀ (f : Bool) (s : State),
    exec (.stored f) s = .next { s with bfinal := f, btype := 0, phase := .stored } ∧
    exec (.fixed f) s = .next { s with bfinal := f, btype := 1, phase := .fixedHuffman, pos := .symbol } ∧
    exec (.dynamic f) s = .next { s with bfinal := f, btype := 2, phase := .dynamicHuffman, pos := .hlit } ∧
    (s.status ≠ .error → exec (.reserved f) s = .next (failed { s with bfinal := f, btype := 3 } .invalidBlockType))

/-- The block header on the stream (43_block_decoder.md R137; 30_encoding.md R61, R62; 60_exceptions.md R203): at any bit
position BFINAL is the first of the next three bits and BTYPE the two after it, LSB-first; `bfinal` and `btype` take them,
BTYPE 0, 1, 2 select the phase, and BTYPE 3 raises `InvalidBlockType` with the three bits consumed and nothing else read.
No other register changes but the model's own place `pos` (log 5), which is not said. -/
def Obligations.HeaderStep : Prop :=
  ∀ s : State, s.phase = .readHeader → s.status = .running → s.pc.index + 3 ≤ 8 * s.input.len →
    let f := s.input.streamBit s.pc.index
    let lo := s.input.streamBit (s.pc.index + 1)
    let hi := s.input.streamBit (s.pc.index + 2)
    let s' := { s with pc := s.pc.advance 3, bfinal := f }
    (lo = false → hi = false → ∃ q, step s = .next { s' with btype := 0, phase := .stored, pos := q }) ∧
    (lo = true → hi = false → ∃ q, step s = .next { s' with btype := 1, phase := .fixedHuffman, pos := q }) ∧
    (lo = false → hi = true → ∃ q, step s = .next { s' with btype := 2, phase := .dynamicHuffman, pos := q }) ∧
    (lo = true → hi = true → step s = .next (failed { s' with btype := 3 } .invalidBlockType))

/-- A block header cut short (43_block_decoder.md R136; 60_exceptions.md R201): with fewer than three bits left
`StreamExhausted` is raised at the end of the buffer. That BFINAL is then latched when its bit was there is the model's
choice among what R136 allows (log 11). -/
def Obligations.HeaderCutShort : Prop :=
  ∀ s : State, s.phase = .readHeader → s.status = .running → s.pc.index ≤ 8 * s.input.len →
    8 * s.input.len < s.pc.index + 3 →
    step s = .next (failed { s with
      pc := ⟨s.input.len, 0⟩
      bfinal := if s.pc.index < 8 * s.input.len then s.input.streamBit s.pc.index else s.bfinal } .streamExhausted)

/-- LEN (43_block_decoder.md R138): with NLEN the complement of LEN, the cursor aligned, LEN bytes left and room for them,
exactly those bytes are appended in order, the cursor stands after them and the block is `Done`. LEN = 0 included. -/
def Obligations.StoredBlockCopies : Prop :=
  ∀ (len nlen : Half) (s : State), nlen = ~~~len → s.pc.bit = 0 → s.cursor < s.capacity →
    s.pc.byte + len.toNat ≤ s.input.len → Room s len.toNat →
    ∃ t, exec (.len len nlen) s = .next t ∧ Appended s t len.toNat (fun k => s.input.byte (s.pc.byte + k)) ∧
      t = { s with pc := ⟨s.pc.byte + len.toNat, 0⟩, phase := .done, remaining := t.remaining, out := t.out,
                   outPos := t.outPos, win := t.win, cursor := t.cursor, emitted := t.emitted }

/-- The errors of LEN in their order (43_block_decoder.md R138; 60_exceptions.md R204, R213): `LengthMismatch` unless NLEN
is the complement of LEN, with no byte emitted; then, when the data is cut short, the bytes before the cut are emitted
and `StreamExhausted` is raised at the end of the buffer, also where the sink is exhausted at the same byte; when the
sink fills first, `BufferFull`. -/
def Obligations.StoredBlockErrors : Prop :=
  ∀ (len nlen : Half) (s : State), s.status ≠ .error →
    (nlen ≠ ~~~len → exec (.len len nlen) s = .next (failed s .lengthMismatch)) ∧
    (nlen = ~~~len → s.pc.bit = 0 → s.cursor < s.capacity → s.pc.byte ≤ s.input.len →
      s.input.len < s.pc.byte + len.toNat → Room s (s.input.len - s.pc.byte) →
      ∃ t, exec (.len len nlen) s = .next t ∧
        Appended s t (s.input.len - s.pc.byte) (fun k => s.input.byte (s.pc.byte + k)) ∧
        t.status = .error ∧ t.errorKind = some .streamExhausted ∧ t.pc = ⟨s.input.len, 0⟩) ∧
    (nlen = ~~~len → s.pc.bit = 0 → s.cursor < s.capacity → ∀ cap, s.params.outCap = some cap → s.outPos ≤ cap →
      cap < s.outPos + len.toNat → s.pc.byte + (cap - s.outPos) < s.input.len →
      ∃ t, exec (.len len nlen) s = .next t ∧ t.status = .error ∧ t.errorKind = some .bufferFull ∧ t.outPos = cap ∧
        (∀ k < cap - s.outPos, t.out.read (s.outPos + k) = some (s.input.byte (s.pc.byte + k))) ∧
        t.emitted = s.emitted + (cap - s.outPos) + 1 ∧ t.pc = ⟨s.pc.byte + (cap - s.outPos) + 1, 0⟩)

/-- `read_bytes` with `bit_position != 0` has no meaning and is refused (20_memory.md R48), whatever the count; so is, for
the same reason, a stored block executed at an unaligned cursor that has data to copy. The name of the refusal is the model's
(log 15). No stream leads there: see RunningStepAnswersNext. -/
def Obligations.UnalignedReadBytesRefused : Prop :=
  ∀ s : State, s.pc.bit ≠ 0 → (∀ n, callReadBytes n s = .refused .unalignedReadBytes) ∧
    ∀ len : Half, len ≠ 0 → exec (.len len (~~~len)) s = .refused .unalignedReadBytes

/-- HLIT, HDIST, HCLEN (30_encoding.md R64): each count is its raw field plus its constant; HCLEN also opens the list of
code-length-code lengths, all zero (43_block_decoder.md R141). No other register of the spec changes; the model's own place
`pos` and loop counter `i` do (log 5). -/
def Obligations.DynamicCounts : Prop :=
  ∀ s : State,
    (∀ a : BitVec 5, exec (.hlit a) s = .next { s with hlit := a.toNat + 257, pos := .hdist }) ∧
    (∀ b : BitVec 5, exec (.hdist b) s = .next { s with hdist := b.toNat + 1, pos := .hclen }) ∧
    ∀ c : BitVec 4, exec (.hclen c) s =
      .next { s with hclen := c.toNat + 4, clLen := List.replicate 19 0, i := 0, pos := .cllen }

/-- The counts of a dynamic header from the stream (43_block_decoder.md R140): the next 14 bits are HLIT, HDIST and HCLEN,
5, 5 and 4 bits LSB-first, in that order, and the counts are the fields plus 257, 1 and 4. That these are three steps, and
the place `pos` and the counter `i`, are the model's choice (log 5). -/
def Obligations.DynamicCountsFromStream : Prop :=
  ∀ s : State, s.phase = .dynamicHuffman → s.pos = .hlit → s.pc.index + 14 ≤ 8 * s.input.len →
    Sys2Proof.core.run 3 s = .next { s with
      pc := s.pc.advance 14
      hlit := field s.input s.pc.index 5 + 257
      hdist := field s.input (s.pc.index + 5) 5 + 1
      hclen := field s.input (s.pc.index + 10) 4 + 4
      clLen := List.replicate 19 0
      i := 0
      pos := .cllen }

/-- CLLEN (43_block_decoder.md R141, R142): the length of symbol `ORDER[i]` is set; after the last field `CL_TREE` is built
and the code-length loop begins, or `MalformedTree` is raised. The place `pos` and the counter `i` are the model's own
(log 5); the tree and the scratch a failing build leaves are not said (log 8). -/
def Obligations.CodeLengthCodeLength : Prop :=
  ∀ (v : BitVec 3) (s : State),
    let s₁ := { s with clLen := s.clLen.set (orderTable.getD s.i 0) v.toNat, i := s.i + 1 }
    let b := build s₁.clLen
    (s.i + 1 < s.hclen → exec (.cllen v) s = .next s₁) ∧
    (s.hclen ≤ s.i + 1 → b.ok = true → exec (.cllen v) s = .next { s₁ with
      clTree := b.tree, blCount := b.blCount, nextCode := b.nextCode, pos := .codeLength, i := 0 }) ∧
    (s.hclen ≤ s.i + 1 → b.ok = false → s.status ≠ .error → ∃ t, exec (.cllen v) s = .next t ∧
      t = failed { s₁ with clTree := t.clTree, blCount := t.blCount, nextCode := t.nextCode } .malformedTree)

/-- The whole list of code-length-code lengths (30_encoding.md R65; 43_block_decoder.md R141, R142): the `i`-th 3-bit field
is the length of symbol `ORDER[i]`, and symbols without a field get length 0. Then `CL_TREE` is the tree of these lengths,
or `MalformedTree` is raised; the tree a failing build leaves is not said (log 8). That the list takes `hclen` steps, and
where it begins (`pos`, `i`), are the model's choice (log 5). -/
def Obligations.CodeLengthTable : Prop :=
  ∀ s : State, s.phase = .dynamicHuffman → s.pos = .cllen → s.status = .running → s.i = 0 →
    s.clLen = List.replicate 19 0 → 1 ≤ s.hclen → s.hclen ≤ 19 → s.pc.index + 3 * s.hclen ≤ 8 * s.input.len →
    ∃ t : State, Sys2Proof.core.run s.hclen s = .next t ∧ t.pc = s.pc.advance (3 * s.hclen) ∧ t.clLen.length = 19 ∧
      (∀ j < 19, t.clLen.getD (orderTable.getD j 0) 0 =
        if j < s.hclen then field s.input (s.pc.index + 3 * j) 3 else 0) ∧
      ((build t.clLen).ok = true → t.clTree = (build t.clLen).tree ∧ t.status = .running ∧ t.phase = .dynamicHuffman ∧
        t.errorKind = s.errorKind) ∧
      ((build t.clLen).ok = false → t.status = .error ∧ t.errorKind = some .malformedTree)

/-- CL, CL_REP, CL_ZERO3, CL_ZERO7 (43_block_decoder.md R144 to R148; 30_encoding.md R66): a run of 1, 3 to 6, 3 to 10 or
11 to 138 code lengths that stays inside `hlit + hdist` is written from `lens[i]` on; at `hlit + hdist` both trees are
built, from the lengths split at `hlit`. The counter `i` and the place `pos` are the model's own (log 5); the trees and the
scratch a failing build leaves are not said (log 8). -/
def Obligations.CodeLengthSymbols : Prop :=
  ∀ s : State, s.status ≠ .error →
    (∀ n : BitVec 4, DefinesLengths (.cl n) 1 n.toNat s) ∧
    (∀ x : BitVec 2, s.i ≠ 0 → DefinesLengths (.clRep x) (3 + x.toNat) (s.lens.getD (s.i - 1) 0) s) ∧
    (∀ x : BitVec 3, DefinesLengths (.clZero3 x) (3 + x.toNat) 0 s) ∧
    ∀ x : BitVec 7, DefinesLengths (.clZero7 x) (11 + x.toNat) 0 s

/-- The code-length runs that have no meaning raise `MalformedTree` and write nothing (43_block_decoder.md R145 to R147;
60_exceptions.md R207): a repeat with no previous length, and a run past `hlit + hdist`. -/
def Obligations.CodeLengthRunsMalformed : Prop :=
  ∀ s : State, s.status ≠ .error →
    (∀ x : BitVec 2, s.i = 0 ∨ s.hlit + s.hdist < s.i + (3 + x.toNat) →
      exec (.clRep x) s = .next (failed s .malformedTree)) ∧
    (∀ x : BitVec 3, s.hlit + s.hdist < s.i + (3 + x.toNat) → exec (.clZero3 x) s = .next (failed s .malformedTree)) ∧
    ∀ x : BitVec 7, s.hlit + s.hdist < s.i + (11 + x.toNat) → exec (.clZero7 x) s = .next (failed s .malformedTree)

/-- EOB (44_symbol_decode.md R162): the block is complete and the machine goes to `Done`; nothing is appended, the cursor is
not aligned, no other register changes. -/
def Obligations.EndOfBlock : Prop := ∀ s : State, exec .eob s = .next { s with phase := .done }

/-- The turn of the engine after a block (43_block_decoder.md R150; 45_inflate_engine.md R180, R181): from `Done` a step
leads to `Finished` if the BFINAL bit of the block was 1 and to the next header if it was 0, at the cursor where the block
ended, and changes nothing else. That a wrapped run then stands before its trailer is the model's field `frame`
(log 13). -/
def Obligations.EngineTurn : Prop :=
  ∀ s : State, s.phase = .done →
    (s.bfinal = false → step s = .next { s with phase := .readHeader }) ∧
    (s.bfinal = true → s.frame = .raw → step s = .next { s with phase := .finished, status := .finished }) ∧
    (s.bfinal = true → s.frame = .body →
      step s = .next { s with phase := .finished, status := .finished, frame := .trailer })

/-! ### Symbols -/

/-- LIT, both rows (44_symbol_decode.md R161; 42_sliding_window.md R126): with room in the sink, the symbol is the byte
that is appended to the window and the sink; no other register changes. -/
def Obligations.LiteralAppends : Prop :=
  ∀ (b : Byte) (s : State), s.cursor < s.capacity → Room s 1 →
    ∃ t, exec (.lit0 b) s = .next t ∧ exec (.lit144 b) s = .next t ∧ Appended s t 1 (fun _ => b) ∧
      t = { s with out := t.out, outPos := t.outPos, win := t.win, cursor := t.cursor, emitted := t.emitted }

/-- LLINV and DINV (44_symbol_decode.md R168, R169; 60_exceptions.md R205): symbols 286, 287 and distance symbols 30, 31
raise `InvalidSymbol`; nothing is emitted and nothing else changes. -/
def Obligations.IllegalSymbolsRaise : Prop :=
  ∀ (v : Bool) (s : State), s.status ≠ .error →
    exec (.llinv v) s = .next (failed s .invalidSymbol) ∧ exec (.dinv v) s = .next (failed s .invalidSymbol)

/-- LEN257 to LEN285 (44_symbol_decode.md R163; 30_encoding.md R73): the match length, base plus extra bits, row by row.
The table's middle is general knowledge in R73 (log 14). No other register changes but the model's own place `pos`
(log 5). -/
def Obligations.MatchLengths : Prop :=
  SetsLength .len257 3 ∧
  SetsLength .len258 4 ∧
  SetsLength .len259 5 ∧
  SetsLength .len260 6 ∧
  SetsLength .len261 7 ∧
  SetsLength .len262 8 ∧
  SetsLength .len263 9 ∧
  SetsLength .len264 10 ∧
  (∀ x : BitVec 1, SetsLength (.len265 x) (11 + x.toNat)) ∧
  (∀ x : BitVec 1, SetsLength (.len266 x) (13 + x.toNat)) ∧
  (∀ x : BitVec 1, SetsLength (.len267 x) (15 + x.toNat)) ∧
  (∀ x : BitVec 1, SetsLength (.len268 x) (17 + x.toNat)) ∧
  (∀ x : BitVec 2, SetsLength (.len269 x) (19 + x.toNat)) ∧
  (∀ x : BitVec 2, SetsLength (.len270 x) (23 + x.toNat)) ∧
  (∀ x : BitVec 2, SetsLength (.len271 x) (27 + x.toNat)) ∧
  (∀ x : BitVec 2, SetsLength (.len272 x) (31 + x.toNat)) ∧
  (∀ x : BitVec 3, SetsLength (.len273 x) (35 + x.toNat)) ∧
  (∀ x : BitVec 3, SetsLength (.len274 x) (43 + x.toNat)) ∧
  (∀ x : BitVec 3, SetsLength (.len275 x) (51 + x.toNat)) ∧
  (∀ x : BitVec 3, SetsLength (.len276 x) (59 + x.toNat)) ∧
  (∀ x : BitVec 4, SetsLength (.len277 x) (67 + x.toNat)) ∧
  (∀ x : BitVec 4, SetsLength (.len278 x) (83 + x.toNat)) ∧
  (∀ x : BitVec 4, SetsLength (.len279 x) (99 + x.toNat)) ∧
  (∀ x : BitVec 4, SetsLength (.len280 x) (115 + x.toNat)) ∧
  (∀ x : BitVec 5, SetsLength (.len281 x) (131 + x.toNat)) ∧
  (∀ x : BitVec 5, SetsLength (.len282 x) (163 + x.toNat)) ∧
  (∀ x : BitVec 5, SetsLength (.len283 x) (195 + x.toNat)) ∧
  (∀ x : BitVec 5, SetsLength (.len284 x) (227 + x.toNat)) ∧
  SetsLength .len285 258

/-- DIST0 to DIST29 (44_symbol_decode.md R166, R167; 42_sliding_window.md R127; 30_encoding.md R74): the match distance,
base plus extra bits, row by row, and the copy of `length` bytes from that far back, byte by byte. The table's middle is
derived in R74. The place `pos` is the model's own (log 5); `src` and `remaining` after the copy are not said (log 9,
log 10). -/
def Obligations.MatchDistancesCopy : Prop :=
  CopiesBack .dist0 1 ∧
  CopiesBack .dist1 2 ∧
  CopiesBack .dist2 3 ∧
  CopiesBack .dist3 4 ∧
  (∀ y : BitVec 1, CopiesBack (.dist4 y) (5 + y.toNat)) ∧
  (∀ y : BitVec 1, CopiesBack (.dist5 y) (7 + y.toNat)) ∧
  (∀ y : BitVec 2, CopiesBack (.dist6 y) (9 + y.toNat)) ∧
  (∀ y : BitVec 2, CopiesBack (.dist7 y) (13 + y.toNat)) ∧
  (∀ y : BitVec 3, CopiesBack (.dist8 y) (17 + y.toNat)) ∧
  (∀ y : BitVec 3, CopiesBack (.dist9 y) (25 + y.toNat)) ∧
  (∀ y : BitVec 4, CopiesBack (.dist10 y) (33 + y.toNat)) ∧
  (∀ y : BitVec 4, CopiesBack (.dist11 y) (49 + y.toNat)) ∧
  (∀ y : BitVec 5, CopiesBack (.dist12 y) (65 + y.toNat)) ∧
  (∀ y : BitVec 5, CopiesBack (.dist13 y) (97 + y.toNat)) ∧
  (∀ y : BitVec 6, CopiesBack (.dist14 y) (129 + y.toNat)) ∧
  (∀ y : BitVec 6, CopiesBack (.dist15 y) (193 + y.toNat)) ∧
  (∀ y : BitVec 7, CopiesBack (.dist16 y) (257 + y.toNat)) ∧
  (∀ y : BitVec 7, CopiesBack (.dist17 y) (385 + y.toNat)) ∧
  (∀ y : BitVec 8, CopiesBack (.dist18 y) (513 + y.toNat)) ∧
  (∀ y : BitVec 8, CopiesBack (.dist19 y) (769 + y.toNat)) ∧
  (∀ y : BitVec 9, CopiesBack (.dist20 y) (1025 + y.toNat)) ∧
  (∀ y : BitVec 9, CopiesBack (.dist21 y) (1537 + y.toNat)) ∧
  (∀ y : BitVec 10, CopiesBack (.dist22 y) (2049 + y.toNat)) ∧
  (∀ y : BitVec 10, CopiesBack (.dist23 y) (3073 + y.toNat)) ∧
  (∀ y : BitVec 11, CopiesBack (.dist24 y) (4097 + y.toNat)) ∧
  (∀ y : BitVec 11, CopiesBack (.dist25 y) (6145 + y.toNat)) ∧
  (∀ y : BitVec 12, CopiesBack (.dist26 y) (8193 + y.toNat)) ∧
  (∀ y : BitVec 12, CopiesBack (.dist27 y) (12289 + y.toNat)) ∧
  (∀ y : BitVec 13, CopiesBack (.dist28 y) (16385 + y.toNat)) ∧
  (∀ y : BitVec 13, CopiesBack (.dist29 y) (24577 + y.toNat))

/-- `InvalidDistance` (42_sliding_window.md R127, R128; 60_exceptions.md R206): `copy_back` of any length raises it for a
distance of 0, above `emitted` or above `CAPACITY`, with nothing changed; a distance row whose distance exceeds the bytes
emitted or the window raises it before any byte is copied, also where the sink is full; only `distance` has been
written. -/
def Obligations.InvalidDistanceStops : Prop :=
  (∀ (length d : Nat) (s : State), s.status ≠ .error → (d = 0 ∨ s.emitted < d ∨ s.capacity < d) →
    copyBack length d s = .raised (failed s .invalidDistance)) ∧
  ∀ (i : Instr) (d w y : Nat) (s : State), i.form = .coded .distance d w y → d ≤ 29 → s.status ≠ .error →
    (s.emitted < dbase d + y ∨ s.capacity < dbase d + y) →
    exec i s = .next (failed { s with distance := dbase d + y } .invalidDistance)

/-- `BufferFull` (60_exceptions.md R202; 42_sliding_window.md R126): a literal with a full sink raises it, the window having
taken the byte; a copy that does not fit fills the sink exactly, then raises it. Every byte of `OUT` before `OUT_CAP`
that was not copied stays. -/
def Obligations.SinkFullStops : Prop :=
  ∀ (s : State) (cap : Nat), s.status ≠ .error → s.params.outCap = some cap →
    (cap ≤ s.outPos → ∀ b : Byte, ∃ t, exec (.lit0 b) s = .next t ∧ exec (.lit144 b) s = .next t ∧
      t = failed { s with win := t.win, cursor := (s.cursor + 1) % s.capacity, emitted := s.emitted + 1 } .bufferFull ∧
      t.win.read s.cursor = some b ∧ ∀ a, a ≠ s.cursor → t.win.read a = s.win.read a) ∧
    ∀ (i : Instr) (d w y : Nat), i.form = .coded .distance d w y → d ≤ 29 → s.cursor < s.capacity →
      dbase d + y ≤ s.emitted → dbase d + y ≤ s.capacity → s.outPos ≤ cap → cap < s.outPos + s.length →
      ∃ t, exec i s = .next t ∧ t.status = .error ∧ t.errorKind = some .bufferFull ∧ t.outPos = cap ∧
        t.emitted = s.emitted + (cap - s.outPos) + 1 ∧
        (∀ k < cap - s.outPos, t.out.read (s.outPos + k) = some (copySource s (dbase d + y) k)) ∧
        ∀ a, a < s.outPos ∨ cap ≤ a → t.out.read a = s.out.read a

/-- The law of a back-reference (42_sliding_window.md R129): for every distance within the bytes emitted and the window,
and any length, `copy_back` appends `length` bytes, and each byte of the output it adds equals the byte `distance`
positions before it, also where the copy overlaps itself. -/
def Obligations.BackReferenceLaw : Prop :=
  ∀ (s : State) (l d : Nat), s.WindowInBounds → s.SinkInOrder → s.WindowHoldsHistory → s.errorKind ≠ some .bufferFull →
    1 ≤ d → d ≤ s.emitted → d ≤ s.capacity → Room s l →
    ∃ t, copyBack l d s = .ok () t ∧ t.emitted = s.emitted + l ∧ t.outPos = s.outPos + l ∧
      (∀ k < l, (t.out.read (s.emitted + k)).isSome = true ∧
        t.out.read (s.emitted + k) = t.out.read (s.emitted + k - d)) ∧
      ∀ a, a < s.emitted → t.out.read a = s.out.read a

/-! ### The machine -/

/-- A step runs the decoded instruction: in a phase that reads, when the stream at the cursor decodes at the place the
state stands at, the step is `exec` of that instruction with the cursor moved past its bits. Where reading it raises an
error instead, the step raises that error, the cursor where the reads left it (60_exceptions.md R201, R207); in a header
`bfinal` may have been latched (see HeaderCutShort). That a step is one element is the model's choice (log 5). -/
def Obligations.StepRunsDecodedInstruction : Prop :=
  ∀ (s : State) (c : Cursor),
    (s.phase = .readHeader ∨ s.phase = .stored ∨ s.phase = .fixedHuffman ∨ s.phase = .dynamicHuffman) →
    (∀ i : Instr, decode s.input s.ctx s.pc = .ok i c → step s = exec i { s with pc := c }) ∧
    ∀ k : ErrorKind, s.phase ≠ .readHeader → s.status = .running → decode s.input s.ctx s.pc = .raises k c →
      step s = .next (failed { s with pc := c } k)

/-- While the machine runs, every step answers a next state: there is no fault and no refusal, whatever the stream holds
(30_encoding.md R77; 00_scope.md R8). In particular `read_bytes` is never reached unaligned (20_memory.md R48). -/
def Obligations.RunningStepAnswersNext : Prop :=
  ∀ s : State, s.StatusAgrees → s.status = .running → ∃ t, step s = .next t

/-- The invariant of the machine is kept by every step, the host's commands included: the parameters in range, the cursor
in bounds (10_state.md R13), the sink written in order (R14), the window canonical and holding the history (R16), the
status as the phase says (R25), the arrays, counts and trees as the place in the block needs them (R19 to R24; the place
is the model's own register, log 5). -/
def Obligations.StepKeepsInv : Prop := ∀ s t : State, s.Inv → step s = .next t → t.Inv

/-- The state before the first Start meets the invariant, and is as 70_reset_and_hazards.md R231 says: `status = Idle`,
`phase = Idle`, `error_kind = 0`. Every other register's value there is the model's choice (log 2). -/
def Obligations.ResetMeetsInv : Prop :=
  State.reset.Inv ∧ State.reset.status = .idle ∧ State.reset.phase = .idle ∧ State.reset.errorRegister = 0

/-- The cursor's bounds (10_state.md R13) are kept by every step, from every state that has them, reached or not. -/
def Obligations.StepKeepsCursorInBounds : Prop :=
  ∀ s t : State, s.CursorInBounds → step s = .next t → t.CursorInBounds

/-- The sink's order (10_state.md R14; 20_memory.md R43) is kept by every step, from every state that has it. -/
def Obligations.StepKeepsSinkInOrder : Prop := ∀ s t : State, s.SinkInOrder → step s = .next t → t.SinkInOrder

/-- The window's bounds, its canonical form and which slots hold a value (10_state.md R16 (a), (b); 42_sliding_window.md
R130) are kept by every step, from every state that has them. -/
def Obligations.StepKeepsWindowInBounds : Prop :=
  ∀ s t : State, s.WindowInBounds → step s = .next t → t.WindowInBounds

/-- `status` goes with `phase` and an error kind is recorded exactly in `Error` (10_state.md R25): kept by every step. -/
def Obligations.StepKeepsStatusAgrees : Prop := ∀ s t : State, s.StatusAgrees → step s = .next t → t.StatusAgrees

/-- Every run ends (45_inflate_engine.md R184, marked derived there; 00_scope.md R8): from every running state with the
invariant, within twice the number of bits left and two steps, the machine is in `Finished` or `Error`. A step is the
model's own unit (log 5). -/
def Obligations.RunEnds : Prop :=
  ∀ s : State, s.Inv → s.status = .running →
    ∃ (n : Nat) (t : State), n ≤ 2 * (8 * s.input.len - s.pc.index) + 2 ∧ Sys2Proof.core.run n s = .next t ∧ t.Ended

/-- The cursor never moves backward while the machine runs (10_state.md R12; 45_inflate_engine.md R184), and a step that
reads an element without an error moves it forward by at least one bit. -/
def Obligations.CursorNeverMovesBack : Prop :=
  ∀ s t : State, s.Inv → s.status = .running → step s = .next t →
    s.pc.index ≤ t.pc.index ∧ (s.phase ≠ .done → t.status ≠ .error → s.pc.index < t.pc.index)

/-- A run changes no parameter, writes no byte of `IN` and takes no command of the host (00_scope.md R5, R7; 20_memory.md
R41; 70_reset_and_hazards.md R233). The list of commands is the model's (log 3). -/
def Obligations.RunKeepsParameters : Prop :=
  ∀ s t : State, s.StatusAgrees → s.status = .running → step s = .next t → t.params = s.params ∧ t.inbox = s.inbox

/-- The frame of the two memories, for every step of a run, errors included (20_memory.md R42, R43; 42_sliding_window.md
R125): `OUT` changes only from `out_pos` up to the new `out_pos`, `WIN` only in the slots from `cursor` on that the new
`emitted` counts. -/
def Obligations.MemoriesWrittenInOrder : Prop :=
  ∀ s t : State, s.StatusAgrees → s.status = .running → s.cursor < s.capacity → step s = .next t →
    s.outPos ≤ t.outPos ∧ s.emitted ≤ t.emitted ∧ t.cursor = (s.cursor + (t.emitted - s.emitted)) % s.capacity ∧
    (∀ a, a < s.outPos ∨ t.outPos ≤ a → t.out.read a = s.out.read a) ∧
    ∀ a, (∀ k < t.emitted - s.emitted, a ≠ (s.cursor + k) % s.capacity) → t.win.read a = s.win.read a

/-- The frame of every instruction that appends nothing (42_sliding_window.md R125: nothing else writes the window or the
sink): headers, counts, code lengths, EOB, match lengths, illegal symbols leave every byte of both memories, the
counters, the cursor, the parameters, the wrapper's place (log 13) and the match registers but their own as they were. -/
def Obligations.OtherInstructionsKeepMemories : Prop :=
  ∀ (i : Instr) (s t : State), appends i = false → exec i s = .next t →
    t.out = s.out ∧ t.outPos = s.outPos ∧ t.win = s.win ∧ t.cursor = s.cursor ∧ t.emitted = s.emitted ∧ t.pc = s.pc ∧
    t.params = s.params ∧ t.inbox = s.inbox ∧ t.frame = s.frame ∧ t.distance = s.distance ∧ t.src = s.src ∧
    t.remaining = s.remaining

/-- The error kinds of the CORE, each where its rule says (60_exceptions.md R200 to R207): a run's error is one of the
kinds 1 to 7; `BufferFull` never with an infinite sink; `InvalidBlockType` at a header, `LengthMismatch` in a stored
block, `InvalidSymbol` and `InvalidDistance` in a compressed block, `MalformedTree` in a dynamic block only (for the
fixed block marked derived in R207). -/
def Obligations.CoreErrorKinds : Prop :=
  ∀ s t : State, s.StatusAgrees → s.status = .running → step s = .next t → t.status = .error →
    ∃ k, t.errorKind = some k ∧ (errorCode k).toNat ≤ 7 ∧ (k = .bufferFull → s.params.outCap ≠ none) ∧
      (k = .invalidBlockType → s.phase = .readHeader) ∧ (k = .lengthMismatch → s.phase = .stored) ∧
      (k = .invalidSymbol ∨ k = .invalidDistance → s.phase = .fixedHuffman ∨ s.phase = .dynamicHuffman) ∧
      (k = .malformedTree → s.phase = .dynamicHuffman)

/-- `raise K` (60_exceptions.md R210): the kind is set once, `phase` and `status` become `Error`, everything else keeps its
value; no further statement of the operation or of its callers executes, and the step ends in the state as raised. There is
no vector, no saved cursor and no mode change. -/
def Obligations.RaiseFreezes : Prop :=
  (∀ (k : ErrorKind) (s : State),
    (s.status ≠ .error → raise k s = { s with errorKind := some k, phase := .error, status := .error } ∧
      (raise k s).errorRegister = errorCode k) ∧
    (s.status = .error → raise k s = s)) ∧
  (∀ (α : Type) (s : State) (f : α → State → Op Unit), (Op.bind (.raised s) f).outcome = .next s) ∧
  ∀ (k l : ErrorKind) (s : State), raise l (raise k s) = raise k s

/-- `Finished` is reached only from `Done` of a block whose BFINAL bit was 1 (45_inflate_engine.md R181), and reaching it
moves no cursor and writes no memory (R185). -/
def Obligations.FinishedOnlyAfterFinalBlock : Prop :=
  ∀ s t : State, s.StatusAgrees → s.status = .running → step s = .next t → t.status = .finished →
    s.phase = .done ∧ s.bfinal = true ∧ t.pc = s.pc ∧ t.out = s.out ∧ t.outPos = s.outPos

/-- The host's commands, and nothing without one (70_reset_and_hazards.md R230, R234; 46_zlib_frame.md R190; 60_exceptions.md
R211). Start, taken between runs, sets the registers R230 lists. `inflate_zlib`, taken there, begins with a fresh BitReader
at `(0, 0)`, the input its own and the header still to be read. Either is refused while running. Without a command no step
is possible from `Idle`, `Finished` or `Error`. The model's choices here: the inbox (log 3), the name of the stop (log 6),
`frame` and the values 15 and 2 of WBITS and `start_byte` before the header is read (log 13), and `Idle` with
`error_kind = 0` until it is accepted (log 22). The registers R230 leaves unspecified are not said (log 4). -/
def Obligations.StartState : Prop :=
  (∀ (s : State) (p : Params) (rest : List Command), s.inbox = .start p :: rest →
    8 ≤ p.wbits → p.wbits ≤ 15 → p.startByte ≤ p.input.len →
    (s.status ≠ .running →
      (s.phase = .idle ∧ s.frame ≠ .header ∨ s.phase = .finished ∧ s.frame ≠ .trailer ∨ s.phase = .error) →
      ∃ t, step s = .next t ∧ t.params = p ∧ t.inbox = rest ∧ t.pc = ⟨p.startByte, 0⟩ ∧ t.outPos = 0 ∧ t.cursor = 0 ∧
        t.emitted = 0 ∧ t.errorRegister = 0 ∧ t.phase = .readHeader ∧ t.status = .running) ∧
    (s.status = .running → start p s = .refused .startWhileRunning)) ∧
  (∀ (s : State) (input : Input) (outCap : Option Nat) (trace : Bool) (rest : List Command),
    s.inbox = .inflateZlib input outCap trace :: rest →
    (s.status ≠ .running →
      (s.phase = .idle ∧ s.frame ≠ .header ∨ s.phase = .finished ∧ s.frame ≠ .trailer ∨ s.phase = .error) →
      ∃ t, step s = .next t ∧ t.params = ⟨input, 15, outCap, 2, trace⟩ ∧ t.inbox = rest ∧ t.pc = ⟨0, 0⟩ ∧ t.outPos = 0 ∧
        t.errorRegister = 0 ∧ t.phase = .idle ∧ t.status = .idle ∧ t.frame = .header) ∧
    (s.status = .running → startZlib input outCap trace s = .refused .startWhileRunning)) ∧
  ∀ s : State, (s.phase = .idle ∧ s.frame ≠ .header ∨ s.phase = .finished ∧ s.frame ≠ .trailer ∨ s.phase = .error) →
    s.inbox = [] → step s = .fault .awaitingStart

/-- The trace switch has no effect (60_exceptions.md R224; 10_state.md R27): with it set either way a step of a run gives
the same outcome, but for the switch itself. -/
def Obligations.TraceHasNoEffect : Prop :=
  ∀ (b : Bool) (s : State), s.StatusAgrees → s.status = .running → step (withTrace b s) = outcomeWithTrace b (step s)

/-! ### The wrapper -/

/-- The header of the zlib wrapper (46_zlib_frame.md R192, R193, R197; 60_exceptions.md R208): with two bytes at the
beginning, CM, the remainder by 31 and FDICT are checked in this order, CINFO above 7 is refused, else the CORE starts at
`(2, 0)` with the window of `CINFO + 8`; with fewer than two bytes `StreamExhausted` is raised. The places of the fields in
the two bytes are general knowledge in R191 (log 14). The model's choices here: `frame` (log 13), that the header is read
in `Idle` (log 22) and in one step (log 5), and the name of the refusal (log 15). -/
def Obligations.ZlibHeaderStep : Prop :=
  ∀ s : State, s.phase = .idle → s.status = .idle → s.frame = .header → s.pc = ⟨0, 0⟩ →
    let cmf := (s.input.byte 0).toNat
    let flg := (s.input.byte 1).toNat
    let read := { s with pc := (⟨2, 0⟩ : Cursor) }
    (2 ≤ s.input.len → cmf % 16 ≠ 8 → step s = .next (failed read .unsupportedCompressionMethod)) ∧
    (2 ≤ s.input.len → cmf % 16 = 8 → (cmf * 256 + flg) % 31 ≠ 0 →
      step s = .next (failed read .headerChecksumInvalid)) ∧
    (2 ≤ s.input.len → cmf % 16 = 8 → (cmf * 256 + flg) % 31 = 0 → flg / 32 % 2 = 1 →
      step s = .next (failed read .presetDictionaryUnsupported)) ∧
    (2 ≤ s.input.len → cmf % 16 = 8 → (cmf * 256 + flg) % 31 = 0 → flg / 32 % 2 = 0 → 7 < cmf / 16 →
      step s = .refused .windowInfoAboveSeven) ∧
    (2 ≤ s.input.len → cmf % 16 = 8 → (cmf * 256 + flg) % 31 = 0 → flg / 32 % 2 = 0 → cmf / 16 ≤ 7 →
      ∃ t, step s = .next t ∧ t.params = { s.params with wbits := cmf / 16 + 8, startByte := 2 } ∧ t.pc = ⟨2, 0⟩ ∧
        t.emitted = 0 ∧ t.cursor = 0 ∧ t.outPos = 0 ∧ t.phase = .readHeader ∧ t.status = .running ∧ t.frame = .body ∧
        t.errorKind = none) ∧
    (s.input.len < 2 → step s = .next (failed { s with pc := ⟨s.input.len, 0⟩ } .streamExhausted))

/-- The trailer of the zlib wrapper (46_zlib_frame.md R194, R195, R198): after the CORE has finished, the cursor is aligned
and four bytes are read, most significant first; the decode is complete if they are the Adler-32 of the output, else
`ChecksumMismatch` is raised with the output kept; with fewer than four bytes left `StreamExhausted` is raised. That the
trailer is read in `Finished`, and that a correct one leaves `Finished` with `frame` complete, are the model's choice
(log 13), as is the one step it takes (log 5). -/
def Obligations.ZlibTrailerStep : Prop :=
  ∀ s : State, s.phase = .finished → s.status = .finished → s.frame = .trailer → s.CursorInBounds →
    let a := s.pc.byte + (if s.pc.bit = 0 then 0 else 1)
    let trailer := (s.input.byte a).toNat * 2 ^ 24 + (s.input.byte (a + 1)).toNat * 2 ^ 16 +
      (s.input.byte (a + 2)).toNat * 2 ^ 8 + (s.input.byte (a + 3)).toNat
    let read := { s with pc := (⟨a + 4, 0⟩ : Cursor) }
    (a + 4 ≤ s.input.len → (adler32 s.output).toNat = trailer → step s = .next { read with frame := .complete }) ∧
    (a + 4 ≤ s.input.len → (adler32 s.output).toNat ≠ trailer → step s = .next (failed read .checksumMismatch)) ∧
    (s.input.len < a + 4 → step s = .next (failed { s with pc := ⟨s.input.len, 0⟩ } .streamExhausted))

/-- Adler-32 in closed form (46_zlib_frame.md R196, general knowledge there): the low half is 1 plus the sum of the bytes,
the high half the sum of the running low halves, both modulo 65521 (log 14). -/
def Obligations.AdlerClosedForm : Prop :=
  ∀ bs : List Byte, (adler32 bs).toNat =
    (bs.length + ((List.range bs.length).map fun k => (bs.length - k) * (bs.getD k 0).toNat).sum) % 65521 * 65536 +
      (1 + (bs.map (·.toNat)).sum) % 65521
end

