-- ==== Sys2Proof/Laws/BitReader.lean ====
section
/-! SUPPORT. The laws of the cursor and of the BitReader's reads (40_bit_reader.md R91 to R100). -/

namespace Sys2Proof

/-! ### The cursor -/

@[simp] theorem Cursor.ofIndex_index (c : Cursor) : Cursor.ofIndex c.index = c := by
  obtain ⟨b, k, hk⟩ := c
  simp only [Cursor.ofIndex, Cursor.index, Cursor.mk.injEq, Fin.mk.injEq]
  omega

@[simp] theorem Cursor.index_ofIndex (p : Nat) : (Cursor.ofIndex p).index = p := by
  simp only [Cursor.ofIndex, Cursor.index]
  omega

theorem Cursor.ext_index {c d : Cursor} (h : c.index = d.index) : c = d := by
  rw [← Cursor.ofIndex_index c, h, Cursor.ofIndex_index]

theorem Cursor.index_next (c : Cursor) : c.next.index = c.index + 1 := by
  obtain ⟨b, k, hk⟩ := c
  simp only [Cursor.next, Fin.ext_iff]
  split
  · next h => simp [Cursor.index] at h ⊢; omega
  · next h => 
    have h7 : k ≠ 7 := by simpa using h
    have : ((⟨k, hk⟩ : Fin 8) + 1).val = k + 1 := by
      simp [Fin.val_add]; omega
    simp only [Cursor.index, this]; omega

theorem Cursor.next_eq (c : Cursor) : c.next = c.advance 1 :=
  Cursor.ext_index (by rw [Cursor.index_next, Cursor.advance, Cursor.index_ofIndex])

@[simp] theorem Cursor.index_advance (c : Cursor) (n : Nat) : (c.advance n).index = c.index + n := by
  simp [Cursor.advance]

@[simp] theorem Cursor.advance_zero (c : Cursor) : c.advance 0 = c := by simp [Cursor.advance]

@[simp] theorem Cursor.advance_advance (c : Cursor) (m n : Nat) : (c.advance m).advance n = c.advance (m + n) := by
  simp [Cursor.advance, Nat.add_assoc]

@[simp] theorem Cursor.align_bit (c : Cursor) : c.align.bit = 0 := by
  simp only [Cursor.align]
  split
  · rfl
  · next h => exact Fin.ext (by simpa using h)

theorem Cursor.index_of_aligned {c : Cursor} (h : c.bit = 0) : c.index = 8 * c.byte := by
  simp [Cursor.index, h]

/-- R98: alignment moves to the next multiple of 8 bits. -/
theorem Cursor.index_align (c : Cursor) : c.align.index = (c.index + 7) / 8 * 8 := by
  obtain ⟨b, k, hk⟩ := c
  simp only [Cursor.align]
  split
  · next h => simp [Cursor.index] at h ⊢; omega
  · next h => simp [Cursor.index] at h ⊢; omega

/-- R98: calling it twice is the same as once. -/
@[simp] theorem Cursor.align_align (c : Cursor) : c.align.align = c.align := by
  conv_lhs => rw [Cursor.align]
  simp

/-- R13 as one inequality: the cursor is in bounds when its stream bit is at most the end of the input. -/
theorem Cursor.inBounds_iff (c : Cursor) (n : Nat) :
    (c.byte ≤ n ∧ (c.bit ≠ 0 → c.byte < n)) ↔ c.index ≤ 8 * n := by
  obtain ⟨b, k, hk⟩ := c
  simp only [Cursor.index, ne_eq, Fin.ext_iff, Fin.val_zero]
  omega

/-- The end-of-input test of a bit read, on the stream bit. -/
theorem Cursor.len_le_byte_iff (c : Cursor) (n : Nat) : n ≤ c.byte ↔ 8 * n ≤ c.index := by
  obtain ⟨b, k, hk⟩ := c
  simp only [Cursor.index]
  omega

theorem Input.streamBit_index (m : Input) (c : Cursor) :
    m.streamBit c.index = (m.byte c.byte).getLsbD c.bit.val := by
  obtain ⟨b, k, hk⟩ := c
  have h₁ : (8 * b + k) / 8 = b := by omega
  have h₂ : (8 * b + k) % 8 = k := by omega
  simp [Input.streamBit, Cursor.index, h₁, h₂]

/-! ### Reads -/

@[simp] theorem Read.bind_ok {α β : Type} (v : α) (c : Cursor) (f : α → Cursor → Read β) :
    (Read.ok v c).bind f = f v c := rfl

@[simp] theorem Read.bind_raises {α β : Type} (k : ErrorKind) (c : Cursor) (f : α → Cursor → Read β) :
    (Read.raises k c : Read α).bind f = .raises k c := rfl

/-- A sequence of reads succeeds when both do. -/
theorem Read.bind_eq_ok {α β : Type} {r : Read α} {f : α → Cursor → Read β} {v : β} {c : Cursor} :
    r.bind f = .ok v c ↔ ∃ u d, r = .ok u d ∧ f u d = .ok v c := by
  cases r <;> simp

/-- A sequence of reads raises what the first raises, or what the second does. -/
theorem Read.bind_eq_raises {α β : Type} {r : Read α} {f : α → Cursor → Read β} {k : ErrorKind} {c : Cursor} :
    r.bind f = .raises k c ↔ r = .raises k c ∨ ∃ u d, r = .ok u d ∧ f u d = .raises k c := by
  cases r <;> simp

/-- R91, R92: a bit read in stream terms. -/
theorem readBitLsb_eq (m : Input) (c : Cursor) :
    readBitLsb m c =
      if 8 * m.len ≤ c.index then .raises .streamExhausted c else .ok (m.streamBit c.index) (c.advance 1) := by
  simp only [readBitLsb, c.len_le_byte_iff, Input.streamBit_index, Cursor.next_eq]

theorem readBitLsb_ok {m : Input} {c : Cursor} (h : c.index < 8 * m.len) :
    readBitLsb m c = .ok (m.streamBit c.index) (c.advance 1) := by
  rw [readBitLsb_eq, if_neg (by omega)]

/-- The value of the `n` stream bits from bit `p` on, the first the least significant (R94). -/
def Input.fieldLsb (m : Input) : Nat → Nat → Nat
  | _, 0 => 0
  | p, n + 1 => (m.streamBit p).toNat + 2 * m.fieldLsb (p + 1) n

theorem Input.fieldLsb_lt (m : Input) (p n : Nat) : m.fieldLsb p n < 2 ^ n := by
  induction n generalizing p with
  | zero => simp [Input.fieldLsb]
  | succ n ih =>
    have := ih (p + 1)
    have hb := Bool.toNat_le (m.streamBit p)
    simp only [Input.fieldLsb, Nat.pow_succ]
    omega

/-- R94, R100 (c): `read_bits_lsb(n)` succeeds when `n` bits are left, and then reads exactly those. -/
theorem readBitsLsb_ok {m : Input} {c : Cursor} {n : Nat} (h : c.index + n ≤ 8 * m.len) :
    readBitsLsb m n c = .ok (m.fieldLsb c.index n) (c.advance n) := by
  induction n generalizing c with
  | zero => simp [readBitsLsb, Input.fieldLsb]
  | succ n ih =>
    have h₁ : (c.advance 1).index + n ≤ 8 * m.len := by rw [Cursor.index_advance]; omega
    rw [readBitsLsb, readBitLsb_ok (by omega), Read.bind_ok, ih h₁, Read.bind_ok]
    simp [Input.fieldLsb, Nat.add_comm 1 n]

/-- R94, R201: `read_bits_lsb(n)` raises `StreamExhausted` when fewer than `n` bits are left, at the end of the input
unless the cursor was already past it. -/
theorem readBitsLsb_raises {m : Input} {c : Cursor} {n : Nat} (hc : c.index ≤ 8 * m.len) (h : 8 * m.len < c.index + n) :
    readBitsLsb m n c = .raises .streamExhausted ⟨m.len, 0⟩ := by
  induction n generalizing c with
  | zero => omega
  | succ n ih =>
    by_cases he : 8 * m.len ≤ c.index
    · have : c = ⟨m.len, 0⟩ := Cursor.ext_index (by simp [Cursor.index] at he hc ⊢; omega)
      rw [readBitsLsb, readBitLsb_eq, if_pos he, Read.bind_raises, this]
    · rw [readBitsLsb, readBitLsb_ok (by omega), Read.bind_ok, ih, Read.bind_raises]
      · rw [Cursor.index_advance]; omega
      · rw [Cursor.index_advance]; omega

/-- The value of the `n` stream bits from bit `p` on, the first the most significant, after `acc` (R95). -/
def Input.fieldMsbFrom (m : Input) : Nat → Nat → Nat → Nat
  | acc, _, 0 => acc
  | acc, p, n + 1 => m.fieldMsbFrom (2 * acc + (m.streamBit p).toNat) (p + 1) n

theorem readBitsMsbFrom_ok {m : Input} {c : Cursor} {n acc : Nat} (h : c.index + n ≤ 8 * m.len) :
    readBitsMsbFrom m n acc c = .ok (m.fieldMsbFrom acc c.index n) (c.advance n) := by
  induction n generalizing c acc with
  | zero => simp [readBitsMsbFrom, Input.fieldMsbFrom]
  | succ n ih =>
    have h₁ : (c.advance 1).index + n ≤ 8 * m.len := by rw [Cursor.index_advance]; omega
    rw [readBitsMsbFrom, readBitLsb_ok (by omega), Read.bind_ok, ih h₁]
    simp [Input.fieldMsbFrom, Nat.add_comm 1 n]

/-- R97: what `read_bytes` can do. -/
theorem readBytes_ok {m : Input} {c : Cursor} {n : Nat} (h : c.byte + n ≤ m.len) :
    readBytes m n c = .ok (bytesLe m c.byte n) ⟨c.byte + n, c.bit⟩ := by
  rw [readBytes, if_neg (by omega)]

theorem readBytes_raises {m : Input} {c : Cursor} {n : Nat} (h : m.len < c.byte + n) :
    readBytes m n c = .raises .streamExhausted c := by
  rw [readBytes, if_pos h]

/-- What every read does to the cursor: it answers a value and moves the stream bit forward by `n` to at most the end, or
raises with the cursor between where it was and the end (R13, R100 (a)). -/
def Read.Moves {α : Type} (r : Read α) (m : Input) (c : Cursor) (lo : Nat) : Prop :=
  match r with
  | .ok _ d => c.index + lo ≤ d.index ∧ d.index ≤ 8 * m.len
  | .raises _ d => c.index ≤ d.index ∧ d.index ≤ 8 * m.len

theorem Read.Moves.bind {α β : Type} {r : Read α} {f : α → Cursor → Read β} {m : Input} {c : Cursor} {a b : Nat}
    (h : r.Moves m c a) (hf : ∀ v d, r = .ok v d → d.index ≤ 8 * m.len → (f v d).Moves m d b) :
    (r.bind f).Moves m c (a + b) := by
  cases r with
  | raises k d => exact h
  | ok v d =>
    have := hf v d rfl h.2
    rw [Read.bind_ok]
    revert this
    cases f v d with
    | ok w e => intro h'; exact ⟨by have := h.1; have := h'.1; omega, h'.2⟩
    | raises k e => intro h'; exact ⟨by have := h.1; have := h'.1; omega, h'.2⟩

theorem Read.Moves.ok {α : Type} {v : α} {m : Input} {c : Cursor} (h : c.index ≤ 8 * m.len) :
    (Read.ok v c).Moves m c 0 := ⟨by omega, h⟩

theorem readBitLsb_moves {m : Input} {c : Cursor} (h : c.index ≤ 8 * m.len) : (readBitLsb m c).Moves m c 1 := by
  rw [readBitLsb_eq]
  split
  · exact ⟨le_refl _, h⟩
  · exact ⟨by simp, by rw [Cursor.index_advance]; omega⟩

theorem readBitsLsb_moves {m : Input} {c : Cursor} (h : c.index ≤ 8 * m.len) (n : Nat) :
    (readBitsLsb m n c).Moves m c n := by
  by_cases hn : c.index + n ≤ 8 * m.len
  · rw [readBitsLsb_ok hn]; exact ⟨by simp, by simpa using hn⟩
  · rw [readBitsLsb_raises h (by omega)]; exact ⟨by simpa [Cursor.index] using h, by simp [Cursor.index]⟩

theorem readBitsMsbFrom_moves {m : Input} (n : Nat) : ∀ {c : Cursor} (acc : Nat), c.index ≤ 8 * m.len →
    (readBitsMsbFrom m n acc c).Moves m c n := by
  induction n with
  | zero => intro c acc h; exact Read.Moves.ok h
  | succ n ih =>
    intro c acc h
    have := Read.Moves.bind (b := n) (readBitLsb_moves h)
      (f := fun b c₁ => readBitsMsbFrom m n (2 * acc + b.toNat) c₁) (fun v d _ hd => ih _ hd)
    rw [Nat.add_comm] at this
    exact this

theorem readBytes_moves {m : Input} {c : Cursor} (h : c.index ≤ 8 * m.len) (hc : c.bit = 0) (n : Nat) :
    (readBytes m n c).Moves m c (8 * n) := by
  have hi := Cursor.index_of_aligned hc
  by_cases hn : c.byte + n ≤ m.len
  · rw [readBytes_ok hn]
    constructor <;> simp [Cursor.index, hc] <;> omega
  · rw [readBytes_raises (by omega)]; exact ⟨le_refl _, h⟩

end Sys2Proof
end

