-- ==== Sys2Proof/Laws/Memory.lean ====
section
/-! SUPPORT. The laws of a byte memory: read after write, and that a write keeps the canonical form. -/

namespace Sys2Proof

@[simp] theorem Memory.read_nil (x : Nat) : Memory.read [] x = none := rfl

theorem Memory.read_cons (a : Nat) (b : Byte) (m : Memory) (x : Nat) :
    Memory.read ((a, b) :: m) x = if x = a then some b else Memory.read m x := rfl

/-- A byte written is the byte read. -/
@[simp] theorem Memory.read_write_same (m : Memory) (x : Nat) (v : Byte) : (m.write x v).read x = some v := by
  induction m with
  | nil => simp [Memory.write, Memory.read]
  | cons p m ih =>
    obtain ⟨a, b⟩ := p
    simp only [Memory.write]
    split
    · simp [Memory.read]
    · split
      · simp [Memory.read]
      · next h => simp [Memory.read, h, ih]

/-- A write leaves every other address alone. -/
theorem Memory.read_write_other (m : Memory) {x y : Nat} (v : Byte) (h : y ≠ x) : (m.write x v).read y = m.read y := by
  induction m with
  | nil => simp [Memory.write, Memory.read, h]
  | cons p m ih =>
    obtain ⟨a, b⟩ := p
    simp only [Memory.write]
    split
    · simp [Memory.read, h]
    · split
      · next ha => subst ha; simp [Memory.read, h]
      · simp [Memory.read, ih]

theorem Memory.read_write (m : Memory) (x y : Nat) (v : Byte) :
    (m.write x v).read y = if y = x then some v else m.read y := by
  split
  · next h => subst h; simp
  · next h => exact Memory.read_write_other m v h

/-- Every address of a written memory is the written one or an old one. -/
theorem Memory.mem_write {m : Memory} {x : Nat} {v : Byte} {p : Host.Cell} (h : p ∈ m.write x v) :
    p.1 = x ∨ p ∈ m := by
  induction m with
  | nil => simp [Memory.write] at h; exact .inl (by rw [h])
  | cons q m ih =>
    obtain ⟨a, b⟩ := q
    simp only [Memory.write] at h
    split at h
    · rcases List.mem_cons.1 h with rfl | h
      · exact .inl rfl
      · exact .inr h
    · split at h
      · rcases List.mem_cons.1 h with rfl | h
        · exact .inl rfl
        · exact .inr (List.mem_cons_of_mem _ h)
      · rcases List.mem_cons.1 h with rfl | h
        · exact .inr (List.mem_cons_self ..)
        · rcases ih h with h | h
          · exact .inl h
          · exact .inr (List.mem_cons_of_mem _ h)

/-- A write keeps the canonical form. -/
theorem Memory.write_wf {m : Memory} (h : m.wf) (x : Nat) (v : Byte) : (m.write x v).wf := by
  induction m with
  | nil => simp [Memory.wf, Memory.write]
  | cons p m ih =>
    obtain ⟨a, b⟩ := p
    obtain ⟨h₁, h₂⟩ := List.pairwise_cons.1 h
    simp only [Memory.write]
    split
    · next hx =>
      refine List.pairwise_cons.2 ⟨fun q hq => ?_, h⟩
      rcases List.mem_cons.1 hq with rfl | hq
      · exact hx
      · exact lt_trans hx (h₁ q hq)
    · split
      · next hx => subst hx; exact List.pairwise_cons.2 ⟨h₁, h₂⟩
      · next hx hne =>
        refine List.pairwise_cons.2 ⟨fun q hq => ?_, ih h₂⟩
        rcases Memory.mem_write hq with hq | hq
        · simp only [hq]; omega
        · exact h₁ q hq

/-- Writing at the first address past a memory that lists exactly `0` to `n - 1` appends the byte. -/
theorem Memory.write_at_end (m : Memory) (x : Nat) (v : Byte) (h : ∀ p ∈ m, p.1 < x) : m.write x v = m ++ [(x, v)] := by
  induction m with
  | nil => rfl
  | cons p m ih =>
    obtain ⟨a, b⟩ := p
    have ha : a < x := h (a, b) (List.mem_cons_self ..)
    simp only [Memory.write, List.cons_append]
    rw [if_neg (by omega), if_neg (by omega), ih fun q hq => h q (List.mem_cons_of_mem _ hq)]

/-- A memory that lists exactly the addresses `0` to `n - 1` lists, after a write at `n`, exactly `0` to `n`. -/
theorem Memory.write_range {m : Memory} {n : Nat} (h : m.map Prod.fst = List.range n) (v : Byte) :
    (m.write n v).map Prod.fst = List.range (n + 1) := by
  rw [Memory.write_at_end]
  · simp [h, List.range_succ]
  · intro p hp
    have : p.1 ∈ m.map Prod.fst := List.mem_map_of_mem hp
    rw [h] at this
    exact List.mem_range.1 this

/-- A memory whose addresses are `0` to `n - 1` is canonical. -/
theorem Memory.wf_of_range {m : Memory} {n : Nat} (h : m.map Prod.fst = List.range n) : m.wf := by
  have : (m.map Prod.fst).Pairwise (· < ·) := h ▸ List.pairwise_lt_range
  exact (List.pairwise_map.1 this).imp fun h => h

/-- An address holds a value exactly when it is listed. -/
theorem Memory.read_isSome (m : Memory) (x : Nat) : (m.read x).isSome = decide (x ∈ m.map Prod.fst) := by
  induction m with
  | nil => simp
  | cons p m ih =>
    obtain ⟨a, b⟩ := p
    simp only [Memory.read, List.map_cons, List.mem_cons]
    split
    · next h => simp [h]
    · next h => simp [h, ih]

theorem Memory.ofBytes_map_fst (a : Nat) (bs : List Byte) :
    (Memory.ofBytes a bs).map Prod.fst = List.range' a bs.length := by
  induction bs generalizing a with
  | nil => rfl
  | cons b bs ih => simp [Memory.ofBytes, ih, List.range'_succ]

theorem Memory.read_ofBytes (a : Nat) (bs : List Byte) (x : Nat) (h : a ≤ x) :
    (Memory.ofBytes a bs).read x = bs[x - a]? := by
  induction bs generalizing a with
  | nil => simp [Memory.ofBytes]
  | cons b bs ih =>
    simp only [Memory.ofBytes, Memory.read]
    split
    · next hx => subst hx; simp
    · next hx =>
      rw [ih (a + 1) (by omega)]
      have : x - a = (x - (a + 1)) + 1 := by omega
      rw [this, List.getElem?_cons_succ]

/-- The input made of a list of bytes is one the host may supply. -/
@[simp] theorem Input.ofBytes_wf (bs : List Byte) : (Input.ofBytes bs).wf = true := by
  simp [Input.wf, Input.ofBytes, Memory.ofBytes_map_fst, List.range_eq_range']

@[simp] theorem Input.ofBytes_len (bs : List Byte) : (Input.ofBytes bs).len = bs.length := rfl

/-- `IN[a]` of an input made of a list of bytes. -/
theorem Input.byte_ofBytes (bs : List Byte) (a : Nat) (h : a < bs.length) : (Input.ofBytes bs).byte a = bs[a] := by
  simp [Input.byte, Input.ofBytes, Memory.read_ofBytes, h]

/-- A byte the host has supplied is not the free value. -/
theorem Input.byte_of_read {m : Input} {a : Nat} {b : Byte} (h : m.mem.read a = some b) : m.byte a = b := by
  simp [Input.byte, h]

end Sys2Proof
end

