-- ==== Sys2Proof/Laws/State.lean ====
section
/-! SUPPORT. One lemma for each field of State and each register update of Machine/Ops.lean, true by rfl: no later proof
unfolds a record update. -/

namespace Sys2Proof.Machine

@[simp] theorem State.setPc_params (s : State) (c : Cursor) : (s.setPc c).params = s.params := rfl
@[simp] theorem State.setPc_inbox (s : State) (c : Cursor) : (s.setPc c).inbox = s.inbox := rfl
@[simp] theorem State.setPc_pc (s : State) (c : Cursor) : (s.setPc c).pc = c := rfl
@[simp] theorem State.setPc_out (s : State) (c : Cursor) : (s.setPc c).out = s.out := rfl
@[simp] theorem State.setPc_outPos (s : State) (c : Cursor) : (s.setPc c).outPos = s.outPos := rfl
@[simp] theorem State.setPc_win (s : State) (c : Cursor) : (s.setPc c).win = s.win := rfl
@[simp] theorem State.setPc_cursor (s : State) (c : Cursor) : (s.setPc c).cursor = s.cursor := rfl
@[simp] theorem State.setPc_emitted (s : State) (c : Cursor) : (s.setPc c).emitted = s.emitted := rfl
@[simp] theorem State.setPc_clTree (s : State) (c : Cursor) : (s.setPc c).clTree = s.clTree := rfl
@[simp] theorem State.setPc_llTree (s : State) (c : Cursor) : (s.setPc c).llTree = s.llTree := rfl
@[simp] theorem State.setPc_dTree (s : State) (c : Cursor) : (s.setPc c).dTree = s.dTree := rfl
@[simp] theorem State.setPc_clLen (s : State) (c : Cursor) : (s.setPc c).clLen = s.clLen := rfl
@[simp] theorem State.setPc_lens (s : State) (c : Cursor) : (s.setPc c).lens = s.lens := rfl
@[simp] theorem State.setPc_bfinal (s : State) (c : Cursor) : (s.setPc c).bfinal = s.bfinal := rfl
@[simp] theorem State.setPc_btype (s : State) (c : Cursor) : (s.setPc c).btype = s.btype := rfl
@[simp] theorem State.setPc_hlit (s : State) (c : Cursor) : (s.setPc c).hlit = s.hlit := rfl
@[simp] theorem State.setPc_hdist (s : State) (c : Cursor) : (s.setPc c).hdist = s.hdist := rfl
@[simp] theorem State.setPc_hclen (s : State) (c : Cursor) : (s.setPc c).hclen = s.hclen := rfl
@[simp] theorem State.setPc_phase (s : State) (c : Cursor) : (s.setPc c).phase = s.phase := rfl
@[simp] theorem State.setPc_pos (s : State) (c : Cursor) : (s.setPc c).pos = s.pos := rfl
@[simp] theorem State.setPc_i (s : State) (c : Cursor) : (s.setPc c).i = s.i := rfl
@[simp] theorem State.setPc_blCount (s : State) (c : Cursor) : (s.setPc c).blCount = s.blCount := rfl
@[simp] theorem State.setPc_nextCode (s : State) (c : Cursor) : (s.setPc c).nextCode = s.nextCode := rfl
@[simp] theorem State.setPc_length (s : State) (c : Cursor) : (s.setPc c).length = s.length := rfl
@[simp] theorem State.setPc_distance (s : State) (c : Cursor) : (s.setPc c).distance = s.distance := rfl
@[simp] theorem State.setPc_src (s : State) (c : Cursor) : (s.setPc c).src = s.src := rfl
@[simp] theorem State.setPc_remaining (s : State) (c : Cursor) : (s.setPc c).remaining = s.remaining := rfl
@[simp] theorem State.setPc_status (s : State) (c : Cursor) : (s.setPc c).status = s.status := rfl
@[simp] theorem State.setPc_errorKind (s : State) (c : Cursor) : (s.setPc c).errorKind = s.errorKind := rfl
@[simp] theorem State.setPc_frame (s : State) (c : Cursor) : (s.setPc c).frame = s.frame := rfl
@[simp] theorem State.setPc_capacity (s : State) (c : Cursor) : (s.setPc c).capacity = s.capacity := rfl
@[simp] theorem State.setPc_input (s : State) (c : Cursor) : (s.setPc c).input = s.input := rfl

@[simp] theorem State.setHeader_params (s : State) (f : Bool) (t : BitVec 2) : (s.setHeader f t).params = s.params := rfl
@[simp] theorem State.setHeader_inbox (s : State) (f : Bool) (t : BitVec 2) : (s.setHeader f t).inbox = s.inbox := rfl
@[simp] theorem State.setHeader_pc (s : State) (f : Bool) (t : BitVec 2) : (s.setHeader f t).pc = s.pc := rfl
@[simp] theorem State.setHeader_out (s : State) (f : Bool) (t : BitVec 2) : (s.setHeader f t).out = s.out := rfl
@[simp] theorem State.setHeader_outPos (s : State) (f : Bool) (t : BitVec 2) : (s.setHeader f t).outPos = s.outPos := rfl
@[simp] theorem State.setHeader_win (s : State) (f : Bool) (t : BitVec 2) : (s.setHeader f t).win = s.win := rfl
@[simp] theorem State.setHeader_cursor (s : State) (f : Bool) (t : BitVec 2) : (s.setHeader f t).cursor = s.cursor := rfl
@[simp] theorem State.setHeader_emitted (s : State) (f : Bool) (t : BitVec 2) : (s.setHeader f t).emitted = s.emitted := rfl
@[simp] theorem State.setHeader_clTree (s : State) (f : Bool) (t : BitVec 2) : (s.setHeader f t).clTree = s.clTree := rfl
@[simp] theorem State.setHeader_llTree (s : State) (f : Bool) (t : BitVec 2) : (s.setHeader f t).llTree = s.llTree := rfl
@[simp] theorem State.setHeader_dTree (s : State) (f : Bool) (t : BitVec 2) : (s.setHeader f t).dTree = s.dTree := rfl
@[simp] theorem State.setHeader_clLen (s : State) (f : Bool) (t : BitVec 2) : (s.setHeader f t).clLen = s.clLen := rfl
@[simp] theorem State.setHeader_lens (s : State) (f : Bool) (t : BitVec 2) : (s.setHeader f t).lens = s.lens := rfl
@[simp] theorem State.setHeader_bfinal (s : State) (f : Bool) (t : BitVec 2) : (s.setHeader f t).bfinal = f := rfl
@[simp] theorem State.setHeader_btype (s : State) (f : Bool) (t : BitVec 2) : (s.setHeader f t).btype = t := rfl
@[simp] theorem State.setHeader_hlit (s : State) (f : Bool) (t : BitVec 2) : (s.setHeader f t).hlit = s.hlit := rfl
@[simp] theorem State.setHeader_hdist (s : State) (f : Bool) (t : BitVec 2) : (s.setHeader f t).hdist = s.hdist := rfl
@[simp] theorem State.setHeader_hclen (s : State) (f : Bool) (t : BitVec 2) : (s.setHeader f t).hclen = s.hclen := rfl
@[simp] theorem State.setHeader_phase (s : State) (f : Bool) (t : BitVec 2) : (s.setHeader f t).phase = s.phase := rfl
@[simp] theorem State.setHeader_pos (s : State) (f : Bool) (t : BitVec 2) : (s.setHeader f t).pos = s.pos := rfl
@[simp] theorem State.setHeader_i (s : State) (f : Bool) (t : BitVec 2) : (s.setHeader f t).i = s.i := rfl
@[simp] theorem State.setHeader_blCount (s : State) (f : Bool) (t : BitVec 2) : (s.setHeader f t).blCount = s.blCount := rfl
@[simp] theorem State.setHeader_nextCode (s : State) (f : Bool) (t : BitVec 2) : (s.setHeader f t).nextCode = s.nextCode := rfl
@[simp] theorem State.setHeader_length (s : State) (f : Bool) (t : BitVec 2) : (s.setHeader f t).length = s.length := rfl
@[simp] theorem State.setHeader_distance (s : State) (f : Bool) (t : BitVec 2) : (s.setHeader f t).distance = s.distance := rfl
@[simp] theorem State.setHeader_src (s : State) (f : Bool) (t : BitVec 2) : (s.setHeader f t).src = s.src := rfl
@[simp] theorem State.setHeader_remaining (s : State) (f : Bool) (t : BitVec 2) : (s.setHeader f t).remaining = s.remaining := rfl
@[simp] theorem State.setHeader_status (s : State) (f : Bool) (t : BitVec 2) : (s.setHeader f t).status = s.status := rfl
@[simp] theorem State.setHeader_errorKind (s : State) (f : Bool) (t : BitVec 2) : (s.setHeader f t).errorKind = s.errorKind := rfl
@[simp] theorem State.setHeader_frame (s : State) (f : Bool) (t : BitVec 2) : (s.setHeader f t).frame = s.frame := rfl
@[simp] theorem State.setHeader_capacity (s : State) (f : Bool) (t : BitVec 2) : (s.setHeader f t).capacity = s.capacity := rfl
@[simp] theorem State.setHeader_input (s : State) (f : Bool) (t : BitVec 2) : (s.setHeader f t).input = s.input := rfl

@[simp] theorem State.setBfinal_params (s : State) (f : Bool) : (s.setBfinal f).params = s.params := rfl
@[simp] theorem State.setBfinal_inbox (s : State) (f : Bool) : (s.setBfinal f).inbox = s.inbox := rfl
@[simp] theorem State.setBfinal_pc (s : State) (f : Bool) : (s.setBfinal f).pc = s.pc := rfl
@[simp] theorem State.setBfinal_out (s : State) (f : Bool) : (s.setBfinal f).out = s.out := rfl
@[simp] theorem State.setBfinal_outPos (s : State) (f : Bool) : (s.setBfinal f).outPos = s.outPos := rfl
@[simp] theorem State.setBfinal_win (s : State) (f : Bool) : (s.setBfinal f).win = s.win := rfl
@[simp] theorem State.setBfinal_cursor (s : State) (f : Bool) : (s.setBfinal f).cursor = s.cursor := rfl
@[simp] theorem State.setBfinal_emitted (s : State) (f : Bool) : (s.setBfinal f).emitted = s.emitted := rfl
@[simp] theorem State.setBfinal_clTree (s : State) (f : Bool) : (s.setBfinal f).clTree = s.clTree := rfl
@[simp] theorem State.setBfinal_llTree (s : State) (f : Bool) : (s.setBfinal f).llTree = s.llTree := rfl
@[simp] theorem State.setBfinal_dTree (s : State) (f : Bool) : (s.setBfinal f).dTree = s.dTree := rfl
@[simp] theorem State.setBfinal_clLen (s : State) (f : Bool) : (s.setBfinal f).clLen = s.clLen := rfl
@[simp] theorem State.setBfinal_lens (s : State) (f : Bool) : (s.setBfinal f).lens = s.lens := rfl
@[simp] theorem State.setBfinal_bfinal (s : State) (f : Bool) : (s.setBfinal f).bfinal = f := rfl
@[simp] theorem State.setBfinal_btype (s : State) (f : Bool) : (s.setBfinal f).btype = s.btype := rfl
@[simp] theorem State.setBfinal_hlit (s : State) (f : Bool) : (s.setBfinal f).hlit = s.hlit := rfl
@[simp] theorem State.setBfinal_hdist (s : State) (f : Bool) : (s.setBfinal f).hdist = s.hdist := rfl
@[simp] theorem State.setBfinal_hclen (s : State) (f : Bool) : (s.setBfinal f).hclen = s.hclen := rfl
@[simp] theorem State.setBfinal_phase (s : State) (f : Bool) : (s.setBfinal f).phase = s.phase := rfl
@[simp] theorem State.setBfinal_pos (s : State) (f : Bool) : (s.setBfinal f).pos = s.pos := rfl
@[simp] theorem State.setBfinal_i (s : State) (f : Bool) : (s.setBfinal f).i = s.i := rfl
@[simp] theorem State.setBfinal_blCount (s : State) (f : Bool) : (s.setBfinal f).blCount = s.blCount := rfl
@[simp] theorem State.setBfinal_nextCode (s : State) (f : Bool) : (s.setBfinal f).nextCode = s.nextCode := rfl
@[simp] theorem State.setBfinal_length (s : State) (f : Bool) : (s.setBfinal f).length = s.length := rfl
@[simp] theorem State.setBfinal_distance (s : State) (f : Bool) : (s.setBfinal f).distance = s.distance := rfl
@[simp] theorem State.setBfinal_src (s : State) (f : Bool) : (s.setBfinal f).src = s.src := rfl
@[simp] theorem State.setBfinal_remaining (s : State) (f : Bool) : (s.setBfinal f).remaining = s.remaining := rfl
@[simp] theorem State.setBfinal_status (s : State) (f : Bool) : (s.setBfinal f).status = s.status := rfl
@[simp] theorem State.setBfinal_errorKind (s : State) (f : Bool) : (s.setBfinal f).errorKind = s.errorKind := rfl
@[simp] theorem State.setBfinal_frame (s : State) (f : Bool) : (s.setBfinal f).frame = s.frame := rfl
@[simp] theorem State.setBfinal_capacity (s : State) (f : Bool) : (s.setBfinal f).capacity = s.capacity := rfl
@[simp] theorem State.setBfinal_input (s : State) (f : Bool) : (s.setBfinal f).input = s.input := rfl

@[simp] theorem State.setPhase_params (s : State) (p : Phase) : (s.setPhase p).params = s.params := rfl
@[simp] theorem State.setPhase_inbox (s : State) (p : Phase) : (s.setPhase p).inbox = s.inbox := rfl
@[simp] theorem State.setPhase_pc (s : State) (p : Phase) : (s.setPhase p).pc = s.pc := rfl
@[simp] theorem State.setPhase_out (s : State) (p : Phase) : (s.setPhase p).out = s.out := rfl
@[simp] theorem State.setPhase_outPos (s : State) (p : Phase) : (s.setPhase p).outPos = s.outPos := rfl
@[simp] theorem State.setPhase_win (s : State) (p : Phase) : (s.setPhase p).win = s.win := rfl
@[simp] theorem State.setPhase_cursor (s : State) (p : Phase) : (s.setPhase p).cursor = s.cursor := rfl
@[simp] theorem State.setPhase_emitted (s : State) (p : Phase) : (s.setPhase p).emitted = s.emitted := rfl
@[simp] theorem State.setPhase_clTree (s : State) (p : Phase) : (s.setPhase p).clTree = s.clTree := rfl
@[simp] theorem State.setPhase_llTree (s : State) (p : Phase) : (s.setPhase p).llTree = s.llTree := rfl
@[simp] theorem State.setPhase_dTree (s : State) (p : Phase) : (s.setPhase p).dTree = s.dTree := rfl
@[simp] theorem State.setPhase_clLen (s : State) (p : Phase) : (s.setPhase p).clLen = s.clLen := rfl
@[simp] theorem State.setPhase_lens (s : State) (p : Phase) : (s.setPhase p).lens = s.lens := rfl
@[simp] theorem State.setPhase_bfinal (s : State) (p : Phase) : (s.setPhase p).bfinal = s.bfinal := rfl
@[simp] theorem State.setPhase_btype (s : State) (p : Phase) : (s.setPhase p).btype = s.btype := rfl
@[simp] theorem State.setPhase_hlit (s : State) (p : Phase) : (s.setPhase p).hlit = s.hlit := rfl
@[simp] theorem State.setPhase_hdist (s : State) (p : Phase) : (s.setPhase p).hdist = s.hdist := rfl
@[simp] theorem State.setPhase_hclen (s : State) (p : Phase) : (s.setPhase p).hclen = s.hclen := rfl
@[simp] theorem State.setPhase_phase (s : State) (p : Phase) : (s.setPhase p).phase = p := rfl
@[simp] theorem State.setPhase_pos (s : State) (p : Phase) : (s.setPhase p).pos = s.pos := rfl
@[simp] theorem State.setPhase_i (s : State) (p : Phase) : (s.setPhase p).i = s.i := rfl
@[simp] theorem State.setPhase_blCount (s : State) (p : Phase) : (s.setPhase p).blCount = s.blCount := rfl
@[simp] theorem State.setPhase_nextCode (s : State) (p : Phase) : (s.setPhase p).nextCode = s.nextCode := rfl
@[simp] theorem State.setPhase_length (s : State) (p : Phase) : (s.setPhase p).length = s.length := rfl
@[simp] theorem State.setPhase_distance (s : State) (p : Phase) : (s.setPhase p).distance = s.distance := rfl
@[simp] theorem State.setPhase_src (s : State) (p : Phase) : (s.setPhase p).src = s.src := rfl
@[simp] theorem State.setPhase_remaining (s : State) (p : Phase) : (s.setPhase p).remaining = s.remaining := rfl
@[simp] theorem State.setPhase_status (s : State) (p : Phase) : (s.setPhase p).status = s.status := rfl
@[simp] theorem State.setPhase_errorKind (s : State) (p : Phase) : (s.setPhase p).errorKind = s.errorKind := rfl
@[simp] theorem State.setPhase_frame (s : State) (p : Phase) : (s.setPhase p).frame = s.frame := rfl
@[simp] theorem State.setPhase_capacity (s : State) (p : Phase) : (s.setPhase p).capacity = s.capacity := rfl
@[simp] theorem State.setPhase_input (s : State) (p : Phase) : (s.setPhase p).input = s.input := rfl

@[simp] theorem State.setPos_params (s : State) (p : Pos) : (s.setPos p).params = s.params := rfl
@[simp] theorem State.setPos_inbox (s : State) (p : Pos) : (s.setPos p).inbox = s.inbox := rfl
@[simp] theorem State.setPos_pc (s : State) (p : Pos) : (s.setPos p).pc = s.pc := rfl
@[simp] theorem State.setPos_out (s : State) (p : Pos) : (s.setPos p).out = s.out := rfl
@[simp] theorem State.setPos_outPos (s : State) (p : Pos) : (s.setPos p).outPos = s.outPos := rfl
@[simp] theorem State.setPos_win (s : State) (p : Pos) : (s.setPos p).win = s.win := rfl
@[simp] theorem State.setPos_cursor (s : State) (p : Pos) : (s.setPos p).cursor = s.cursor := rfl
@[simp] theorem State.setPos_emitted (s : State) (p : Pos) : (s.setPos p).emitted = s.emitted := rfl
@[simp] theorem State.setPos_clTree (s : State) (p : Pos) : (s.setPos p).clTree = s.clTree := rfl
@[simp] theorem State.setPos_llTree (s : State) (p : Pos) : (s.setPos p).llTree = s.llTree := rfl
@[simp] theorem State.setPos_dTree (s : State) (p : Pos) : (s.setPos p).dTree = s.dTree := rfl
@[simp] theorem State.setPos_clLen (s : State) (p : Pos) : (s.setPos p).clLen = s.clLen := rfl
@[simp] theorem State.setPos_lens (s : State) (p : Pos) : (s.setPos p).lens = s.lens := rfl
@[simp] theorem State.setPos_bfinal (s : State) (p : Pos) : (s.setPos p).bfinal = s.bfinal := rfl
@[simp] theorem State.setPos_btype (s : State) (p : Pos) : (s.setPos p).btype = s.btype := rfl
@[simp] theorem State.setPos_hlit (s : State) (p : Pos) : (s.setPos p).hlit = s.hlit := rfl
@[simp] theorem State.setPos_hdist (s : State) (p : Pos) : (s.setPos p).hdist = s.hdist := rfl
@[simp] theorem State.setPos_hclen (s : State) (p : Pos) : (s.setPos p).hclen = s.hclen := rfl
@[simp] theorem State.setPos_phase (s : State) (p : Pos) : (s.setPos p).phase = s.phase := rfl
@[simp] theorem State.setPos_pos (s : State) (p : Pos) : (s.setPos p).pos = p := rfl
@[simp] theorem State.setPos_i (s : State) (p : Pos) : (s.setPos p).i = s.i := rfl
@[simp] theorem State.setPos_blCount (s : State) (p : Pos) : (s.setPos p).blCount = s.blCount := rfl
@[simp] theorem State.setPos_nextCode (s : State) (p : Pos) : (s.setPos p).nextCode = s.nextCode := rfl
@[simp] theorem State.setPos_length (s : State) (p : Pos) : (s.setPos p).length = s.length := rfl
@[simp] theorem State.setPos_distance (s : State) (p : Pos) : (s.setPos p).distance = s.distance := rfl
@[simp] theorem State.setPos_src (s : State) (p : Pos) : (s.setPos p).src = s.src := rfl
@[simp] theorem State.setPos_remaining (s : State) (p : Pos) : (s.setPos p).remaining = s.remaining := rfl
@[simp] theorem State.setPos_status (s : State) (p : Pos) : (s.setPos p).status = s.status := rfl
@[simp] theorem State.setPos_errorKind (s : State) (p : Pos) : (s.setPos p).errorKind = s.errorKind := rfl
@[simp] theorem State.setPos_frame (s : State) (p : Pos) : (s.setPos p).frame = s.frame := rfl
@[simp] theorem State.setPos_capacity (s : State) (p : Pos) : (s.setPos p).capacity = s.capacity := rfl
@[simp] theorem State.setPos_input (s : State) (p : Pos) : (s.setPos p).input = s.input := rfl

@[simp] theorem State.setHlit_params (s : State) (n : Nat) : (s.setHlit n).params = s.params := rfl
@[simp] theorem State.setHlit_inbox (s : State) (n : Nat) : (s.setHlit n).inbox = s.inbox := rfl
@[simp] theorem State.setHlit_pc (s : State) (n : Nat) : (s.setHlit n).pc = s.pc := rfl
@[simp] theorem State.setHlit_out (s : State) (n : Nat) : (s.setHlit n).out = s.out := rfl
@[simp] theorem State.setHlit_outPos (s : State) (n : Nat) : (s.setHlit n).outPos = s.outPos := rfl
@[simp] theorem State.setHlit_win (s : State) (n : Nat) : (s.setHlit n).win = s.win := rfl
@[simp] theorem State.setHlit_cursor (s : State) (n : Nat) : (s.setHlit n).cursor = s.cursor := rfl
@[simp] theorem State.setHlit_emitted (s : State) (n : Nat) : (s.setHlit n).emitted = s.emitted := rfl
@[simp] theorem State.setHlit_clTree (s : State) (n : Nat) : (s.setHlit n).clTree = s.clTree := rfl
@[simp] theorem State.setHlit_llTree (s : State) (n : Nat) : (s.setHlit n).llTree = s.llTree := rfl
@[simp] theorem State.setHlit_dTree (s : State) (n : Nat) : (s.setHlit n).dTree = s.dTree := rfl
@[simp] theorem State.setHlit_clLen (s : State) (n : Nat) : (s.setHlit n).clLen = s.clLen := rfl
@[simp] theorem State.setHlit_lens (s : State) (n : Nat) : (s.setHlit n).lens = s.lens := rfl
@[simp] theorem State.setHlit_bfinal (s : State) (n : Nat) : (s.setHlit n).bfinal = s.bfinal := rfl
@[simp] theorem State.setHlit_btype (s : State) (n : Nat) : (s.setHlit n).btype = s.btype := rfl
@[simp] theorem State.setHlit_hlit (s : State) (n : Nat) : (s.setHlit n).hlit = n := rfl
@[simp] theorem State.setHlit_hdist (s : State) (n : Nat) : (s.setHlit n).hdist = s.hdist := rfl
@[simp] theorem State.setHlit_hclen (s : State) (n : Nat) : (s.setHlit n).hclen = s.hclen := rfl
@[simp] theorem State.setHlit_phase (s : State) (n : Nat) : (s.setHlit n).phase = s.phase := rfl
@[simp] theorem State.setHlit_pos (s : State) (n : Nat) : (s.setHlit n).pos = s.pos := rfl
@[simp] theorem State.setHlit_i (s : State) (n : Nat) : (s.setHlit n).i = s.i := rfl
@[simp] theorem State.setHlit_blCount (s : State) (n : Nat) : (s.setHlit n).blCount = s.blCount := rfl
@[simp] theorem State.setHlit_nextCode (s : State) (n : Nat) : (s.setHlit n).nextCode = s.nextCode := rfl
@[simp] theorem State.setHlit_length (s : State) (n : Nat) : (s.setHlit n).length = s.length := rfl
@[simp] theorem State.setHlit_distance (s : State) (n : Nat) : (s.setHlit n).distance = s.distance := rfl
@[simp] theorem State.setHlit_src (s : State) (n : Nat) : (s.setHlit n).src = s.src := rfl
@[simp] theorem State.setHlit_remaining (s : State) (n : Nat) : (s.setHlit n).remaining = s.remaining := rfl
@[simp] theorem State.setHlit_status (s : State) (n : Nat) : (s.setHlit n).status = s.status := rfl
@[simp] theorem State.setHlit_errorKind (s : State) (n : Nat) : (s.setHlit n).errorKind = s.errorKind := rfl
@[simp] theorem State.setHlit_frame (s : State) (n : Nat) : (s.setHlit n).frame = s.frame := rfl
@[simp] theorem State.setHlit_capacity (s : State) (n : Nat) : (s.setHlit n).capacity = s.capacity := rfl
@[simp] theorem State.setHlit_input (s : State) (n : Nat) : (s.setHlit n).input = s.input := rfl

@[simp] theorem State.setHdist_params (s : State) (n : Nat) : (s.setHdist n).params = s.params := rfl
@[simp] theorem State.setHdist_inbox (s : State) (n : Nat) : (s.setHdist n).inbox = s.inbox := rfl
@[simp] theorem State.setHdist_pc (s : State) (n : Nat) : (s.setHdist n).pc = s.pc := rfl
@[simp] theorem State.setHdist_out (s : State) (n : Nat) : (s.setHdist n).out = s.out := rfl
@[simp] theorem State.setHdist_outPos (s : State) (n : Nat) : (s.setHdist n).outPos = s.outPos := rfl
@[simp] theorem State.setHdist_win (s : State) (n : Nat) : (s.setHdist n).win = s.win := rfl
@[simp] theorem State.setHdist_cursor (s : State) (n : Nat) : (s.setHdist n).cursor = s.cursor := rfl
@[simp] theorem State.setHdist_emitted (s : State) (n : Nat) : (s.setHdist n).emitted = s.emitted := rfl
@[simp] theorem State.setHdist_clTree (s : State) (n : Nat) : (s.setHdist n).clTree = s.clTree := rfl
@[simp] theorem State.setHdist_llTree (s : State) (n : Nat) : (s.setHdist n).llTree = s.llTree := rfl
@[simp] theorem State.setHdist_dTree (s : State) (n : Nat) : (s.setHdist n).dTree = s.dTree := rfl
@[simp] theorem State.setHdist_clLen (s : State) (n : Nat) : (s.setHdist n).clLen = s.clLen := rfl
@[simp] theorem State.setHdist_lens (s : State) (n : Nat) : (s.setHdist n).lens = s.lens := rfl
@[simp] theorem State.setHdist_bfinal (s : State) (n : Nat) : (s.setHdist n).bfinal = s.bfinal := rfl
@[simp] theorem State.setHdist_btype (s : State) (n : Nat) : (s.setHdist n).btype = s.btype := rfl
@[simp] theorem State.setHdist_hlit (s : State) (n : Nat) : (s.setHdist n).hlit = s.hlit := rfl
@[simp] theorem State.setHdist_hdist (s : State) (n : Nat) : (s.setHdist n).hdist = n := rfl
@[simp] theorem State.setHdist_hclen (s : State) (n : Nat) : (s.setHdist n).hclen = s.hclen := rfl
@[simp] theorem State.setHdist_phase (s : State) (n : Nat) : (s.setHdist n).phase = s.phase := rfl
@[simp] theorem State.setHdist_pos (s : State) (n : Nat) : (s.setHdist n).pos = s.pos := rfl
@[simp] theorem State.setHdist_i (s : State) (n : Nat) : (s.setHdist n).i = s.i := rfl
@[simp] theorem State.setHdist_blCount (s : State) (n : Nat) : (s.setHdist n).blCount = s.blCount := rfl
@[simp] theorem State.setHdist_nextCode (s : State) (n : Nat) : (s.setHdist n).nextCode = s.nextCode := rfl
@[simp] theorem State.setHdist_length (s : State) (n : Nat) : (s.setHdist n).length = s.length := rfl
@[simp] theorem State.setHdist_distance (s : State) (n : Nat) : (s.setHdist n).distance = s.distance := rfl
@[simp] theorem State.setHdist_src (s : State) (n : Nat) : (s.setHdist n).src = s.src := rfl
@[simp] theorem State.setHdist_remaining (s : State) (n : Nat) : (s.setHdist n).remaining = s.remaining := rfl
@[simp] theorem State.setHdist_status (s : State) (n : Nat) : (s.setHdist n).status = s.status := rfl
@[simp] theorem State.setHdist_errorKind (s : State) (n : Nat) : (s.setHdist n).errorKind = s.errorKind := rfl
@[simp] theorem State.setHdist_frame (s : State) (n : Nat) : (s.setHdist n).frame = s.frame := rfl
@[simp] theorem State.setHdist_capacity (s : State) (n : Nat) : (s.setHdist n).capacity = s.capacity := rfl
@[simp] theorem State.setHdist_input (s : State) (n : Nat) : (s.setHdist n).input = s.input := rfl

@[simp] theorem State.setHclen_params (s : State) (n : Nat) : (s.setHclen n).params = s.params := rfl
@[simp] theorem State.setHclen_inbox (s : State) (n : Nat) : (s.setHclen n).inbox = s.inbox := rfl
@[simp] theorem State.setHclen_pc (s : State) (n : Nat) : (s.setHclen n).pc = s.pc := rfl
@[simp] theorem State.setHclen_out (s : State) (n : Nat) : (s.setHclen n).out = s.out := rfl
@[simp] theorem State.setHclen_outPos (s : State) (n : Nat) : (s.setHclen n).outPos = s.outPos := rfl
@[simp] theorem State.setHclen_win (s : State) (n : Nat) : (s.setHclen n).win = s.win := rfl
@[simp] theorem State.setHclen_cursor (s : State) (n : Nat) : (s.setHclen n).cursor = s.cursor := rfl
@[simp] theorem State.setHclen_emitted (s : State) (n : Nat) : (s.setHclen n).emitted = s.emitted := rfl
@[simp] theorem State.setHclen_clTree (s : State) (n : Nat) : (s.setHclen n).clTree = s.clTree := rfl
@[simp] theorem State.setHclen_llTree (s : State) (n : Nat) : (s.setHclen n).llTree = s.llTree := rfl
@[simp] theorem State.setHclen_dTree (s : State) (n : Nat) : (s.setHclen n).dTree = s.dTree := rfl
@[simp] theorem State.setHclen_clLen (s : State) (n : Nat) : (s.setHclen n).clLen = s.clLen := rfl
@[simp] theorem State.setHclen_lens (s : State) (n : Nat) : (s.setHclen n).lens = s.lens := rfl
@[simp] theorem State.setHclen_bfinal (s : State) (n : Nat) : (s.setHclen n).bfinal = s.bfinal := rfl
@[simp] theorem State.setHclen_btype (s : State) (n : Nat) : (s.setHclen n).btype = s.btype := rfl
@[simp] theorem State.setHclen_hlit (s : State) (n : Nat) : (s.setHclen n).hlit = s.hlit := rfl
@[simp] theorem State.setHclen_hdist (s : State) (n : Nat) : (s.setHclen n).hdist = s.hdist := rfl
@[simp] theorem State.setHclen_hclen (s : State) (n : Nat) : (s.setHclen n).hclen = n := rfl
@[simp] theorem State.setHclen_phase (s : State) (n : Nat) : (s.setHclen n).phase = s.phase := rfl
@[simp] theorem State.setHclen_pos (s : State) (n : Nat) : (s.setHclen n).pos = s.pos := rfl
@[simp] theorem State.setHclen_i (s : State) (n : Nat) : (s.setHclen n).i = s.i := rfl
@[simp] theorem State.setHclen_blCount (s : State) (n : Nat) : (s.setHclen n).blCount = s.blCount := rfl
@[simp] theorem State.setHclen_nextCode (s : State) (n : Nat) : (s.setHclen n).nextCode = s.nextCode := rfl
@[simp] theorem State.setHclen_length (s : State) (n : Nat) : (s.setHclen n).length = s.length := rfl
@[simp] theorem State.setHclen_distance (s : State) (n : Nat) : (s.setHclen n).distance = s.distance := rfl
@[simp] theorem State.setHclen_src (s : State) (n : Nat) : (s.setHclen n).src = s.src := rfl
@[simp] theorem State.setHclen_remaining (s : State) (n : Nat) : (s.setHclen n).remaining = s.remaining := rfl
@[simp] theorem State.setHclen_status (s : State) (n : Nat) : (s.setHclen n).status = s.status := rfl
@[simp] theorem State.setHclen_errorKind (s : State) (n : Nat) : (s.setHclen n).errorKind = s.errorKind := rfl
@[simp] theorem State.setHclen_frame (s : State) (n : Nat) : (s.setHclen n).frame = s.frame := rfl
@[simp] theorem State.setHclen_capacity (s : State) (n : Nat) : (s.setHclen n).capacity = s.capacity := rfl
@[simp] theorem State.setHclen_input (s : State) (n : Nat) : (s.setHclen n).input = s.input := rfl

@[simp] theorem State.clearClLen_params (s : State) : (s.clearClLen).params = s.params := rfl
@[simp] theorem State.clearClLen_inbox (s : State) : (s.clearClLen).inbox = s.inbox := rfl
@[simp] theorem State.clearClLen_pc (s : State) : (s.clearClLen).pc = s.pc := rfl
@[simp] theorem State.clearClLen_out (s : State) : (s.clearClLen).out = s.out := rfl
@[simp] theorem State.clearClLen_outPos (s : State) : (s.clearClLen).outPos = s.outPos := rfl
@[simp] theorem State.clearClLen_win (s : State) : (s.clearClLen).win = s.win := rfl
@[simp] theorem State.clearClLen_cursor (s : State) : (s.clearClLen).cursor = s.cursor := rfl
@[simp] theorem State.clearClLen_emitted (s : State) : (s.clearClLen).emitted = s.emitted := rfl
@[simp] theorem State.clearClLen_clTree (s : State) : (s.clearClLen).clTree = s.clTree := rfl
@[simp] theorem State.clearClLen_llTree (s : State) : (s.clearClLen).llTree = s.llTree := rfl
@[simp] theorem State.clearClLen_dTree (s : State) : (s.clearClLen).dTree = s.dTree := rfl
@[simp] theorem State.clearClLen_clLen (s : State) : (s.clearClLen).clLen = List.replicate 19 0 := rfl
@[simp] theorem State.clearClLen_lens (s : State) : (s.clearClLen).lens = s.lens := rfl
@[simp] theorem State.clearClLen_bfinal (s : State) : (s.clearClLen).bfinal = s.bfinal := rfl
@[simp] theorem State.clearClLen_btype (s : State) : (s.clearClLen).btype = s.btype := rfl
@[simp] theorem State.clearClLen_hlit (s : State) : (s.clearClLen).hlit = s.hlit := rfl
@[simp] theorem State.clearClLen_hdist (s : State) : (s.clearClLen).hdist = s.hdist := rfl
@[simp] theorem State.clearClLen_hclen (s : State) : (s.clearClLen).hclen = s.hclen := rfl
@[simp] theorem State.clearClLen_phase (s : State) : (s.clearClLen).phase = s.phase := rfl
@[simp] theorem State.clearClLen_pos (s : State) : (s.clearClLen).pos = s.pos := rfl
@[simp] theorem State.clearClLen_i (s : State) : (s.clearClLen).i = 0 := rfl
@[simp] theorem State.clearClLen_blCount (s : State) : (s.clearClLen).blCount = s.blCount := rfl
@[simp] theorem State.clearClLen_nextCode (s : State) : (s.clearClLen).nextCode = s.nextCode := rfl
@[simp] theorem State.clearClLen_length (s : State) : (s.clearClLen).length = s.length := rfl
@[simp] theorem State.clearClLen_distance (s : State) : (s.clearClLen).distance = s.distance := rfl
@[simp] theorem State.clearClLen_src (s : State) : (s.clearClLen).src = s.src := rfl
@[simp] theorem State.clearClLen_remaining (s : State) : (s.clearClLen).remaining = s.remaining := rfl
@[simp] theorem State.clearClLen_status (s : State) : (s.clearClLen).status = s.status := rfl
@[simp] theorem State.clearClLen_errorKind (s : State) : (s.clearClLen).errorKind = s.errorKind := rfl
@[simp] theorem State.clearClLen_frame (s : State) : (s.clearClLen).frame = s.frame := rfl
@[simp] theorem State.clearClLen_capacity (s : State) : (s.clearClLen).capacity = s.capacity := rfl
@[simp] theorem State.clearClLen_input (s : State) : (s.clearClLen).input = s.input := rfl

@[simp] theorem State.putClLen_params (s : State) (v : Nat) : (s.putClLen v).params = s.params := rfl
@[simp] theorem State.putClLen_inbox (s : State) (v : Nat) : (s.putClLen v).inbox = s.inbox := rfl
@[simp] theorem State.putClLen_pc (s : State) (v : Nat) : (s.putClLen v).pc = s.pc := rfl
@[simp] theorem State.putClLen_out (s : State) (v : Nat) : (s.putClLen v).out = s.out := rfl
@[simp] theorem State.putClLen_outPos (s : State) (v : Nat) : (s.putClLen v).outPos = s.outPos := rfl
@[simp] theorem State.putClLen_win (s : State) (v : Nat) : (s.putClLen v).win = s.win := rfl
@[simp] theorem State.putClLen_cursor (s : State) (v : Nat) : (s.putClLen v).cursor = s.cursor := rfl
@[simp] theorem State.putClLen_emitted (s : State) (v : Nat) : (s.putClLen v).emitted = s.emitted := rfl
@[simp] theorem State.putClLen_clTree (s : State) (v : Nat) : (s.putClLen v).clTree = s.clTree := rfl
@[simp] theorem State.putClLen_llTree (s : State) (v : Nat) : (s.putClLen v).llTree = s.llTree := rfl
@[simp] theorem State.putClLen_dTree (s : State) (v : Nat) : (s.putClLen v).dTree = s.dTree := rfl
@[simp] theorem State.putClLen_clLen (s : State) (v : Nat) : (s.putClLen v).clLen = s.clLen.set (order s.i) v := rfl
@[simp] theorem State.putClLen_lens (s : State) (v : Nat) : (s.putClLen v).lens = s.lens := rfl
@[simp] theorem State.putClLen_bfinal (s : State) (v : Nat) : (s.putClLen v).bfinal = s.bfinal := rfl
@[simp] theorem State.putClLen_btype (s : State) (v : Nat) : (s.putClLen v).btype = s.btype := rfl
@[simp] theorem State.putClLen_hlit (s : State) (v : Nat) : (s.putClLen v).hlit = s.hlit := rfl
@[simp] theorem State.putClLen_hdist (s : State) (v : Nat) : (s.putClLen v).hdist = s.hdist := rfl
@[simp] theorem State.putClLen_hclen (s : State) (v : Nat) : (s.putClLen v).hclen = s.hclen := rfl
@[simp] theorem State.putClLen_phase (s : State) (v : Nat) : (s.putClLen v).phase = s.phase := rfl
@[simp] theorem State.putClLen_pos (s : State) (v : Nat) : (s.putClLen v).pos = s.pos := rfl
@[simp] theorem State.putClLen_i (s : State) (v : Nat) : (s.putClLen v).i = s.i + 1 := rfl
@[simp] theorem State.putClLen_blCount (s : State) (v : Nat) : (s.putClLen v).blCount = s.blCount := rfl
@[simp] theorem State.putClLen_nextCode (s : State) (v : Nat) : (s.putClLen v).nextCode = s.nextCode := rfl
@[simp] theorem State.putClLen_length (s : State) (v : Nat) : (s.putClLen v).length = s.length := rfl
@[simp] theorem State.putClLen_distance (s : State) (v : Nat) : (s.putClLen v).distance = s.distance := rfl
@[simp] theorem State.putClLen_src (s : State) (v : Nat) : (s.putClLen v).src = s.src := rfl
@[simp] theorem State.putClLen_remaining (s : State) (v : Nat) : (s.putClLen v).remaining = s.remaining := rfl
@[simp] theorem State.putClLen_status (s : State) (v : Nat) : (s.putClLen v).status = s.status := rfl
@[simp] theorem State.putClLen_errorKind (s : State) (v : Nat) : (s.putClLen v).errorKind = s.errorKind := rfl
@[simp] theorem State.putClLen_frame (s : State) (v : Nat) : (s.putClLen v).frame = s.frame := rfl
@[simp] theorem State.putClLen_capacity (s : State) (v : Nat) : (s.putClLen v).capacity = s.capacity := rfl
@[simp] theorem State.putClLen_input (s : State) (v : Nat) : (s.putClLen v).input = s.input := rfl

@[simp] theorem State.putLen_params (s : State) (v : Nat) : (s.putLen v).params = s.params := rfl
@[simp] theorem State.putLen_inbox (s : State) (v : Nat) : (s.putLen v).inbox = s.inbox := rfl
@[simp] theorem State.putLen_pc (s : State) (v : Nat) : (s.putLen v).pc = s.pc := rfl
@[simp] theorem State.putLen_out (s : State) (v : Nat) : (s.putLen v).out = s.out := rfl
@[simp] theorem State.putLen_outPos (s : State) (v : Nat) : (s.putLen v).outPos = s.outPos := rfl
@[simp] theorem State.putLen_win (s : State) (v : Nat) : (s.putLen v).win = s.win := rfl
@[simp] theorem State.putLen_cursor (s : State) (v : Nat) : (s.putLen v).cursor = s.cursor := rfl
@[simp] theorem State.putLen_emitted (s : State) (v : Nat) : (s.putLen v).emitted = s.emitted := rfl
@[simp] theorem State.putLen_clTree (s : State) (v : Nat) : (s.putLen v).clTree = s.clTree := rfl
@[simp] theorem State.putLen_llTree (s : State) (v : Nat) : (s.putLen v).llTree = s.llTree := rfl
@[simp] theorem State.putLen_dTree (s : State) (v : Nat) : (s.putLen v).dTree = s.dTree := rfl
@[simp] theorem State.putLen_clLen (s : State) (v : Nat) : (s.putLen v).clLen = s.clLen := rfl
@[simp] theorem State.putLen_lens (s : State) (v : Nat) : (s.putLen v).lens = s.lens.set s.i v := rfl
@[simp] theorem State.putLen_bfinal (s : State) (v : Nat) : (s.putLen v).bfinal = s.bfinal := rfl
@[simp] theorem State.putLen_btype (s : State) (v : Nat) : (s.putLen v).btype = s.btype := rfl
@[simp] theorem State.putLen_hlit (s : State) (v : Nat) : (s.putLen v).hlit = s.hlit := rfl
@[simp] theorem State.putLen_hdist (s : State) (v : Nat) : (s.putLen v).hdist = s.hdist := rfl
@[simp] theorem State.putLen_hclen (s : State) (v : Nat) : (s.putLen v).hclen = s.hclen := rfl
@[simp] theorem State.putLen_phase (s : State) (v : Nat) : (s.putLen v).phase = s.phase := rfl
@[simp] theorem State.putLen_pos (s : State) (v : Nat) : (s.putLen v).pos = s.pos := rfl
@[simp] theorem State.putLen_i (s : State) (v : Nat) : (s.putLen v).i = s.i + 1 := rfl
@[simp] theorem State.putLen_blCount (s : State) (v : Nat) : (s.putLen v).blCount = s.blCount := rfl
@[simp] theorem State.putLen_nextCode (s : State) (v : Nat) : (s.putLen v).nextCode = s.nextCode := rfl
@[simp] theorem State.putLen_length (s : State) (v : Nat) : (s.putLen v).length = s.length := rfl
@[simp] theorem State.putLen_distance (s : State) (v : Nat) : (s.putLen v).distance = s.distance := rfl
@[simp] theorem State.putLen_src (s : State) (v : Nat) : (s.putLen v).src = s.src := rfl
@[simp] theorem State.putLen_remaining (s : State) (v : Nat) : (s.putLen v).remaining = s.remaining := rfl
@[simp] theorem State.putLen_status (s : State) (v : Nat) : (s.putLen v).status = s.status := rfl
@[simp] theorem State.putLen_errorKind (s : State) (v : Nat) : (s.putLen v).errorKind = s.errorKind := rfl
@[simp] theorem State.putLen_frame (s : State) (v : Nat) : (s.putLen v).frame = s.frame := rfl
@[simp] theorem State.putLen_capacity (s : State) (v : Nat) : (s.putLen v).capacity = s.capacity := rfl
@[simp] theorem State.putLen_input (s : State) (v : Nat) : (s.putLen v).input = s.input := rfl

@[simp] theorem State.clearI_params (s : State) : (s.clearI).params = s.params := rfl
@[simp] theorem State.clearI_inbox (s : State) : (s.clearI).inbox = s.inbox := rfl
@[simp] theorem State.clearI_pc (s : State) : (s.clearI).pc = s.pc := rfl
@[simp] theorem State.clearI_out (s : State) : (s.clearI).out = s.out := rfl
@[simp] theorem State.clearI_outPos (s : State) : (s.clearI).outPos = s.outPos := rfl
@[simp] theorem State.clearI_win (s : State) : (s.clearI).win = s.win := rfl
@[simp] theorem State.clearI_cursor (s : State) : (s.clearI).cursor = s.cursor := rfl
@[simp] theorem State.clearI_emitted (s : State) : (s.clearI).emitted = s.emitted := rfl
@[simp] theorem State.clearI_clTree (s : State) : (s.clearI).clTree = s.clTree := rfl
@[simp] theorem State.clearI_llTree (s : State) : (s.clearI).llTree = s.llTree := rfl
@[simp] theorem State.clearI_dTree (s : State) : (s.clearI).dTree = s.dTree := rfl
@[simp] theorem State.clearI_clLen (s : State) : (s.clearI).clLen = s.clLen := rfl
@[simp] theorem State.clearI_lens (s : State) : (s.clearI).lens = s.lens := rfl
@[simp] theorem State.clearI_bfinal (s : State) : (s.clearI).bfinal = s.bfinal := rfl
@[simp] theorem State.clearI_btype (s : State) : (s.clearI).btype = s.btype := rfl
@[simp] theorem State.clearI_hlit (s : State) : (s.clearI).hlit = s.hlit := rfl
@[simp] theorem State.clearI_hdist (s : State) : (s.clearI).hdist = s.hdist := rfl
@[simp] theorem State.clearI_hclen (s : State) : (s.clearI).hclen = s.hclen := rfl
@[simp] theorem State.clearI_phase (s : State) : (s.clearI).phase = s.phase := rfl
@[simp] theorem State.clearI_pos (s : State) : (s.clearI).pos = s.pos := rfl
@[simp] theorem State.clearI_i (s : State) : (s.clearI).i = 0 := rfl
@[simp] theorem State.clearI_blCount (s : State) : (s.clearI).blCount = s.blCount := rfl
@[simp] theorem State.clearI_nextCode (s : State) : (s.clearI).nextCode = s.nextCode := rfl
@[simp] theorem State.clearI_length (s : State) : (s.clearI).length = s.length := rfl
@[simp] theorem State.clearI_distance (s : State) : (s.clearI).distance = s.distance := rfl
@[simp] theorem State.clearI_src (s : State) : (s.clearI).src = s.src := rfl
@[simp] theorem State.clearI_remaining (s : State) : (s.clearI).remaining = s.remaining := rfl
@[simp] theorem State.clearI_status (s : State) : (s.clearI).status = s.status := rfl
@[simp] theorem State.clearI_errorKind (s : State) : (s.clearI).errorKind = s.errorKind := rfl
@[simp] theorem State.clearI_frame (s : State) : (s.clearI).frame = s.frame := rfl
@[simp] theorem State.clearI_capacity (s : State) : (s.clearI).capacity = s.capacity := rfl
@[simp] theorem State.clearI_input (s : State) : (s.clearI).input = s.input := rfl

@[simp] theorem State.setClTree_params (s : State) (b : Build) : (s.setClTree b).params = s.params := rfl
@[simp] theorem State.setClTree_inbox (s : State) (b : Build) : (s.setClTree b).inbox = s.inbox := rfl
@[simp] theorem State.setClTree_pc (s : State) (b : Build) : (s.setClTree b).pc = s.pc := rfl
@[simp] theorem State.setClTree_out (s : State) (b : Build) : (s.setClTree b).out = s.out := rfl
@[simp] theorem State.setClTree_outPos (s : State) (b : Build) : (s.setClTree b).outPos = s.outPos := rfl
@[simp] theorem State.setClTree_win (s : State) (b : Build) : (s.setClTree b).win = s.win := rfl
@[simp] theorem State.setClTree_cursor (s : State) (b : Build) : (s.setClTree b).cursor = s.cursor := rfl
@[simp] theorem State.setClTree_emitted (s : State) (b : Build) : (s.setClTree b).emitted = s.emitted := rfl
@[simp] theorem State.setClTree_clTree (s : State) (b : Build) : (s.setClTree b).clTree = b.tree := rfl
@[simp] theorem State.setClTree_llTree (s : State) (b : Build) : (s.setClTree b).llTree = s.llTree := rfl
@[simp] theorem State.setClTree_dTree (s : State) (b : Build) : (s.setClTree b).dTree = s.dTree := rfl
@[simp] theorem State.setClTree_clLen (s : State) (b : Build) : (s.setClTree b).clLen = s.clLen := rfl
@[simp] theorem State.setClTree_lens (s : State) (b : Build) : (s.setClTree b).lens = s.lens := rfl
@[simp] theorem State.setClTree_bfinal (s : State) (b : Build) : (s.setClTree b).bfinal = s.bfinal := rfl
@[simp] theorem State.setClTree_btype (s : State) (b : Build) : (s.setClTree b).btype = s.btype := rfl
@[simp] theorem State.setClTree_hlit (s : State) (b : Build) : (s.setClTree b).hlit = s.hlit := rfl
@[simp] theorem State.setClTree_hdist (s : State) (b : Build) : (s.setClTree b).hdist = s.hdist := rfl
@[simp] theorem State.setClTree_hclen (s : State) (b : Build) : (s.setClTree b).hclen = s.hclen := rfl
@[simp] theorem State.setClTree_phase (s : State) (b : Build) : (s.setClTree b).phase = s.phase := rfl
@[simp] theorem State.setClTree_pos (s : State) (b : Build) : (s.setClTree b).pos = s.pos := rfl
@[simp] theorem State.setClTree_i (s : State) (b : Build) : (s.setClTree b).i = s.i := rfl
@[simp] theorem State.setClTree_blCount (s : State) (b : Build) : (s.setClTree b).blCount = b.blCount := rfl
@[simp] theorem State.setClTree_nextCode (s : State) (b : Build) : (s.setClTree b).nextCode = b.nextCode := rfl
@[simp] theorem State.setClTree_length (s : State) (b : Build) : (s.setClTree b).length = s.length := rfl
@[simp] theorem State.setClTree_distance (s : State) (b : Build) : (s.setClTree b).distance = s.distance := rfl
@[simp] theorem State.setClTree_src (s : State) (b : Build) : (s.setClTree b).src = s.src := rfl
@[simp] theorem State.setClTree_remaining (s : State) (b : Build) : (s.setClTree b).remaining = s.remaining := rfl
@[simp] theorem State.setClTree_status (s : State) (b : Build) : (s.setClTree b).status = s.status := rfl
@[simp] theorem State.setClTree_errorKind (s : State) (b : Build) : (s.setClTree b).errorKind = s.errorKind := rfl
@[simp] theorem State.setClTree_frame (s : State) (b : Build) : (s.setClTree b).frame = s.frame := rfl
@[simp] theorem State.setClTree_capacity (s : State) (b : Build) : (s.setClTree b).capacity = s.capacity := rfl
@[simp] theorem State.setClTree_input (s : State) (b : Build) : (s.setClTree b).input = s.input := rfl

@[simp] theorem State.setLlTree_params (s : State) (b : Build) : (s.setLlTree b).params = s.params := rfl
@[simp] theorem State.setLlTree_inbox (s : State) (b : Build) : (s.setLlTree b).inbox = s.inbox := rfl
@[simp] theorem State.setLlTree_pc (s : State) (b : Build) : (s.setLlTree b).pc = s.pc := rfl
@[simp] theorem State.setLlTree_out (s : State) (b : Build) : (s.setLlTree b).out = s.out := rfl
@[simp] theorem State.setLlTree_outPos (s : State) (b : Build) : (s.setLlTree b).outPos = s.outPos := rfl
@[simp] theorem State.setLlTree_win (s : State) (b : Build) : (s.setLlTree b).win = s.win := rfl
@[simp] theorem State.setLlTree_cursor (s : State) (b : Build) : (s.setLlTree b).cursor = s.cursor := rfl
@[simp] theorem State.setLlTree_emitted (s : State) (b : Build) : (s.setLlTree b).emitted = s.emitted := rfl
@[simp] theorem State.setLlTree_clTree (s : State) (b : Build) : (s.setLlTree b).clTree = s.clTree := rfl
@[simp] theorem State.setLlTree_llTree (s : State) (b : Build) : (s.setLlTree b).llTree = b.tree := rfl
@[simp] theorem State.setLlTree_dTree (s : State) (b : Build) : (s.setLlTree b).dTree = s.dTree := rfl
@[simp] theorem State.setLlTree_clLen (s : State) (b : Build) : (s.setLlTree b).clLen = s.clLen := rfl
@[simp] theorem State.setLlTree_lens (s : State) (b : Build) : (s.setLlTree b).lens = s.lens := rfl
@[simp] theorem State.setLlTree_bfinal (s : State) (b : Build) : (s.setLlTree b).bfinal = s.bfinal := rfl
@[simp] theorem State.setLlTree_btype (s : State) (b : Build) : (s.setLlTree b).btype = s.btype := rfl
@[simp] theorem State.setLlTree_hlit (s : State) (b : Build) : (s.setLlTree b).hlit = s.hlit := rfl
@[simp] theorem State.setLlTree_hdist (s : State) (b : Build) : (s.setLlTree b).hdist = s.hdist := rfl
@[simp] theorem State.setLlTree_hclen (s : State) (b : Build) : (s.setLlTree b).hclen = s.hclen := rfl
@[simp] theorem State.setLlTree_phase (s : State) (b : Build) : (s.setLlTree b).phase = s.phase := rfl
@[simp] theorem State.setLlTree_pos (s : State) (b : Build) : (s.setLlTree b).pos = s.pos := rfl
@[simp] theorem State.setLlTree_i (s : State) (b : Build) : (s.setLlTree b).i = s.i := rfl
@[simp] theorem State.setLlTree_blCount (s : State) (b : Build) : (s.setLlTree b).blCount = b.blCount := rfl
@[simp] theorem State.setLlTree_nextCode (s : State) (b : Build) : (s.setLlTree b).nextCode = b.nextCode := rfl
@[simp] theorem State.setLlTree_length (s : State) (b : Build) : (s.setLlTree b).length = s.length := rfl
@[simp] theorem State.setLlTree_distance (s : State) (b : Build) : (s.setLlTree b).distance = s.distance := rfl
@[simp] theorem State.setLlTree_src (s : State) (b : Build) : (s.setLlTree b).src = s.src := rfl
@[simp] theorem State.setLlTree_remaining (s : State) (b : Build) : (s.setLlTree b).remaining = s.remaining := rfl
@[simp] theorem State.setLlTree_status (s : State) (b : Build) : (s.setLlTree b).status = s.status := rfl
@[simp] theorem State.setLlTree_errorKind (s : State) (b : Build) : (s.setLlTree b).errorKind = s.errorKind := rfl
@[simp] theorem State.setLlTree_frame (s : State) (b : Build) : (s.setLlTree b).frame = s.frame := rfl
@[simp] theorem State.setLlTree_capacity (s : State) (b : Build) : (s.setLlTree b).capacity = s.capacity := rfl
@[simp] theorem State.setLlTree_input (s : State) (b : Build) : (s.setLlTree b).input = s.input := rfl

@[simp] theorem State.setDTree_params (s : State) (b : Build) : (s.setDTree b).params = s.params := rfl
@[simp] theorem State.setDTree_inbox (s : State) (b : Build) : (s.setDTree b).inbox = s.inbox := rfl
@[simp] theorem State.setDTree_pc (s : State) (b : Build) : (s.setDTree b).pc = s.pc := rfl
@[simp] theorem State.setDTree_out (s : State) (b : Build) : (s.setDTree b).out = s.out := rfl
@[simp] theorem State.setDTree_outPos (s : State) (b : Build) : (s.setDTree b).outPos = s.outPos := rfl
@[simp] theorem State.setDTree_win (s : State) (b : Build) : (s.setDTree b).win = s.win := rfl
@[simp] theorem State.setDTree_cursor (s : State) (b : Build) : (s.setDTree b).cursor = s.cursor := rfl
@[simp] theorem State.setDTree_emitted (s : State) (b : Build) : (s.setDTree b).emitted = s.emitted := rfl
@[simp] theorem State.setDTree_clTree (s : State) (b : Build) : (s.setDTree b).clTree = s.clTree := rfl
@[simp] theorem State.setDTree_llTree (s : State) (b : Build) : (s.setDTree b).llTree = s.llTree := rfl
@[simp] theorem State.setDTree_dTree (s : State) (b : Build) : (s.setDTree b).dTree = b.tree := rfl
@[simp] theorem State.setDTree_clLen (s : State) (b : Build) : (s.setDTree b).clLen = s.clLen := rfl
@[simp] theorem State.setDTree_lens (s : State) (b : Build) : (s.setDTree b).lens = s.lens := rfl
@[simp] theorem State.setDTree_bfinal (s : State) (b : Build) : (s.setDTree b).bfinal = s.bfinal := rfl
@[simp] theorem State.setDTree_btype (s : State) (b : Build) : (s.setDTree b).btype = s.btype := rfl
@[simp] theorem State.setDTree_hlit (s : State) (b : Build) : (s.setDTree b).hlit = s.hlit := rfl
@[simp] theorem State.setDTree_hdist (s : State) (b : Build) : (s.setDTree b).hdist = s.hdist := rfl
@[simp] theorem State.setDTree_hclen (s : State) (b : Build) : (s.setDTree b).hclen = s.hclen := rfl
@[simp] theorem State.setDTree_phase (s : State) (b : Build) : (s.setDTree b).phase = s.phase := rfl
@[simp] theorem State.setDTree_pos (s : State) (b : Build) : (s.setDTree b).pos = s.pos := rfl
@[simp] theorem State.setDTree_i (s : State) (b : Build) : (s.setDTree b).i = s.i := rfl
@[simp] theorem State.setDTree_blCount (s : State) (b : Build) : (s.setDTree b).blCount = b.blCount := rfl
@[simp] theorem State.setDTree_nextCode (s : State) (b : Build) : (s.setDTree b).nextCode = b.nextCode := rfl
@[simp] theorem State.setDTree_length (s : State) (b : Build) : (s.setDTree b).length = s.length := rfl
@[simp] theorem State.setDTree_distance (s : State) (b : Build) : (s.setDTree b).distance = s.distance := rfl
@[simp] theorem State.setDTree_src (s : State) (b : Build) : (s.setDTree b).src = s.src := rfl
@[simp] theorem State.setDTree_remaining (s : State) (b : Build) : (s.setDTree b).remaining = s.remaining := rfl
@[simp] theorem State.setDTree_status (s : State) (b : Build) : (s.setDTree b).status = s.status := rfl
@[simp] theorem State.setDTree_errorKind (s : State) (b : Build) : (s.setDTree b).errorKind = s.errorKind := rfl
@[simp] theorem State.setDTree_frame (s : State) (b : Build) : (s.setDTree b).frame = s.frame := rfl
@[simp] theorem State.setDTree_capacity (s : State) (b : Build) : (s.setDTree b).capacity = s.capacity := rfl
@[simp] theorem State.setDTree_input (s : State) (b : Build) : (s.setDTree b).input = s.input := rfl

@[simp] theorem State.setLength_params (s : State) (n : Nat) : (s.setLength n).params = s.params := rfl
@[simp] theorem State.setLength_inbox (s : State) (n : Nat) : (s.setLength n).inbox = s.inbox := rfl
@[simp] theorem State.setLength_pc (s : State) (n : Nat) : (s.setLength n).pc = s.pc := rfl
@[simp] theorem State.setLength_out (s : State) (n : Nat) : (s.setLength n).out = s.out := rfl
@[simp] theorem State.setLength_outPos (s : State) (n : Nat) : (s.setLength n).outPos = s.outPos := rfl
@[simp] theorem State.setLength_win (s : State) (n : Nat) : (s.setLength n).win = s.win := rfl
@[simp] theorem State.setLength_cursor (s : State) (n : Nat) : (s.setLength n).cursor = s.cursor := rfl
@[simp] theorem State.setLength_emitted (s : State) (n : Nat) : (s.setLength n).emitted = s.emitted := rfl
@[simp] theorem State.setLength_clTree (s : State) (n : Nat) : (s.setLength n).clTree = s.clTree := rfl
@[simp] theorem State.setLength_llTree (s : State) (n : Nat) : (s.setLength n).llTree = s.llTree := rfl
@[simp] theorem State.setLength_dTree (s : State) (n : Nat) : (s.setLength n).dTree = s.dTree := rfl
@[simp] theorem State.setLength_clLen (s : State) (n : Nat) : (s.setLength n).clLen = s.clLen := rfl
@[simp] theorem State.setLength_lens (s : State) (n : Nat) : (s.setLength n).lens = s.lens := rfl
@[simp] theorem State.setLength_bfinal (s : State) (n : Nat) : (s.setLength n).bfinal = s.bfinal := rfl
@[simp] theorem State.setLength_btype (s : State) (n : Nat) : (s.setLength n).btype = s.btype := rfl
@[simp] theorem State.setLength_hlit (s : State) (n : Nat) : (s.setLength n).hlit = s.hlit := rfl
@[simp] theorem State.setLength_hdist (s : State) (n : Nat) : (s.setLength n).hdist = s.hdist := rfl
@[simp] theorem State.setLength_hclen (s : State) (n : Nat) : (s.setLength n).hclen = s.hclen := rfl
@[simp] theorem State.setLength_phase (s : State) (n : Nat) : (s.setLength n).phase = s.phase := rfl
@[simp] theorem State.setLength_pos (s : State) (n : Nat) : (s.setLength n).pos = s.pos := rfl
@[simp] theorem State.setLength_i (s : State) (n : Nat) : (s.setLength n).i = s.i := rfl
@[simp] theorem State.setLength_blCount (s : State) (n : Nat) : (s.setLength n).blCount = s.blCount := rfl
@[simp] theorem State.setLength_nextCode (s : State) (n : Nat) : (s.setLength n).nextCode = s.nextCode := rfl
@[simp] theorem State.setLength_length (s : State) (n : Nat) : (s.setLength n).length = n := rfl
@[simp] theorem State.setLength_distance (s : State) (n : Nat) : (s.setLength n).distance = s.distance := rfl
@[simp] theorem State.setLength_src (s : State) (n : Nat) : (s.setLength n).src = s.src := rfl
@[simp] theorem State.setLength_remaining (s : State) (n : Nat) : (s.setLength n).remaining = s.remaining := rfl
@[simp] theorem State.setLength_status (s : State) (n : Nat) : (s.setLength n).status = s.status := rfl
@[simp] theorem State.setLength_errorKind (s : State) (n : Nat) : (s.setLength n).errorKind = s.errorKind := rfl
@[simp] theorem State.setLength_frame (s : State) (n : Nat) : (s.setLength n).frame = s.frame := rfl
@[simp] theorem State.setLength_capacity (s : State) (n : Nat) : (s.setLength n).capacity = s.capacity := rfl
@[simp] theorem State.setLength_input (s : State) (n : Nat) : (s.setLength n).input = s.input := rfl

@[simp] theorem State.setDistance_params (s : State) (n : Nat) : (s.setDistance n).params = s.params := rfl
@[simp] theorem State.setDistance_inbox (s : State) (n : Nat) : (s.setDistance n).inbox = s.inbox := rfl
@[simp] theorem State.setDistance_pc (s : State) (n : Nat) : (s.setDistance n).pc = s.pc := rfl
@[simp] theorem State.setDistance_out (s : State) (n : Nat) : (s.setDistance n).out = s.out := rfl
@[simp] theorem State.setDistance_outPos (s : State) (n : Nat) : (s.setDistance n).outPos = s.outPos := rfl
@[simp] theorem State.setDistance_win (s : State) (n : Nat) : (s.setDistance n).win = s.win := rfl
@[simp] theorem State.setDistance_cursor (s : State) (n : Nat) : (s.setDistance n).cursor = s.cursor := rfl
@[simp] theorem State.setDistance_emitted (s : State) (n : Nat) : (s.setDistance n).emitted = s.emitted := rfl
@[simp] theorem State.setDistance_clTree (s : State) (n : Nat) : (s.setDistance n).clTree = s.clTree := rfl
@[simp] theorem State.setDistance_llTree (s : State) (n : Nat) : (s.setDistance n).llTree = s.llTree := rfl
@[simp] theorem State.setDistance_dTree (s : State) (n : Nat) : (s.setDistance n).dTree = s.dTree := rfl
@[simp] theorem State.setDistance_clLen (s : State) (n : Nat) : (s.setDistance n).clLen = s.clLen := rfl
@[simp] theorem State.setDistance_lens (s : State) (n : Nat) : (s.setDistance n).lens = s.lens := rfl
@[simp] theorem State.setDistance_bfinal (s : State) (n : Nat) : (s.setDistance n).bfinal = s.bfinal := rfl
@[simp] theorem State.setDistance_btype (s : State) (n : Nat) : (s.setDistance n).btype = s.btype := rfl
@[simp] theorem State.setDistance_hlit (s : State) (n : Nat) : (s.setDistance n).hlit = s.hlit := rfl
@[simp] theorem State.setDistance_hdist (s : State) (n : Nat) : (s.setDistance n).hdist = s.hdist := rfl
@[simp] theorem State.setDistance_hclen (s : State) (n : Nat) : (s.setDistance n).hclen = s.hclen := rfl
@[simp] theorem State.setDistance_phase (s : State) (n : Nat) : (s.setDistance n).phase = s.phase := rfl
@[simp] theorem State.setDistance_pos (s : State) (n : Nat) : (s.setDistance n).pos = s.pos := rfl
@[simp] theorem State.setDistance_i (s : State) (n : Nat) : (s.setDistance n).i = s.i := rfl
@[simp] theorem State.setDistance_blCount (s : State) (n : Nat) : (s.setDistance n).blCount = s.blCount := rfl
@[simp] theorem State.setDistance_nextCode (s : State) (n : Nat) : (s.setDistance n).nextCode = s.nextCode := rfl
@[simp] theorem State.setDistance_length (s : State) (n : Nat) : (s.setDistance n).length = s.length := rfl
@[simp] theorem State.setDistance_distance (s : State) (n : Nat) : (s.setDistance n).distance = n := rfl
@[simp] theorem State.setDistance_src (s : State) (n : Nat) : (s.setDistance n).src = s.src := rfl
@[simp] theorem State.setDistance_remaining (s : State) (n : Nat) : (s.setDistance n).remaining = s.remaining := rfl
@[simp] theorem State.setDistance_status (s : State) (n : Nat) : (s.setDistance n).status = s.status := rfl
@[simp] theorem State.setDistance_errorKind (s : State) (n : Nat) : (s.setDistance n).errorKind = s.errorKind := rfl
@[simp] theorem State.setDistance_frame (s : State) (n : Nat) : (s.setDistance n).frame = s.frame := rfl
@[simp] theorem State.setDistance_capacity (s : State) (n : Nat) : (s.setDistance n).capacity = s.capacity := rfl
@[simp] theorem State.setDistance_input (s : State) (n : Nat) : (s.setDistance n).input = s.input := rfl

@[simp] theorem State.setSrc_params (s : State) (n : Nat) : (s.setSrc n).params = s.params := rfl
@[simp] theorem State.setSrc_inbox (s : State) (n : Nat) : (s.setSrc n).inbox = s.inbox := rfl
@[simp] theorem State.setSrc_pc (s : State) (n : Nat) : (s.setSrc n).pc = s.pc := rfl
@[simp] theorem State.setSrc_out (s : State) (n : Nat) : (s.setSrc n).out = s.out := rfl
@[simp] theorem State.setSrc_outPos (s : State) (n : Nat) : (s.setSrc n).outPos = s.outPos := rfl
@[simp] theorem State.setSrc_win (s : State) (n : Nat) : (s.setSrc n).win = s.win := rfl
@[simp] theorem State.setSrc_cursor (s : State) (n : Nat) : (s.setSrc n).cursor = s.cursor := rfl
@[simp] theorem State.setSrc_emitted (s : State) (n : Nat) : (s.setSrc n).emitted = s.emitted := rfl
@[simp] theorem State.setSrc_clTree (s : State) (n : Nat) : (s.setSrc n).clTree = s.clTree := rfl
@[simp] theorem State.setSrc_llTree (s : State) (n : Nat) : (s.setSrc n).llTree = s.llTree := rfl
@[simp] theorem State.setSrc_dTree (s : State) (n : Nat) : (s.setSrc n).dTree = s.dTree := rfl
@[simp] theorem State.setSrc_clLen (s : State) (n : Nat) : (s.setSrc n).clLen = s.clLen := rfl
@[simp] theorem State.setSrc_lens (s : State) (n : Nat) : (s.setSrc n).lens = s.lens := rfl
@[simp] theorem State.setSrc_bfinal (s : State) (n : Nat) : (s.setSrc n).bfinal = s.bfinal := rfl
@[simp] theorem State.setSrc_btype (s : State) (n : Nat) : (s.setSrc n).btype = s.btype := rfl
@[simp] theorem State.setSrc_hlit (s : State) (n : Nat) : (s.setSrc n).hlit = s.hlit := rfl
@[simp] theorem State.setSrc_hdist (s : State) (n : Nat) : (s.setSrc n).hdist = s.hdist := rfl
@[simp] theorem State.setSrc_hclen (s : State) (n : Nat) : (s.setSrc n).hclen = s.hclen := rfl
@[simp] theorem State.setSrc_phase (s : State) (n : Nat) : (s.setSrc n).phase = s.phase := rfl
@[simp] theorem State.setSrc_pos (s : State) (n : Nat) : (s.setSrc n).pos = s.pos := rfl
@[simp] theorem State.setSrc_i (s : State) (n : Nat) : (s.setSrc n).i = s.i := rfl
@[simp] theorem State.setSrc_blCount (s : State) (n : Nat) : (s.setSrc n).blCount = s.blCount := rfl
@[simp] theorem State.setSrc_nextCode (s : State) (n : Nat) : (s.setSrc n).nextCode = s.nextCode := rfl
@[simp] theorem State.setSrc_length (s : State) (n : Nat) : (s.setSrc n).length = s.length := rfl
@[simp] theorem State.setSrc_distance (s : State) (n : Nat) : (s.setSrc n).distance = s.distance := rfl
@[simp] theorem State.setSrc_src (s : State) (n : Nat) : (s.setSrc n).src = n := rfl
@[simp] theorem State.setSrc_remaining (s : State) (n : Nat) : (s.setSrc n).remaining = s.remaining := rfl
@[simp] theorem State.setSrc_status (s : State) (n : Nat) : (s.setSrc n).status = s.status := rfl
@[simp] theorem State.setSrc_errorKind (s : State) (n : Nat) : (s.setSrc n).errorKind = s.errorKind := rfl
@[simp] theorem State.setSrc_frame (s : State) (n : Nat) : (s.setSrc n).frame = s.frame := rfl
@[simp] theorem State.setSrc_capacity (s : State) (n : Nat) : (s.setSrc n).capacity = s.capacity := rfl
@[simp] theorem State.setSrc_input (s : State) (n : Nat) : (s.setSrc n).input = s.input := rfl

@[simp] theorem State.setRemaining_params (s : State) (n : Nat) : (s.setRemaining n).params = s.params := rfl
@[simp] theorem State.setRemaining_inbox (s : State) (n : Nat) : (s.setRemaining n).inbox = s.inbox := rfl
@[simp] theorem State.setRemaining_pc (s : State) (n : Nat) : (s.setRemaining n).pc = s.pc := rfl
@[simp] theorem State.setRemaining_out (s : State) (n : Nat) : (s.setRemaining n).out = s.out := rfl
@[simp] theorem State.setRemaining_outPos (s : State) (n : Nat) : (s.setRemaining n).outPos = s.outPos := rfl
@[simp] theorem State.setRemaining_win (s : State) (n : Nat) : (s.setRemaining n).win = s.win := rfl
@[simp] theorem State.setRemaining_cursor (s : State) (n : Nat) : (s.setRemaining n).cursor = s.cursor := rfl
@[simp] theorem State.setRemaining_emitted (s : State) (n : Nat) : (s.setRemaining n).emitted = s.emitted := rfl
@[simp] theorem State.setRemaining_clTree (s : State) (n : Nat) : (s.setRemaining n).clTree = s.clTree := rfl
@[simp] theorem State.setRemaining_llTree (s : State) (n : Nat) : (s.setRemaining n).llTree = s.llTree := rfl
@[simp] theorem State.setRemaining_dTree (s : State) (n : Nat) : (s.setRemaining n).dTree = s.dTree := rfl
@[simp] theorem State.setRemaining_clLen (s : State) (n : Nat) : (s.setRemaining n).clLen = s.clLen := rfl
@[simp] theorem State.setRemaining_lens (s : State) (n : Nat) : (s.setRemaining n).lens = s.lens := rfl
@[simp] theorem State.setRemaining_bfinal (s : State) (n : Nat) : (s.setRemaining n).bfinal = s.bfinal := rfl
@[simp] theorem State.setRemaining_btype (s : State) (n : Nat) : (s.setRemaining n).btype = s.btype := rfl
@[simp] theorem State.setRemaining_hlit (s : State) (n : Nat) : (s.setRemaining n).hlit = s.hlit := rfl
@[simp] theorem State.setRemaining_hdist (s : State) (n : Nat) : (s.setRemaining n).hdist = s.hdist := rfl
@[simp] theorem State.setRemaining_hclen (s : State) (n : Nat) : (s.setRemaining n).hclen = s.hclen := rfl
@[simp] theorem State.setRemaining_phase (s : State) (n : Nat) : (s.setRemaining n).phase = s.phase := rfl
@[simp] theorem State.setRemaining_pos (s : State) (n : Nat) : (s.setRemaining n).pos = s.pos := rfl
@[simp] theorem State.setRemaining_i (s : State) (n : Nat) : (s.setRemaining n).i = s.i := rfl
@[simp] theorem State.setRemaining_blCount (s : State) (n : Nat) : (s.setRemaining n).blCount = s.blCount := rfl
@[simp] theorem State.setRemaining_nextCode (s : State) (n : Nat) : (s.setRemaining n).nextCode = s.nextCode := rfl
@[simp] theorem State.setRemaining_length (s : State) (n : Nat) : (s.setRemaining n).length = s.length := rfl
@[simp] theorem State.setRemaining_distance (s : State) (n : Nat) : (s.setRemaining n).distance = s.distance := rfl
@[simp] theorem State.setRemaining_src (s : State) (n : Nat) : (s.setRemaining n).src = s.src := rfl
@[simp] theorem State.setRemaining_remaining (s : State) (n : Nat) : (s.setRemaining n).remaining = n := rfl
@[simp] theorem State.setRemaining_status (s : State) (n : Nat) : (s.setRemaining n).status = s.status := rfl
@[simp] theorem State.setRemaining_errorKind (s : State) (n : Nat) : (s.setRemaining n).errorKind = s.errorKind := rfl
@[simp] theorem State.setRemaining_frame (s : State) (n : Nat) : (s.setRemaining n).frame = s.frame := rfl
@[simp] theorem State.setRemaining_capacity (s : State) (n : Nat) : (s.setRemaining n).capacity = s.capacity := rfl
@[simp] theorem State.setRemaining_input (s : State) (n : Nat) : (s.setRemaining n).input = s.input := rfl

@[simp] theorem State.pushWin_params (s : State) (b : Byte) : (s.pushWin b).params = s.params := rfl
@[simp] theorem State.pushWin_inbox (s : State) (b : Byte) : (s.pushWin b).inbox = s.inbox := rfl
@[simp] theorem State.pushWin_pc (s : State) (b : Byte) : (s.pushWin b).pc = s.pc := rfl
@[simp] theorem State.pushWin_out (s : State) (b : Byte) : (s.pushWin b).out = s.out := rfl
@[simp] theorem State.pushWin_outPos (s : State) (b : Byte) : (s.pushWin b).outPos = s.outPos := rfl
@[simp] theorem State.pushWin_win (s : State) (b : Byte) : (s.pushWin b).win = s.win.write s.cursor b := rfl
@[simp] theorem State.pushWin_cursor (s : State) (b : Byte) : (s.pushWin b).cursor = (s.cursor + 1) % s.capacity := rfl
@[simp] theorem State.pushWin_emitted (s : State) (b : Byte) : (s.pushWin b).emitted = s.emitted + 1 := rfl
@[simp] theorem State.pushWin_clTree (s : State) (b : Byte) : (s.pushWin b).clTree = s.clTree := rfl
@[simp] theorem State.pushWin_llTree (s : State) (b : Byte) : (s.pushWin b).llTree = s.llTree := rfl
@[simp] theorem State.pushWin_dTree (s : State) (b : Byte) : (s.pushWin b).dTree = s.dTree := rfl
@[simp] theorem State.pushWin_clLen (s : State) (b : Byte) : (s.pushWin b).clLen = s.clLen := rfl
@[simp] theorem State.pushWin_lens (s : State) (b : Byte) : (s.pushWin b).lens = s.lens := rfl
@[simp] theorem State.pushWin_bfinal (s : State) (b : Byte) : (s.pushWin b).bfinal = s.bfinal := rfl
@[simp] theorem State.pushWin_btype (s : State) (b : Byte) : (s.pushWin b).btype = s.btype := rfl
@[simp] theorem State.pushWin_hlit (s : State) (b : Byte) : (s.pushWin b).hlit = s.hlit := rfl
@[simp] theorem State.pushWin_hdist (s : State) (b : Byte) : (s.pushWin b).hdist = s.hdist := rfl
@[simp] theorem State.pushWin_hclen (s : State) (b : Byte) : (s.pushWin b).hclen = s.hclen := rfl
@[simp] theorem State.pushWin_phase (s : State) (b : Byte) : (s.pushWin b).phase = s.phase := rfl
@[simp] theorem State.pushWin_pos (s : State) (b : Byte) : (s.pushWin b).pos = s.pos := rfl
@[simp] theorem State.pushWin_i (s : State) (b : Byte) : (s.pushWin b).i = s.i := rfl
@[simp] theorem State.pushWin_blCount (s : State) (b : Byte) : (s.pushWin b).blCount = s.blCount := rfl
@[simp] theorem State.pushWin_nextCode (s : State) (b : Byte) : (s.pushWin b).nextCode = s.nextCode := rfl
@[simp] theorem State.pushWin_length (s : State) (b : Byte) : (s.pushWin b).length = s.length := rfl
@[simp] theorem State.pushWin_distance (s : State) (b : Byte) : (s.pushWin b).distance = s.distance := rfl
@[simp] theorem State.pushWin_src (s : State) (b : Byte) : (s.pushWin b).src = s.src := rfl
@[simp] theorem State.pushWin_remaining (s : State) (b : Byte) : (s.pushWin b).remaining = s.remaining := rfl
@[simp] theorem State.pushWin_status (s : State) (b : Byte) : (s.pushWin b).status = s.status := rfl
@[simp] theorem State.pushWin_errorKind (s : State) (b : Byte) : (s.pushWin b).errorKind = s.errorKind := rfl
@[simp] theorem State.pushWin_frame (s : State) (b : Byte) : (s.pushWin b).frame = s.frame := rfl
@[simp] theorem State.pushWin_capacity (s : State) (b : Byte) : (s.pushWin b).capacity = s.capacity := rfl
@[simp] theorem State.pushWin_input (s : State) (b : Byte) : (s.pushWin b).input = s.input := rfl

@[simp] theorem State.pushOut_params (s : State) (b : Byte) : (s.pushOut b).params = s.params := rfl
@[simp] theorem State.pushOut_inbox (s : State) (b : Byte) : (s.pushOut b).inbox = s.inbox := rfl
@[simp] theorem State.pushOut_pc (s : State) (b : Byte) : (s.pushOut b).pc = s.pc := rfl
@[simp] theorem State.pushOut_out (s : State) (b : Byte) : (s.pushOut b).out = s.out.write s.outPos b := rfl
@[simp] theorem State.pushOut_outPos (s : State) (b : Byte) : (s.pushOut b).outPos = s.outPos + 1 := rfl
@[simp] theorem State.pushOut_win (s : State) (b : Byte) : (s.pushOut b).win = s.win := rfl
@[simp] theorem State.pushOut_cursor (s : State) (b : Byte) : (s.pushOut b).cursor = s.cursor := rfl
@[simp] theorem State.pushOut_emitted (s : State) (b : Byte) : (s.pushOut b).emitted = s.emitted := rfl
@[simp] theorem State.pushOut_clTree (s : State) (b : Byte) : (s.pushOut b).clTree = s.clTree := rfl
@[simp] theorem State.pushOut_llTree (s : State) (b : Byte) : (s.pushOut b).llTree = s.llTree := rfl
@[simp] theorem State.pushOut_dTree (s : State) (b : Byte) : (s.pushOut b).dTree = s.dTree := rfl
@[simp] theorem State.pushOut_clLen (s : State) (b : Byte) : (s.pushOut b).clLen = s.clLen := rfl
@[simp] theorem State.pushOut_lens (s : State) (b : Byte) : (s.pushOut b).lens = s.lens := rfl
@[simp] theorem State.pushOut_bfinal (s : State) (b : Byte) : (s.pushOut b).bfinal = s.bfinal := rfl
@[simp] theorem State.pushOut_btype (s : State) (b : Byte) : (s.pushOut b).btype = s.btype := rfl
@[simp] theorem State.pushOut_hlit (s : State) (b : Byte) : (s.pushOut b).hlit = s.hlit := rfl
@[simp] theorem State.pushOut_hdist (s : State) (b : Byte) : (s.pushOut b).hdist = s.hdist := rfl
@[simp] theorem State.pushOut_hclen (s : State) (b : Byte) : (s.pushOut b).hclen = s.hclen := rfl
@[simp] theorem State.pushOut_phase (s : State) (b : Byte) : (s.pushOut b).phase = s.phase := rfl
@[simp] theorem State.pushOut_pos (s : State) (b : Byte) : (s.pushOut b).pos = s.pos := rfl
@[simp] theorem State.pushOut_i (s : State) (b : Byte) : (s.pushOut b).i = s.i := rfl
@[simp] theorem State.pushOut_blCount (s : State) (b : Byte) : (s.pushOut b).blCount = s.blCount := rfl
@[simp] theorem State.pushOut_nextCode (s : State) (b : Byte) : (s.pushOut b).nextCode = s.nextCode := rfl
@[simp] theorem State.pushOut_length (s : State) (b : Byte) : (s.pushOut b).length = s.length := rfl
@[simp] theorem State.pushOut_distance (s : State) (b : Byte) : (s.pushOut b).distance = s.distance := rfl
@[simp] theorem State.pushOut_src (s : State) (b : Byte) : (s.pushOut b).src = s.src := rfl
@[simp] theorem State.pushOut_remaining (s : State) (b : Byte) : (s.pushOut b).remaining = s.remaining := rfl
@[simp] theorem State.pushOut_status (s : State) (b : Byte) : (s.pushOut b).status = s.status := rfl
@[simp] theorem State.pushOut_errorKind (s : State) (b : Byte) : (s.pushOut b).errorKind = s.errorKind := rfl
@[simp] theorem State.pushOut_frame (s : State) (b : Byte) : (s.pushOut b).frame = s.frame := rfl
@[simp] theorem State.pushOut_capacity (s : State) (b : Byte) : (s.pushOut b).capacity = s.capacity := rfl
@[simp] theorem State.pushOut_input (s : State) (b : Byte) : (s.pushOut b).input = s.input := rfl

@[simp] theorem State.setError_params (s : State) (k : ErrorKind) : (s.setError k).params = s.params := rfl
@[simp] theorem State.setError_inbox (s : State) (k : ErrorKind) : (s.setError k).inbox = s.inbox := rfl
@[simp] theorem State.setError_pc (s : State) (k : ErrorKind) : (s.setError k).pc = s.pc := rfl
@[simp] theorem State.setError_out (s : State) (k : ErrorKind) : (s.setError k).out = s.out := rfl
@[simp] theorem State.setError_outPos (s : State) (k : ErrorKind) : (s.setError k).outPos = s.outPos := rfl
@[simp] theorem State.setError_win (s : State) (k : ErrorKind) : (s.setError k).win = s.win := rfl
@[simp] theorem State.setError_cursor (s : State) (k : ErrorKind) : (s.setError k).cursor = s.cursor := rfl
@[simp] theorem State.setError_emitted (s : State) (k : ErrorKind) : (s.setError k).emitted = s.emitted := rfl
@[simp] theorem State.setError_clTree (s : State) (k : ErrorKind) : (s.setError k).clTree = s.clTree := rfl
@[simp] theorem State.setError_llTree (s : State) (k : ErrorKind) : (s.setError k).llTree = s.llTree := rfl
@[simp] theorem State.setError_dTree (s : State) (k : ErrorKind) : (s.setError k).dTree = s.dTree := rfl
@[simp] theorem State.setError_clLen (s : State) (k : ErrorKind) : (s.setError k).clLen = s.clLen := rfl
@[simp] theorem State.setError_lens (s : State) (k : ErrorKind) : (s.setError k).lens = s.lens := rfl
@[simp] theorem State.setError_bfinal (s : State) (k : ErrorKind) : (s.setError k).bfinal = s.bfinal := rfl
@[simp] theorem State.setError_btype (s : State) (k : ErrorKind) : (s.setError k).btype = s.btype := rfl
@[simp] theorem State.setError_hlit (s : State) (k : ErrorKind) : (s.setError k).hlit = s.hlit := rfl
@[simp] theorem State.setError_hdist (s : State) (k : ErrorKind) : (s.setError k).hdist = s.hdist := rfl
@[simp] theorem State.setError_hclen (s : State) (k : ErrorKind) : (s.setError k).hclen = s.hclen := rfl
@[simp] theorem State.setError_phase (s : State) (k : ErrorKind) : (s.setError k).phase = .error := rfl
@[simp] theorem State.setError_pos (s : State) (k : ErrorKind) : (s.setError k).pos = s.pos := rfl
@[simp] theorem State.setError_i (s : State) (k : ErrorKind) : (s.setError k).i = s.i := rfl
@[simp] theorem State.setError_blCount (s : State) (k : ErrorKind) : (s.setError k).blCount = s.blCount := rfl
@[simp] theorem State.setError_nextCode (s : State) (k : ErrorKind) : (s.setError k).nextCode = s.nextCode := rfl
@[simp] theorem State.setError_length (s : State) (k : ErrorKind) : (s.setError k).length = s.length := rfl
@[simp] theorem State.setError_distance (s : State) (k : ErrorKind) : (s.setError k).distance = s.distance := rfl
@[simp] theorem State.setError_src (s : State) (k : ErrorKind) : (s.setError k).src = s.src := rfl
@[simp] theorem State.setError_remaining (s : State) (k : ErrorKind) : (s.setError k).remaining = s.remaining := rfl
@[simp] theorem State.setError_status (s : State) (k : ErrorKind) : (s.setError k).status = .error := rfl
@[simp] theorem State.setError_errorKind (s : State) (k : ErrorKind) : (s.setError k).errorKind = some k := rfl
@[simp] theorem State.setError_frame (s : State) (k : ErrorKind) : (s.setError k).frame = s.frame := rfl
@[simp] theorem State.setError_capacity (s : State) (k : ErrorKind) : (s.setError k).capacity = s.capacity := rfl
@[simp] theorem State.setError_input (s : State) (k : ErrorKind) : (s.setError k).input = s.input := rfl

@[simp] theorem State.setFinished_params (s : State) : (s.setFinished).params = s.params := rfl
@[simp] theorem State.setFinished_inbox (s : State) : (s.setFinished).inbox = s.inbox := rfl
@[simp] theorem State.setFinished_pc (s : State) : (s.setFinished).pc = s.pc := rfl
@[simp] theorem State.setFinished_out (s : State) : (s.setFinished).out = s.out := rfl
@[simp] theorem State.setFinished_outPos (s : State) : (s.setFinished).outPos = s.outPos := rfl
@[simp] theorem State.setFinished_win (s : State) : (s.setFinished).win = s.win := rfl
@[simp] theorem State.setFinished_cursor (s : State) : (s.setFinished).cursor = s.cursor := rfl
@[simp] theorem State.setFinished_emitted (s : State) : (s.setFinished).emitted = s.emitted := rfl
@[simp] theorem State.setFinished_clTree (s : State) : (s.setFinished).clTree = s.clTree := rfl
@[simp] theorem State.setFinished_llTree (s : State) : (s.setFinished).llTree = s.llTree := rfl
@[simp] theorem State.setFinished_dTree (s : State) : (s.setFinished).dTree = s.dTree := rfl
@[simp] theorem State.setFinished_clLen (s : State) : (s.setFinished).clLen = s.clLen := rfl
@[simp] theorem State.setFinished_lens (s : State) : (s.setFinished).lens = s.lens := rfl
@[simp] theorem State.setFinished_bfinal (s : State) : (s.setFinished).bfinal = s.bfinal := rfl
@[simp] theorem State.setFinished_btype (s : State) : (s.setFinished).btype = s.btype := rfl
@[simp] theorem State.setFinished_hlit (s : State) : (s.setFinished).hlit = s.hlit := rfl
@[simp] theorem State.setFinished_hdist (s : State) : (s.setFinished).hdist = s.hdist := rfl
@[simp] theorem State.setFinished_hclen (s : State) : (s.setFinished).hclen = s.hclen := rfl
@[simp] theorem State.setFinished_phase (s : State) : (s.setFinished).phase = .finished := rfl
@[simp] theorem State.setFinished_pos (s : State) : (s.setFinished).pos = s.pos := rfl
@[simp] theorem State.setFinished_i (s : State) : (s.setFinished).i = s.i := rfl
@[simp] theorem State.setFinished_blCount (s : State) : (s.setFinished).blCount = s.blCount := rfl
@[simp] theorem State.setFinished_nextCode (s : State) : (s.setFinished).nextCode = s.nextCode := rfl
@[simp] theorem State.setFinished_length (s : State) : (s.setFinished).length = s.length := rfl
@[simp] theorem State.setFinished_distance (s : State) : (s.setFinished).distance = s.distance := rfl
@[simp] theorem State.setFinished_src (s : State) : (s.setFinished).src = s.src := rfl
@[simp] theorem State.setFinished_remaining (s : State) : (s.setFinished).remaining = s.remaining := rfl
@[simp] theorem State.setFinished_status (s : State) : (s.setFinished).status = .finished := rfl
@[simp] theorem State.setFinished_errorKind (s : State) : (s.setFinished).errorKind = s.errorKind := rfl
@[simp] theorem State.setFinished_frame (s : State) : (s.setFinished).frame = s.frame := rfl
@[simp] theorem State.setFinished_capacity (s : State) : (s.setFinished).capacity = s.capacity := rfl
@[simp] theorem State.setFinished_input (s : State) : (s.setFinished).input = s.input := rfl

@[simp] theorem State.setFrame_params (s : State) (f : Frame) : (s.setFrame f).params = s.params := rfl
@[simp] theorem State.setFrame_inbox (s : State) (f : Frame) : (s.setFrame f).inbox = s.inbox := rfl
@[simp] theorem State.setFrame_pc (s : State) (f : Frame) : (s.setFrame f).pc = s.pc := rfl
@[simp] theorem State.setFrame_out (s : State) (f : Frame) : (s.setFrame f).out = s.out := rfl
@[simp] theorem State.setFrame_outPos (s : State) (f : Frame) : (s.setFrame f).outPos = s.outPos := rfl
@[simp] theorem State.setFrame_win (s : State) (f : Frame) : (s.setFrame f).win = s.win := rfl
@[simp] theorem State.setFrame_cursor (s : State) (f : Frame) : (s.setFrame f).cursor = s.cursor := rfl
@[simp] theorem State.setFrame_emitted (s : State) (f : Frame) : (s.setFrame f).emitted = s.emitted := rfl
@[simp] theorem State.setFrame_clTree (s : State) (f : Frame) : (s.setFrame f).clTree = s.clTree := rfl
@[simp] theorem State.setFrame_llTree (s : State) (f : Frame) : (s.setFrame f).llTree = s.llTree := rfl
@[simp] theorem State.setFrame_dTree (s : State) (f : Frame) : (s.setFrame f).dTree = s.dTree := rfl
@[simp] theorem State.setFrame_clLen (s : State) (f : Frame) : (s.setFrame f).clLen = s.clLen := rfl
@[simp] theorem State.setFrame_lens (s : State) (f : Frame) : (s.setFrame f).lens = s.lens := rfl
@[simp] theorem State.setFrame_bfinal (s : State) (f : Frame) : (s.setFrame f).bfinal = s.bfinal := rfl
@[simp] theorem State.setFrame_btype (s : State) (f : Frame) : (s.setFrame f).btype = s.btype := rfl
@[simp] theorem State.setFrame_hlit (s : State) (f : Frame) : (s.setFrame f).hlit = s.hlit := rfl
@[simp] theorem State.setFrame_hdist (s : State) (f : Frame) : (s.setFrame f).hdist = s.hdist := rfl
@[simp] theorem State.setFrame_hclen (s : State) (f : Frame) : (s.setFrame f).hclen = s.hclen := rfl
@[simp] theorem State.setFrame_phase (s : State) (f : Frame) : (s.setFrame f).phase = s.phase := rfl
@[simp] theorem State.setFrame_pos (s : State) (f : Frame) : (s.setFrame f).pos = s.pos := rfl
@[simp] theorem State.setFrame_i (s : State) (f : Frame) : (s.setFrame f).i = s.i := rfl
@[simp] theorem State.setFrame_blCount (s : State) (f : Frame) : (s.setFrame f).blCount = s.blCount := rfl
@[simp] theorem State.setFrame_nextCode (s : State) (f : Frame) : (s.setFrame f).nextCode = s.nextCode := rfl
@[simp] theorem State.setFrame_length (s : State) (f : Frame) : (s.setFrame f).length = s.length := rfl
@[simp] theorem State.setFrame_distance (s : State) (f : Frame) : (s.setFrame f).distance = s.distance := rfl
@[simp] theorem State.setFrame_src (s : State) (f : Frame) : (s.setFrame f).src = s.src := rfl
@[simp] theorem State.setFrame_remaining (s : State) (f : Frame) : (s.setFrame f).remaining = s.remaining := rfl
@[simp] theorem State.setFrame_status (s : State) (f : Frame) : (s.setFrame f).status = s.status := rfl
@[simp] theorem State.setFrame_errorKind (s : State) (f : Frame) : (s.setFrame f).errorKind = s.errorKind := rfl
@[simp] theorem State.setFrame_frame (s : State) (f : Frame) : (s.setFrame f).frame = f := rfl
@[simp] theorem State.setFrame_capacity (s : State) (f : Frame) : (s.setFrame f).capacity = s.capacity := rfl
@[simp] theorem State.setFrame_input (s : State) (f : Frame) : (s.setFrame f).input = s.input := rfl

@[simp] theorem State.setInbox_params (s : State) (cs : List Command) : (s.setInbox cs).params = s.params := rfl
@[simp] theorem State.setInbox_inbox (s : State) (cs : List Command) : (s.setInbox cs).inbox = cs := rfl
@[simp] theorem State.setInbox_pc (s : State) (cs : List Command) : (s.setInbox cs).pc = s.pc := rfl
@[simp] theorem State.setInbox_out (s : State) (cs : List Command) : (s.setInbox cs).out = s.out := rfl
@[simp] theorem State.setInbox_outPos (s : State) (cs : List Command) : (s.setInbox cs).outPos = s.outPos := rfl
@[simp] theorem State.setInbox_win (s : State) (cs : List Command) : (s.setInbox cs).win = s.win := rfl
@[simp] theorem State.setInbox_cursor (s : State) (cs : List Command) : (s.setInbox cs).cursor = s.cursor := rfl
@[simp] theorem State.setInbox_emitted (s : State) (cs : List Command) : (s.setInbox cs).emitted = s.emitted := rfl
@[simp] theorem State.setInbox_clTree (s : State) (cs : List Command) : (s.setInbox cs).clTree = s.clTree := rfl
@[simp] theorem State.setInbox_llTree (s : State) (cs : List Command) : (s.setInbox cs).llTree = s.llTree := rfl
@[simp] theorem State.setInbox_dTree (s : State) (cs : List Command) : (s.setInbox cs).dTree = s.dTree := rfl
@[simp] theorem State.setInbox_clLen (s : State) (cs : List Command) : (s.setInbox cs).clLen = s.clLen := rfl
@[simp] theorem State.setInbox_lens (s : State) (cs : List Command) : (s.setInbox cs).lens = s.lens := rfl
@[simp] theorem State.setInbox_bfinal (s : State) (cs : List Command) : (s.setInbox cs).bfinal = s.bfinal := rfl
@[simp] theorem State.setInbox_btype (s : State) (cs : List Command) : (s.setInbox cs).btype = s.btype := rfl
@[simp] theorem State.setInbox_hlit (s : State) (cs : List Command) : (s.setInbox cs).hlit = s.hlit := rfl
@[simp] theorem State.setInbox_hdist (s : State) (cs : List Command) : (s.setInbox cs).hdist = s.hdist := rfl
@[simp] theorem State.setInbox_hclen (s : State) (cs : List Command) : (s.setInbox cs).hclen = s.hclen := rfl
@[simp] theorem State.setInbox_phase (s : State) (cs : List Command) : (s.setInbox cs).phase = s.phase := rfl
@[simp] theorem State.setInbox_pos (s : State) (cs : List Command) : (s.setInbox cs).pos = s.pos := rfl
@[simp] theorem State.setInbox_i (s : State) (cs : List Command) : (s.setInbox cs).i = s.i := rfl
@[simp] theorem State.setInbox_blCount (s : State) (cs : List Command) : (s.setInbox cs).blCount = s.blCount := rfl
@[simp] theorem State.setInbox_nextCode (s : State) (cs : List Command) : (s.setInbox cs).nextCode = s.nextCode := rfl
@[simp] theorem State.setInbox_length (s : State) (cs : List Command) : (s.setInbox cs).length = s.length := rfl
@[simp] theorem State.setInbox_distance (s : State) (cs : List Command) : (s.setInbox cs).distance = s.distance := rfl
@[simp] theorem State.setInbox_src (s : State) (cs : List Command) : (s.setInbox cs).src = s.src := rfl
@[simp] theorem State.setInbox_remaining (s : State) (cs : List Command) : (s.setInbox cs).remaining = s.remaining := rfl
@[simp] theorem State.setInbox_status (s : State) (cs : List Command) : (s.setInbox cs).status = s.status := rfl
@[simp] theorem State.setInbox_errorKind (s : State) (cs : List Command) : (s.setInbox cs).errorKind = s.errorKind := rfl
@[simp] theorem State.setInbox_frame (s : State) (cs : List Command) : (s.setInbox cs).frame = s.frame := rfl
@[simp] theorem State.setInbox_capacity (s : State) (cs : List Command) : (s.setInbox cs).capacity = s.capacity := rfl
@[simp] theorem State.setInbox_input (s : State) (cs : List Command) : (s.setInbox cs).input = s.input := rfl

end Sys2Proof.Machine
end

