-- ==== Sys2Proof/Laws/Ops.lean ====
section
/-! SUPPORT. What each shared operation of Machine/Ops.lean can do, said once. -/

namespace Sys2Proof.Machine

/-! ### Sequencing -/

@[simp] theorem Op.bind_ok {α β : Type} (v : α) (s : State) (f : α → State → Op β) : (Op.ok v s).bind f = f v s := rfl
@[simp] theorem Op.bind_raised {α β : Type} (s : State) (f : α → State → Op β) :
    (Op.raised s : Op α).bind f = .raised s := rfl
@[simp] theorem Op.bind_refused {α β : Type} (r : Refusal) (f : α → State → Op β) :
    (Op.refused r : Op α).bind f = .refused r := rfl
@[simp] theorem Op.outcome_ok (v : Unit) (s : State) : (Op.ok v s).outcome = .next s := rfl
@[simp] theorem Op.outcome_raised (s : State) : (Op.raised s).outcome = .next s := rfl
@[simp] theorem Op.outcome_refused (r : Refusal) : (Op.refused r : Op Unit).outcome = .refused r := rfl

/-- What an operation ends in satisfies a property: the state it answers or raises, and never a refusal. -/
def Op.Ensures {α : Type} (o : Op α) (onOk onRaised : State → Prop) : Prop :=
  match o with
  | .ok _ s => onOk s
  | .raised s => onRaised s
  | .refused _ => False

theorem Op.Ensures.bind {α β : Type} {o : Op α} {f : α → State → Op β} {P Q R : State → Prop}
    (h : o.Ensures P R) (hf : ∀ v s, P s → (f v s).Ensures Q R) : (o.bind f).Ensures Q R := by
  cases o with
  | ok v s => exact hf v s h
  | raised s => exact h
  | refused r => exact h.elim

theorem Op.Ensures.mono {α : Type} {o : Op α} {P Q P' Q' : State → Prop} (h : o.Ensures P Q)
    (hP : ∀ s, P s → P' s) (hQ : ∀ s, Q s → Q' s) : o.Ensures P' Q' := by
  cases o with
  | ok v s => exact hP s h
  | raised s => exact hQ s h
  | refused r => exact h

/-- An operation that is never refused ends the step in a next state. -/
theorem Op.Ensures.outcome {o : Op Unit} {P Q : State → Prop} (h : o.Ensures P Q) :
    ∃ t, o.outcome = .next t ∧ (P t ∨ Q t) := by
  cases o with
  | ok v s => exact ⟨s, rfl, .inl h⟩
  | raised s => exact ⟨s, rfl, .inr h⟩
  | refused r => exact h.elim

/-! ### `raise` -/

/-- R210: everything `raise` can do. -/
theorem raise_of_running {s : State} (h : s.status ≠ .error) (k : ErrorKind) : raise k s = s.setError k := by
  rw [raise, if_neg h]

theorem raise_of_error {s : State} (h : s.status = .error) (k : ErrorKind) : raise k s = s := by
  rw [raise, if_pos h]

/-- R210, R211: `raise` writes `error_kind`, `phase` and `status` and nothing else. -/
theorem raise_writes (k : ErrorKind) (s : State) :
    raise k s = { s with errorKind := (raise k s).errorKind, phase := (raise k s).phase, status := (raise k s).status } := by
  rw [raise]
  split <;> rfl

@[simp] theorem raise_status (k : ErrorKind) (s : State) : (raise k s).status = .error := by
  rw [raise]
  split
  · next h => exact h
  · rfl

@[simp] theorem raise_params (k : ErrorKind) (s : State) : (raise k s).params = s.params := by rw [raise]; split <;> rfl
@[simp] theorem raise_inbox (k : ErrorKind) (s : State) : (raise k s).inbox = s.inbox := by rw [raise]; split <;> rfl
@[simp] theorem raise_pc (k : ErrorKind) (s : State) : (raise k s).pc = s.pc := by rw [raise]; split <;> rfl
@[simp] theorem raise_out (k : ErrorKind) (s : State) : (raise k s).out = s.out := by rw [raise]; split <;> rfl
@[simp] theorem raise_outPos (k : ErrorKind) (s : State) : (raise k s).outPos = s.outPos := by rw [raise]; split <;> rfl
@[simp] theorem raise_win (k : ErrorKind) (s : State) : (raise k s).win = s.win := by rw [raise]; split <;> rfl
@[simp] theorem raise_cursor (k : ErrorKind) (s : State) : (raise k s).cursor = s.cursor := by rw [raise]; split <;> rfl
@[simp] theorem raise_emitted (k : ErrorKind) (s : State) : (raise k s).emitted = s.emitted := by rw [raise]; split <;> rfl
@[simp] theorem raise_clTree (k : ErrorKind) (s : State) : (raise k s).clTree = s.clTree := by rw [raise]; split <;> rfl
@[simp] theorem raise_llTree (k : ErrorKind) (s : State) : (raise k s).llTree = s.llTree := by rw [raise]; split <;> rfl
@[simp] theorem raise_dTree (k : ErrorKind) (s : State) : (raise k s).dTree = s.dTree := by rw [raise]; split <;> rfl
@[simp] theorem raise_clLen (k : ErrorKind) (s : State) : (raise k s).clLen = s.clLen := by rw [raise]; split <;> rfl
@[simp] theorem raise_lens (k : ErrorKind) (s : State) : (raise k s).lens = s.lens := by rw [raise]; split <;> rfl
@[simp] theorem raise_bfinal (k : ErrorKind) (s : State) : (raise k s).bfinal = s.bfinal := by rw [raise]; split <;> rfl
@[simp] theorem raise_btype (k : ErrorKind) (s : State) : (raise k s).btype = s.btype := by rw [raise]; split <;> rfl
@[simp] theorem raise_hlit (k : ErrorKind) (s : State) : (raise k s).hlit = s.hlit := by rw [raise]; split <;> rfl
@[simp] theorem raise_hdist (k : ErrorKind) (s : State) : (raise k s).hdist = s.hdist := by rw [raise]; split <;> rfl
@[simp] theorem raise_hclen (k : ErrorKind) (s : State) : (raise k s).hclen = s.hclen := by rw [raise]; split <;> rfl
@[simp] theorem raise_pos (k : ErrorKind) (s : State) : (raise k s).pos = s.pos := by rw [raise]; split <;> rfl
@[simp] theorem raise_i (k : ErrorKind) (s : State) : (raise k s).i = s.i := by rw [raise]; split <;> rfl
@[simp] theorem raise_blCount (k : ErrorKind) (s : State) : (raise k s).blCount = s.blCount := by rw [raise]; split <;> rfl
@[simp] theorem raise_nextCode (k : ErrorKind) (s : State) : (raise k s).nextCode = s.nextCode := by rw [raise]; split <;> rfl
@[simp] theorem raise_length (k : ErrorKind) (s : State) : (raise k s).length = s.length := by rw [raise]; split <;> rfl
@[simp] theorem raise_distance (k : ErrorKind) (s : State) : (raise k s).distance = s.distance := by rw [raise]; split <;> rfl
@[simp] theorem raise_src (k : ErrorKind) (s : State) : (raise k s).src = s.src := by rw [raise]; split <;> rfl
@[simp] theorem raise_remaining (k : ErrorKind) (s : State) : (raise k s).remaining = s.remaining := by rw [raise]; split <;> rfl
@[simp] theorem raise_frame (k : ErrorKind) (s : State) : (raise k s).frame = s.frame := by rw [raise]; split <;> rfl
@[simp] theorem raise_capacity (k : ErrorKind) (s : State) : (raise k s).capacity = s.capacity := by rw [raise]; split <;> rfl
@[simp] theorem raise_input (k : ErrorKind) (s : State) : (raise k s).input = s.input := by rw [raise]; split <;> rfl

/-! ### The BitReader called on the state -/

@[simp] theorem State.setPc_self (s : State) : s.setPc s.pc = s := rfl

/-- R97: everything `read_bytes(count)` can do on an aligned cursor. -/
theorem callReadBytes_aligned {s : State} {n : Nat} (ha : s.pc.bit = 0) (h₁ : 1 ≤ n) (h₄ : n ≤ 4) :
    callReadBytes n s =
      if s.input.len < s.pc.byte + n then .raised (raise .streamExhausted s)
      else .ok (bytesLe s.input s.pc.byte n) (s.setPc ⟨s.pc.byte + n, s.pc.bit⟩) := by
  rw [callReadBytes, if_neg (by simp [ha]), if_neg (by omega), readBytes]
  split <;> rfl

/-- R48, D5: an unaligned `read_bytes` is refused. -/
theorem callReadBytes_unaligned {s : State} (ha : s.pc.bit ≠ 0) (n : Nat) :
    callReadBytes n s = .refused .unalignedReadBytes := by
  rw [callReadBytes, if_pos ha]

/-! ### The sink and the window -/

theorem State.capacity_pos (s : State) : 0 < s.capacity := Nat.two_pow_pos _

/-- R126: everything `append` can do. -/
theorem append_eq (b : Byte) (s : State) :
    append b s =
      if s.sinkFull then .raised (raise .bufferFull (s.pushWin b)) else .ok () ((s.pushWin b).pushOut b) := rfl

theorem State.sinkFull_eq (s : State) :
    s.sinkFull = true ↔ ∃ n, s.params.outCap = some n ∧ n ≤ s.outPos := by
  rw [State.sinkFull]
  cases s.params.outCap <;> simp

/-- R99: never full with `OUT_CAP = infinity`. -/
theorem State.sinkFull_infinite {s : State} (h : s.params.outCap = none) : s.sinkFull = false := by
  rw [State.sinkFull, h]

/-- The induction of `copy_back`'s loop, once: what every `append` and the scratch updates keep holds at its end. -/
theorem copyLoop_ensures {P R : State → Prop} (ha : ∀ b s, P s → (append b s).Ensures P R)
    (hs : ∀ s n k, P s → P ((s.setSrc n).setRemaining k)) : ∀ (n : Nat) (s : State), P s → (copyLoop n s).Ensures P R
  | 0, _, h => h
  | n + 1, s, h => (ha _ s h).bind fun _ s₁ h₁ => copyLoop_ensures ha hs n _ (hs s₁ _ _ h₁)

/-- R127, R128: everything `copy_back` can do. -/
theorem copyBack_ensures {P R : State → Prop} (ha : ∀ b s, P s → (append b s).Ensures P R)
    (hs : ∀ s n k, P s → P ((s.setSrc n).setRemaining k)) (hr : ∀ s, P s → R (raise .invalidDistance s))
    (length distance : Nat) (s : State) (h : P s) : (copyBack length distance s).Ensures P R := by
  rw [copyBack]
  split
  · exact hr s h
  · exact copyLoop_ensures ha hs _ _ (hs s _ _ h)

/-- R127: a distance of 0, above `emitted` or above `CAPACITY` raises, before any byte is copied. -/
theorem copyBack_invalid {length distance : Nat} {s : State}
    (h : distance = 0 ∨ s.emitted < distance ∨ s.capacity < distance) :
    copyBack length distance s = .raised (raise .invalidDistance s) := by
  rw [copyBack, if_pos h]

/-! ### The invariants of the window and the sink -/

theorem State.WindowInBounds.pushWin {s : State} (h : s.WindowInBounds) (b : Byte) : (s.pushWin b).WindowInBounds := by
  obtain ⟨h₁, h₂, h₃, h₄⟩ := h
  have hpos := s.capacity_pos
  refine ⟨Nat.mod_lt _ hpos, ?_, Memory.write_wf h₃ _ _, fun a => ?_⟩
  · simp only [State.pushWin_cursor, State.pushWin_emitted, State.pushWin_capacity, h₂, Nat.mod_add_mod]
  · simp only [State.pushWin_win, State.pushWin_emitted, State.pushWin_capacity, Memory.read_write]
    split
    · next ha =>
      subst ha
      have : s.cursor ≤ s.emitted := by
        have := Nat.mod_le s.emitted s.capacity
        omega
      simp only [Option.isSome_some, true_iff]
      omega
    · next ha =>
      rw [h₄ a]
      constructor
      · rintro ⟨h, h'⟩; omega
      · rintro ⟨h, h'⟩
        refine ⟨?_, h'⟩
        by_contra hc
        have : a = s.emitted := by omega
        rw [h₂, this, Nat.mod_eq_of_lt (by omega)] at ha
        exact ha rfl

/-- R16 (a), (b): `append` keeps the window in bounds, full sink or not. -/
theorem append_windowInBounds (b : Byte) {s : State} (h : s.WindowInBounds) :
    (append b s).Ensures State.WindowInBounds State.WindowInBounds := by
  rw [append_eq]
  have hp := h.pushWin b
  split
  · simpa [Op.Ensures, State.WindowInBounds] using hp
  · exact hp

/-- R14: `append` keeps the sink in order. -/
theorem append_sinkInOrder (b : Byte) {s : State} (h : s.SinkInOrder) :
    (append b s).Ensures State.SinkInOrder State.SinkInOrder := by
  rw [append_eq]
  split
  · simpa [Op.Ensures, State.SinkInOrder] using h
  · next hf =>
    refine ⟨fun n hn => ?_, ?_⟩
    · have : ¬ n ≤ s.outPos := fun hle => hf ((s.sinkFull_eq).2 ⟨n, hn, hle⟩)
      simp only [State.pushOut_outPos, State.pushWin_outPos]
      omega
    · exact Memory.write_range h.2 b

/-- The slot `d` before the next cursor is the slot `d - 1` before this one. -/
theorem State.slot_step {s : State} (hc : s.cursor < s.capacity) {d : Nat} (h₁ : 1 ≤ d) (h₂ : d + 1 ≤ s.capacity) :
    ((s.cursor + 1) % s.capacity + s.capacity - (d + 1)) % s.capacity = (s.cursor + s.capacity - d) % s.capacity ∧
      (s.cursor + s.capacity - d) % s.capacity ≠ s.cursor := by
  have hmod : ∀ x, s.capacity ≤ x → x < 2 * s.capacity → x % s.capacity = x - s.capacity := fun x h h' => by
    rw [Nat.mod_eq_sub_mod h, Nat.mod_eq_of_lt (by omega)]
  by_cases he : s.cursor + 1 = s.capacity
  · rw [he, Nat.mod_self]
    rw [Nat.mod_eq_of_lt (by omega : 0 + s.capacity - (d + 1) < s.capacity)]
    rw [hmod _ (by omega) (by omega)]
    omega
  · rw [Nat.mod_eq_of_lt (by omega : s.cursor + 1 < s.capacity)]
    have : s.cursor + 1 + s.capacity - (d + 1) = s.cursor + s.capacity - d := by omega
    refine ⟨by rw [this], ?_⟩
    by_cases hd : d ≤ s.cursor
    · rw [hmod _ (by omega) (by omega)]; omega
    · rw [Nat.mod_eq_of_lt (by omega)]; omega

/-- R16 (c), (d): `append` keeps the history, as long as the sink has room; when it has none, `BufferFull` is
recorded. -/
theorem append_history (b : Byte) {s : State} (hw : s.WindowInBounds) (hr : s.status = .running)
    (he : s.errorKind = none) (h : s.WindowHoldsHistory) :
    (append b s).Ensures State.WindowHoldsHistory State.WindowHoldsHistory := by
  rw [append_eq]
  obtain ⟨hc, hce, -, -⟩ := hw
  obtain ⟨hep, hd⟩ := h (by simp [he])
  split
  · intro hne
    exact absurd (by rw [raise_of_running (by simp [hr])]; rfl) hne
  · intro _
    refine ⟨by simp [hep], fun d h₁ h₂ h₃ => ?_⟩
    simp only [State.pushOut_win, State.pushOut_out, State.pushOut_emitted, State.pushOut_cursor, State.pushOut_capacity,
      State.pushWin_win, State.pushWin_out, State.pushWin_emitted, State.pushWin_cursor, State.pushWin_capacity,
      State.pushWin_outPos] at h₂ h₃ ⊢
    obtain _ | d := d
    · omega
    · obtain _ | d := d
      · have hs : ((s.cursor + 1) % s.capacity + s.capacity - (0 + 1)) % s.capacity = s.cursor := by
          by_cases hcc : s.cursor + 1 = s.capacity
          · rw [hcc, Nat.mod_self, Nat.mod_eq_of_lt (by omega)]; omega
          · rw [Nat.mod_eq_of_lt (by omega : s.cursor + 1 < s.capacity)]
            rw [show s.cursor + 1 + s.capacity - (0 + 1) = s.cursor + s.capacity by omega, Nat.add_mod_right,
              Nat.mod_eq_of_lt hc]
        rw [hs, show s.emitted + 1 - (0 + 1) = s.outPos by omega]
        simp
      · obtain ⟨hs, hne⟩ := State.slot_step hc (d := d + 1) (by omega) (by omega)
        rw [hs, Memory.read_write_other _ _ hne, hd (d + 1) (by omega) (by omega) (by omega),
          show s.emitted + 1 - (d + 1 + 1) = s.emitted - (d + 1) by omega]
        rw [Memory.read_write_other]
        omega

end Sys2Proof.Machine
end

