-- ==== Sys2Proof/Laws/Append.lean ====
section
/-! SUPPORT. What a sequence of appends leaves in the window and the sink (42_sliding_window.md R125 to R129). -/

namespace Sys2Proof.Machine

theorem State.sinkFull_of_room {s : State} {n : Nat} (h : Room s (n + 1)) : s.sinkFull = false := by
  by_contra hf
  obtain ⟨cap, hc, hle⟩ := s.sinkFull_eq.1 (by simpa using hf)
  have := h cap hc
  omega

theorem append_of_room {s : State} {n : Nat} (h : Room s (n + 1)) (b : Byte) :
    append b s = .ok () ((s.pushWin b).pushOut b) := by
  rw [append_eq, State.sinkFull_of_room h]; rfl

theorem append_of_full {s : State} {cap : Nat} (hc : s.params.outCap = some cap) (h : cap ≤ s.outPos) (b : Byte) :
    append b s = .raised (raise .bufferFull (s.pushWin b)) := by
  rw [append_eq, if_pos (s.sinkFull_eq.2 ⟨cap, hc, h⟩)]

/-- No append changes neither memory. -/
theorem Appended.zero {s t : State} (b : Nat → Byte) (h : s.cursor < s.capacity) (h₁ : t.outPos = s.outPos)
    (h₂ : t.emitted = s.emitted) (h₃ : t.cursor = s.cursor) (h₄ : t.out = s.out) (h₅ : t.win = s.win) :
    Appended s t 0 b where
  outPos := by simp [h₁]
  emitted := by simp [h₂]
  cursor := by rw [h₃, Nat.add_zero, Nat.mod_eq_of_lt h]
  outNew := by omega
  outOld _ _ := by rw [h₄]
  winNew := by omega
  winOld _ _ := by rw [h₅]

/-- Only the memories and their counters of the first state matter. -/
theorem Appended.of_eq {s u t : State} {n : Nat} {b : Nat → Byte} (h : Appended u t n b) (h₁ : u.outPos = s.outPos)
    (h₂ : u.emitted = s.emitted) (h₃ : u.cursor = s.cursor) (h₄ : u.capacity = s.capacity) (h₅ : u.out = s.out)
    (h₆ : u.win = s.win) : Appended s t n b where
  outPos := by rw [h.outPos, h₁]
  emitted := by rw [h.emitted, h₂]
  cursor := by rw [h.cursor, h₃, h₄]
  outNew := by rw [← h₁]; exact h.outNew
  outOld := by rw [← h₁, ← h₅]; exact h.outOld
  winNew := by rw [← h₃, ← h₄]; exact h.winNew
  winOld := by rw [← h₃, ← h₄, ← h₆]; exact h.winOld

/-- One append, then `n` more. -/
theorem Appended.step {s u t : State} {n : Nat} {b : Nat → Byte} (h : s.cursor < s.capacity)
    (hu : u.outPos = s.outPos + 1 ∧ u.emitted = s.emitted + 1 ∧ u.cursor = (s.cursor + 1) % s.capacity ∧
      u.capacity = s.capacity ∧ u.out = s.out.write s.outPos (b 0) ∧ u.win = s.win.write s.cursor (b 0))
    (ht : Appended u t n (fun k => b (k + 1))) : Appended s t (n + 1) b := by
  obtain ⟨h₁, h₂, h₃, h₄, h₅, h₆⟩ := hu
  have hslot : ∀ k, (u.cursor + k) % u.capacity = (s.cursor + (k + 1)) % s.capacity := fun k => by
    rw [h₃, h₄, Nat.mod_add_mod]; congr 1; omega
  have hne : ∀ k < n, n + 1 ≤ s.capacity → s.cursor ≠ (s.cursor + (k + 1)) % s.capacity := fun k hk hn => by
    by_cases hlt : s.cursor + (k + 1) < s.capacity
    · rw [Nat.mod_eq_of_lt hlt]; omega
    · rw [Nat.mod_eq_sub_mod (by omega), Nat.mod_eq_of_lt (by omega)]; omega
  refine ⟨by rw [ht.outPos, h₁]; omega, by rw [ht.emitted, h₂]; omega, by rw [ht.cursor, hslot], ?_, ?_, ?_, ?_⟩
  · rintro (_ | k) hk
    · rw [ht.outOld _ (fun k _ => by rw [h₁]; omega), h₅]; simp
    · have := ht.outNew k (by omega)
      rwa [h₁, show s.outPos + 1 + k = s.outPos + (k + 1) by omega] at this
  · intro a ha
    have h0 := ha 0 (by omega)
    rw [ht.outOld a (fun k hk => by rw [h₁, show s.outPos + 1 + k = s.outPos + (k + 1) by omega]; exact ha _ (by omega)),
      h₅, Memory.read_write_other _ _ (by simpa using h0)]
  · rintro (_ | k) hk hn
    · rw [Nat.add_zero, Nat.mod_eq_of_lt h,
        ht.winOld _ (fun k hk' => by rw [hslot]; exact hne k hk' (by omega)), h₆]
      simp
    · rw [← hslot]; exact ht.winNew k (by omega) (by rw [h₄]; omega)
  · intro a ha
    have h0 := ha 0 (by omega)
    rw [Nat.add_zero, Nat.mod_eq_of_lt h] at h0
    rw [ht.winOld a (fun k hk => by rw [hslot]; exact ha _ (by omega)), h₆, Memory.read_write_other _ _ h0]

/-- The bytes of a back-reference seen after its first byte are the bytes from the second on: the byte just appended is
the one that the copy comes back to after `d` bytes (R127, R129). -/
theorem copySource_step {s u : State} {d : Nat} (h : s.cursor < s.capacity) (h₁ : 1 ≤ d) (hd : d ≤ s.capacity)
    (hc : u.cursor = (s.cursor + 1) % s.capacity) (hcap : u.capacity = s.capacity)
    (hw : u.win = s.win.write s.cursor (copySource s d 0)) (k : Nat) : copySource u d k = copySource s d (k + 1) := by
  have hmod : ∀ x, s.capacity ≤ x → x < 2 * s.capacity → x % s.capacity = x - s.capacity := fun x h h' => by
    rw [Nat.mod_eq_sub_mod h, Nat.mod_eq_of_lt (by omega)]
  have hk := Nat.mod_lt k h₁
  have haddr : (u.cursor + u.capacity - d + k % d) % u.capacity = (s.cursor + s.capacity - d + (k % d + 1)) % s.capacity := by
    rw [hc, hcap]
    by_cases he : s.cursor + 1 = s.capacity
    · rw [he, Nat.mod_self]
      rw [show s.cursor + s.capacity - d + (k % d + 1) = 0 + s.capacity - d + k % d + s.capacity by omega,
        Nat.add_mod_right]
    · rw [Nat.mod_eq_of_lt (by omega : s.cursor + 1 < s.capacity)]; congr 1; omega
  by_cases he : k % d + 1 = d
  · have hs : (k + 1) % d = 0 := by
      rw [Nat.add_mod]
      by_cases h1 : d = 1
      · subst h1; simp [Nat.mod_one]
      · rw [Nat.mod_eq_of_lt (by omega : 1 < d), he, Nat.mod_self]
    have ha : (s.cursor + s.capacity - d + (k % d + 1)) % s.capacity = s.cursor := by
      rw [he, show s.cursor + s.capacity - d + d = s.cursor + s.capacity by omega, Nat.add_mod_right, Nat.mod_eq_of_lt h]
    rw [copySource, haddr, ha, State.winByte, hw, Memory.read_write_same]
    simp [copySource, hs]
  · have hs : (k + 1) % d = k % d + 1 := by
      rw [Nat.add_mod]
      by_cases h1 : d = 1
      · subst h1; omega
      · rw [Nat.mod_eq_of_lt (by omega : 1 < d), Nat.mod_eq_of_lt (by omega)]
    have hne : (s.cursor + s.capacity - d + (k % d + 1)) % s.capacity ≠ s.cursor := by
      by_cases hlt : s.cursor + s.capacity - d + (k % d + 1) < s.capacity
      · rw [Nat.mod_eq_of_lt hlt]; omega
      · rw [hmod _ (by omega) (by omega)]; omega
    rw [copySource, haddr, State.winByte, hw, Memory.read_write_other _ _ hne, copySource, hs]; rfl

/-- What a copy leaves outside the two memories and its scratch. -/
def SameButMemories (s t : State) : Prop :=
  t = { s with src := t.src, remaining := t.remaining, out := t.out, outPos := t.outPos, win := t.win,
               cursor := t.cursor, emitted := t.emitted, pc := t.pc }

/-- One turn of the loop of `copy_back` after which `n` bytes are still to copy (R127). -/
def State.copyTurn (s : State) (b : Byte) (n : Nat) : State :=
  (((s.pushWin b).pushOut b).setSrc ((s.src + 1) % s.capacity)).setRemaining n

theorem copyLoop_succ {s : State} {n : Nat} (h : s.sinkFull = false) :
    copyLoop (n + 1) s = copyLoop n (s.copyTurn (s.winByte s.src) n) := by
  rw [copyLoop, append_eq, h]; rfl

/-- The read position keeps its distance from the cursor. -/
theorem State.copyTurn_src {s : State} {d : Nat} (hc : s.cursor < s.capacity) (h₁ : 1 ≤ d) (hd : d ≤ s.capacity)
    (hsrc : s.src = (s.cursor + s.capacity - d) % s.capacity) (b : Byte) (n : Nat) :
    (s.copyTurn b n).src = ((s.copyTurn b n).cursor + (s.copyTurn b n).capacity - d) % (s.copyTurn b n).capacity := by
  show (s.src + 1) % s.capacity = ((s.cursor + 1) % s.capacity + s.capacity - d) % s.capacity
  rw [hsrc, Nat.mod_add_mod]
  by_cases he : s.cursor + 1 = s.capacity
  · rw [he, Nat.mod_self, show s.cursor + s.capacity - d + 1 = 0 + s.capacity - d + s.capacity by omega,
      Nat.add_mod_right]
  · rw [Nat.mod_eq_of_lt (by omega : s.cursor + 1 < s.capacity)]; congr 1; omega

/-- R127: the loop of `copy_back`, where the sink has room. -/
theorem copyLoop_appended {d : Nat} (h₁ : 1 ≤ d) : ∀ (n : Nat) (s : State), s.cursor < s.capacity → d ≤ s.capacity →
    s.src = (s.cursor + s.capacity - d) % s.capacity → Room s n →
    ∃ t, copyLoop n s = .ok () t ∧ Appended s t n (copySource s d) ∧ SameButMemories s t ∧ t.pc = s.pc
  | 0, s, hc, _, _, _ => ⟨s, rfl, Appended.zero _ hc rfl rfl rfl rfl rfl, rfl, rfl⟩
  | n + 1, s, hc, hd, hsrc, hr => by
    have hb : s.winByte s.src = copySource s d 0 := by rw [copySource, Nat.zero_mod, Nat.add_zero, ← hsrc]
    rw [copyLoop_succ (State.sinkFull_of_room hr), hb]
    have hu : (fun k => copySource s d (k + 1)) = copySource (s.copyTurn (copySource s d 0) n) d :=
      funext fun k => (copySource_step (u := s.copyTurn (copySource s d 0) n) hc h₁ hd rfl rfl rfl k).symm
    obtain ⟨t, ht, ha, hs, hp⟩ := copyLoop_appended h₁ n (s.copyTurn (copySource s d 0) n)
      (Nat.mod_lt _ s.capacity_pos) hd (State.copyTurn_src hc h₁ hd hsrc _ _)
      (fun cap hcap => by have := hr cap hcap; show s.outPos + 1 + n ≤ cap; omega)
    refine ⟨t, ht, Appended.step (u := s.copyTurn (copySource s d 0) n) hc ⟨rfl, rfl, rfl, rfl, rfl, rfl⟩
      (hu ▸ ha), ?_, hp⟩
    rw [SameButMemories] at hs ⊢; rw [hs]; rfl

/-- R127, R202: the loop of `copy_back`, where the sink fills after `r` bytes and more are to come: they are copied, the
window takes one byte more, and `BufferFull` is raised. -/
theorem copyLoop_full {d cap : Nat} (h₁ : 1 ≤ d) : ∀ (r n : Nat) (s : State), s.cursor < s.capacity → d ≤ s.capacity →
    s.src = (s.cursor + s.capacity - d) % s.capacity → s.params.outCap = some cap → cap = s.outPos + r → r < n →
    ∃ t u b, copyLoop n s = .raised (raise .bufferFull (t.pushWin b)) ∧ Appended s t r (copySource s d) ∧
      SameButMemories s t ∧ u = t.pc ∧ t.pc = s.pc
  | 0, n, s, hc, _, _, hcap, he, hn => by
    obtain ⟨n, rfl⟩ := Nat.exists_eq_succ_of_ne_zero (by omega : n ≠ 0)
    refine ⟨s, _, s.winByte s.src, ?_, Appended.zero _ hc rfl rfl rfl rfl rfl, rfl, rfl, rfl⟩
    rw [copyLoop, append_of_full hcap (by omega), Op.bind_raised]
  | r + 1, n, s, hc, hd, hsrc, hcap, he, hn => by
    obtain ⟨n, rfl⟩ := Nat.exists_eq_succ_of_ne_zero (by omega : n ≠ 0)
    have hb : s.winByte s.src = copySource s d 0 := by rw [copySource, Nat.zero_mod, Nat.add_zero, ← hsrc]
    have hf : s.sinkFull = false := by
      by_contra hf
      obtain ⟨c, hc, hle⟩ := s.sinkFull_eq.1 (by simpa using hf)
      rw [hcap, Option.some.injEq] at hc
      omega
    rw [copyLoop_succ hf, hb]
    have hu : (fun k => copySource s d (k + 1)) = copySource (s.copyTurn (copySource s d 0) n) d :=
      funext fun k => (copySource_step (u := s.copyTurn (copySource s d 0) n) hc h₁ hd rfl rfl rfl k).symm
    obtain ⟨t, u, b, ht, ha, hs, hp⟩ := copyLoop_full h₁ r n (s.copyTurn (copySource s d 0) n)
      (Nat.mod_lt _ s.capacity_pos) hd (State.copyTurn_src hc h₁ hd hsrc _ _) hcap
      (by show cap = s.outPos + 1 + r; omega) (by omega)
    refine ⟨t, u, b, ht, Appended.step (u := s.copyTurn (copySource s d 0) n) hc ⟨rfl, rfl, rfl, rfl, rfl, rfl⟩
      (hu ▸ ha), ?_, hp⟩
    rw [SameButMemories] at hs ⊢; rw [hs]; rfl

/-- R127: everything a valid `copy_back` does where the sink has room. -/
theorem copyBack_appended {l d : Nat} {s : State} (hc : s.cursor < s.capacity) (h₁ : 1 ≤ d) (he : d ≤ s.emitted)
    (hd : d ≤ s.capacity) (hr : Room s l) :
    ∃ t, copyBack l d s = .ok () t ∧ Appended s t l (copySource s d) ∧ SameButMemories s t ∧ t.pc = s.pc := by
  rw [copyBack, if_neg (by omega)]
  obtain ⟨t, ht, ha, hs, hp⟩ :=
    copyLoop_appended h₁ l ((s.setSrc ((s.cursor + s.capacity - d) % s.capacity)).setRemaining l) hc hd rfl hr
  refine ⟨t, ht, ha.of_eq rfl rfl rfl rfl rfl rfl, ?_, hp⟩
  rw [SameButMemories] at hs ⊢; rw [hs]; rfl

/-! ### The stored body -/

/-- One turn of the copy loop of a stored block (43_block_decoder.md R138). -/
def State.storedTurn (s : State) (n : Nat) : State :=
  (((s.setPc ⟨s.pc.byte + 1, s.pc.bit⟩).pushWin (s.input.byte s.pc.byte)).pushOut
    (s.input.byte s.pc.byte)).setRemaining n

theorem callReadByte_ok {s : State} (ha : s.pc.bit = 0) (h : s.pc.byte < s.input.len) :
    callReadBytes 1 s = .ok (s.input.byte s.pc.byte).toNat (s.setPc ⟨s.pc.byte + 1, s.pc.bit⟩) := by
  rw [callReadBytes_aligned ha (by omega) (by omega), if_neg (by omega)]
  simp [bytesLe]

theorem callReadByte_raises {s : State} (ha : s.pc.bit = 0) (h : s.input.len ≤ s.pc.byte) :
    callReadBytes 1 s = .raised (raise .streamExhausted s) := by
  rw [callReadBytes_aligned ha (by omega) (by omega), if_pos (by omega)]

theorem copyStored_succ {s : State} {n : Nat} (ha : s.pc.bit = 0) (h : s.pc.byte < s.input.len)
    (hf : s.sinkFull = false) : copyStored (n + 1) s = copyStored n (s.storedTurn n) := by
  rw [copyStored, callReadByte_ok ha h, Op.bind_ok, append_eq, if_neg (by exact ne_true_of_eq_false hf)]
  simp only [BitVec.ofNat_toNat, BitVec.setWidth_eq]
  rfl

/-- R138: the copy loop of a stored block up to the end of the input or of the data, where the sink has room for it. -/
theorem copyStored_appended : ∀ (r n : Nat) (s : State), s.cursor < s.capacity → s.pc.bit = 0 →
    s.pc.byte + r ≤ s.input.len → Room s r →
    ∃ t, copyStored (r + n) s = copyStored n t ∧ Appended s t r (fun k => s.input.byte (s.pc.byte + k)) ∧
      SameButMemories s t ∧ t.pc = ⟨s.pc.byte + r, 0⟩ ∧ t.src = s.src
  | 0, n, s, hc, ha, _, _ =>
    ⟨s, by rw [Nat.zero_add], Appended.zero _ hc rfl rfl rfl rfl rfl, rfl, by rw [Nat.add_zero, ← ha], rfl⟩
  | r + 1, n, s, hc, ha, hl, hr => by
    have hb : (fun k => s.input.byte (s.pc.byte + (k + 1))) =
        fun k => (s.storedTurn (r + n)).input.byte ((s.storedTurn (r + n)).pc.byte + k) :=
      funext fun k => by show _ = s.input.byte (s.pc.byte + 1 + k); congr 1; omega
    obtain ⟨t, ht, happ, hs, hp, hsrc⟩ := copyStored_appended r n (s.storedTurn (r + n)) (Nat.mod_lt _ s.capacity_pos) ha
      (by show s.pc.byte + 1 + r ≤ s.input.len; omega)
      (fun cap hcap => by have := hr cap hcap; show s.outPos + 1 + r ≤ cap; omega)
    refine ⟨t, ?_, Appended.step (u := s.storedTurn (r + n)) hc ⟨rfl, rfl, rfl, rfl, rfl, rfl⟩ (hb ▸ happ), ?_, ?_, hsrc⟩
    · rw [show r + 1 + n = r + n + 1 by omega, copyStored_succ ha (by omega) (State.sinkFull_of_room hr), ht]
    · rw [SameButMemories] at hs ⊢; rw [hs]; rfl
    · rw [hp]; show (⟨s.pc.byte + 1 + r, 0⟩ : Cursor) = _; congr 1; omega

/-! ### What the copies leave alone, errors included -/

theorem SameButMemories.refl (s : State) : SameButMemories s s := rfl

theorem SameButMemories.trans {s t u : State} (h : SameButMemories s t) (h' : SameButMemories t u) :
    SameButMemories s u := by
  rw [SameButMemories] at h h' ⊢
  rw [h', h]

theorem append_sameButMemories (b : Byte) (s : State) : (append b s).Ensures (SameButMemories s)
    fun t => ∃ k u, SameButMemories s u ∧ t = raise k u := by
  rw [append_eq]
  split
  · exact ⟨_, s.pushWin b, rfl, rfl⟩
  · exact rfl

theorem Op.Ensures.after {α : Type} {s u : State} {o : Op α} (h : SameButMemories s u)
    (ho : o.Ensures (SameButMemories u) fun t => ∃ k v, SameButMemories u v ∧ t = raise k v) :
    o.Ensures (SameButMemories s) fun t => ∃ k v, SameButMemories s v ∧ t = raise k v :=
  ho.mono (fun _ h' => h.trans h') fun _ ⟨k, v, h', e⟩ => ⟨k, v, h.trans h', e⟩

/-- R127: everything the loop of `copy_back` writes: the memories, their counters and the scratch, and the registers of
an error. -/
theorem copyLoop_sameButMemories : ∀ (n : Nat) (s : State), (copyLoop n s).Ensures (SameButMemories s)
    fun t => ∃ k u, SameButMemories s u ∧ t = raise k u
  | 0, _ => rfl
  | n + 1, s => (append_sameButMemories _ s).bind fun _ s₁ h₁ =>
      Op.Ensures.after
        (h₁.trans (u := (s₁.setSrc ((s₁.src + 1) % s₁.capacity)).setRemaining n) rfl) (copyLoop_sameButMemories n _)

/-- R127: the same of `copy_back`. -/
theorem copyBack_sameButMemories (l d : Nat) (s : State) : (copyBack l d s).Ensures (SameButMemories s)
    fun t => ∃ k u, SameButMemories s u ∧ t = raise k u := by
  rw [copyBack]
  split
  · exact ⟨_, s, rfl, rfl⟩
  · exact Op.Ensures.after (u := (s.setSrc ((s.cursor + s.capacity - d) % s.capacity)).setRemaining l) rfl
      (copyLoop_sameButMemories l _)

/-- R138: the same of the copy loop of a stored block at an aligned cursor. -/
theorem copyStored_sameButMemories : ∀ (n : Nat) (s : State), s.pc.bit = 0 → (copyStored n s).Ensures (SameButMemories s)
    fun t => ∃ k u, SameButMemories s u ∧ t = raise k u
  | 0, _, _ => rfl
  | n + 1, s, ha => by
    by_cases hl : s.pc.byte < s.input.len
    · cases hf : s.sinkFull with
      | false =>
        rw [copyStored_succ ha hl hf]
        exact Op.Ensures.after (u := s.storedTurn n) rfl (copyStored_sameButMemories n _ ha)
      | true =>
        rw [copyStored, callReadByte_ok ha hl, Op.bind_ok, append_eq, if_pos (by exact hf)]
        exact ⟨_, (s.setPc ⟨s.pc.byte + 1, s.pc.bit⟩).pushWin _, rfl, rfl⟩
    · rw [copyStored, callReadByte_raises ha (by omega)]
      exact ⟨_, s, rfl, rfl⟩

end Sys2Proof.Machine
end

