-- ==== Sys2Proof/Laws/HuffmanTree.lean ====
section
/-! SUPPORT. The laws of the Huffman trees (41_huffman_tree.md R110 to R118; 10_state.md R18, R19). -/

namespace Sys2Proof

/-! ### The constant trees -/

set_option maxRecDepth 4000 in
/-- 10_state.md R17: the constant literal/length tree is `build(FIXED_LL_LEN)`. -/
theorem fixedLlTree_eq_build : fixedLlTree = (build Machine.fixedLlLen).tree := by decide +kernel

/-- No child is absent: the code is complete (30_encoding.md R71). -/
def Tree.Complete : Tree → Bool
  | .absent => false
  | .leaf _ _ _ => true
  | .node l r => l.Complete && r.Complete

/-- 30_encoding.md R71: the fixed literal/length code is complete. -/
theorem fixedLlTree_complete : fixedLlTree.Complete = true := by decide

theorem fixedLlTree_rootInternal : fixedLlTree.RootInternal := ⟨_, _, rfl⟩

/-- The leaves of a block of consecutive symbols. -/
theorem Tree.block_symbolsBelow (len n : Nat) : ∀ (depth code symbol : Nat), symbol + 2 ^ depth ≤ n →
    (Tree.block len depth code symbol).SymbolsBelow n
  | 0, _, _, h => by simp [Tree.block, Tree.SymbolsBelow] at h ⊢; omega
  | d + 1, code, s, h => by
    rw [Nat.pow_succ] at h
    exact ⟨Tree.block_symbolsBelow len n d _ s (by omega), Tree.block_symbolsBelow len n d _ _ (by omega)⟩

theorem fixedLlTree_symbolsBelow : fixedLlTree.SymbolsBelow 288 := by
  simp only [fixedLlTree, Tree.SymbolsBelow]
  repeat' apply And.intro
  all_goals exact Tree.block_symbolsBelow _ _ _ _ _ (by norm_num)

theorem fixedLlTree_over : fixedLlTree.Over 288 := ⟨fixedLlTree_rootInternal, fixedLlTree_symbolsBelow⟩

/-! ### Walking a tree -/

/-- One turn of the walk at an internal node, on the stream bit (R117). -/
theorem Tree.walk_node (m : Input) (l r : Tree) (c : Cursor) :
    (Tree.node l r).walk m c =
      if 8 * m.len ≤ c.index then .raises .streamExhausted c
      else (if m.streamBit c.index then r else l).walk m (c.advance 1) := by
  rw [Tree.walk, readBitLsb_eq]
  by_cases h : 8 * m.len ≤ c.index
  · simp [h]
  · cases hb : m.streamBit c.index <;> simp [h]

/-- R117: a walk that answers gives the symbol of a leaf. -/
theorem Tree.walk_symbol {m : Input} {n : Nat} : ∀ {t : Tree} {c d : Cursor} {s : Nat}, t.SymbolsBelow n →
    t.walk m c = .ok s d → s < n
  | .absent, _, _, _, _, h => by simp [Tree.walk] at h
  | .leaf _ _ _, _, _, _, ht, h => by
    simp only [Tree.walk, Read.ok.injEq] at h
    exact h.1 ▸ ht
  | .node l r, c, d, s, ht, h => by
    rw [Tree.walk_node] at h
    split at h
    · simp at h
    · split at h
      · exact Tree.walk_symbol ht.2 h
      · exact Tree.walk_symbol ht.1 h

/-- R117: the kinds a walk can raise. -/
theorem Tree.walk_raises {m : Input} : ∀ {t : Tree} {c d : Cursor} {k : ErrorKind}, t.walk m c = .raises k d →
    k = .streamExhausted ∨ k = .malformedTree
  | .absent, _, _, _, h => by simp [Tree.walk] at h; exact .inr h.1.symm
  | .leaf _ _ _, _, _, _, h => by simp [Tree.walk] at h
  | .node l r, c, d, k, h => by
    rw [Tree.walk_node] at h
    split at h
    · simp at h; exact .inl h.1.symm
    · split at h
      · exact Tree.walk_raises h
      · exact Tree.walk_raises h

/-- R117, 30_encoding.md R71: in a complete tree a walk never raises `MalformedTree`. -/
theorem Tree.walk_complete {m : Input} : ∀ {t : Tree} {c d : Cursor} {k : ErrorKind}, t.Complete = true →
    t.walk m c = .raises k d → k = .streamExhausted
  | .absent, _, _, _, ht, _ => by simp [Tree.Complete] at ht
  | .leaf _ _ _, _, _, _, _, h => by simp [Tree.walk] at h
  | .node l r, c, d, k, ht, h => by
    simp only [Tree.Complete, Bool.and_eq_true] at ht
    rw [Tree.walk_node] at h
    split at h
    · simp at h; exact h.1.symm
    · split at h
      · exact Tree.walk_complete ht.2 h
      · exact Tree.walk_complete ht.1 h

theorem Tree.walk_moves {m : Input} : ∀ (t : Tree) {c : Cursor}, c.index ≤ 8 * m.len → (t.walk m c).Moves m c 0
  | .absent, _, h => ⟨le_refl _, h⟩
  | .leaf _ _ _, _, h => Read.Moves.ok h
  | .node l r, c, h => by
    rw [Tree.walk_node]
    split
    · exact ⟨le_refl _, h⟩
    · next hlt =>
      have h₁ : (c.advance 1).index ≤ 8 * m.len := by rw [Cursor.index_advance]; omega
      have hi := Cursor.index_advance c 1
      split
      · have := Tree.walk_moves r h₁
        revert this
        cases r.walk m (c.advance 1) <;> intro h' <;> exact ⟨by have := h'.1; omega, h'.2⟩
      · have := Tree.walk_moves l h₁
        revert this
        cases l.walk m (c.advance 1) <;> intro h' <;> exact ⟨by have := h'.1; omega, h'.2⟩

/-- R117: the root is internal, so at least one bit is read. -/
theorem Tree.walk_moves_root {m : Input} {t : Tree} (ht : t.RootInternal) {c : Cursor} (h : c.index ≤ 8 * m.len) :
    (t.walk m c).Moves m c 1 := by
  obtain ⟨l, r, rfl⟩ := ht
  rw [Tree.walk_node]
  split
  · exact ⟨le_refl _, h⟩
  · next hlt =>
    have h₁ : (c.advance 1).index ≤ 8 * m.len := by rw [Cursor.index_advance]; omega
    have hi := Cursor.index_advance c 1
    have := Tree.walk_moves (m := m) (if m.streamBit c.index then r else l) h₁
    revert this
    cases (if m.streamBit c.index then r else l).walk m (c.advance 1) <;> intro h' <;>
      exact ⟨by have := h'.1; omega, h'.2⟩

/-! ### What `build` makes -/

theorem Tree.left_symbolsBelow {n : Nat} {t : Tree} (h : t.SymbolsBelow n) : t.left.SymbolsBelow n := by
  cases t <;> first | trivial | exact h.1

theorem Tree.right_symbolsBelow {n : Nat} {t : Tree} (h : t.SymbolsBelow n) : t.right.SymbolsBelow n := by
  cases t <;> first | trivial | exact h.2

/-- R115: an insertion puts one leaf and keeps the others' symbols. -/
theorem Tree.insert_symbolsBelow {n s code len : Nat} (hs : s < n) : ∀ (i : Nat) {t : Tree}, t.SymbolsBelow n →
    (t.insert s code len i).SymbolsBelow n
  | 0, _, _ => hs
  | i + 1, t, h => by
    rw [Tree.insert]
    split
    · exact ⟨Tree.left_symbolsBelow h, Tree.insert_symbolsBelow hs i (Tree.right_symbolsBelow h)⟩
    · exact ⟨Tree.insert_symbolsBelow hs i (Tree.left_symbolsBelow h), Tree.right_symbolsBelow h⟩

/-- R115: an insertion of a code of at least one bit leaves the root internal. -/
theorem Tree.insert_rootInternal (s code len i : Nat) (t : Tree) : (t.insert s code len (i + 1)).RootInternal := by
  rw [Tree.insert]
  split <;> exact ⟨_, _, rfl⟩

@[simp] theorem Tree.bareRoot_over (n : Nat) : Tree.bareRoot.Over n := ⟨⟨_, _, rfl⟩, trivial, trivial⟩

/-- The assignment of codes keeps an internal root and inserts only symbols of the alphabet (R113, R115). -/
theorem assignCodes_over {n : Nat} : ∀ (lengths : List Nat) (s : Nat) (b : Build), s + lengths.length ≤ n →
    b.tree.Over n → (assignCodes lengths s b).tree.Over n
  | [], _, b, _, h => h
  | len :: rest, s, b, hn, h => by
    rw [List.length_cons] at hn
    rw [assignCodes]
    split
    · exact assignCodes_over rest (s + 1) b (by omega) h
    · next hl =>
      dsimp only
      split
      · exact h
      · refine assignCodes_over rest (s + 1) _ (by omega) ⟨?_, ?_⟩
        · obtain ⟨k, rfl⟩ := Nat.exists_eq_succ_of_ne_zero hl
          exact Tree.insert_rootInternal ..
        · exact Tree.insert_symbolsBelow (by omega) _ h.2

/-- 10_state.md R18: a built tree has an internal root, and its leaves carry symbols of its alphabet. -/
theorem build_over (lengths : List Nat) {n : Nat} (h : lengths.length ≤ n) : (build lengths).tree.Over n :=
  assignCodes_over lengths 0 _ (by omega) (Tree.bareRoot_over n)

theorem countLengths_length (lengths : List Nat) : (countLengths lengths).length = 16 := by
  have : ∀ (l acc : List Nat), acc.length = 16 →
      (l.foldl (fun bl len => if len = 0 then bl else bl.set len (bl.getD len 0 + 1)) acc).length = 16 := by
    intro l
    induction l with
    | nil => intro acc h; exact h
    | cons x xs ih =>
      intro acc h
      rw [List.foldl_cons]
      apply ih
      split
      · exact h
      · rw [List.length_set]; exact h
  exact this lengths _ (by simp)

theorem firstCodesFrom_length (code : Nat) (bl : List Nat) : (firstCodesFrom code bl).length = bl.length := by
  induction bl generalizing code with
  | nil => rfl
  | cons b bs ih => simp [firstCodesFrom, ih]

theorem firstCodes_length {bl : List Nat} (h : bl.length = 16) : (firstCodes bl).length = 16 := by
  simp [firstCodes, firstCodesFrom_length, h]

theorem assignCodes_scratch : ∀ (lengths : List Nat) (s : Nat) (b : Build),
    (assignCodes lengths s b).blCount = b.blCount ∧ (assignCodes lengths s b).nextCode.length = b.nextCode.length
  | [], _, _ => ⟨rfl, rfl⟩
  | len :: rest, s, b => by
    rw [assignCodes]
    split
    · exact assignCodes_scratch rest (s + 1) b
    · dsimp only
      split
      · simp
      · have := assignCodes_scratch rest (s + 1)
          ⟨b.tree.insert s (b.nextCode.getD len 0) len len, b.blCount, b.nextCode.set len (b.nextCode.getD len 0 + 1), b.ok⟩
        simpa using this

/-- 10_state.md R23: `build` leaves 16 counts and 16 next codes. -/
theorem build_scratch (lengths : List Nat) :
    (build lengths).blCount.length = 16 ∧ (build lengths).nextCode.length = 16 := by
  obtain ⟨h₁, h₂⟩ := assignCodes_scratch lengths 0
    ⟨.bareRoot, countLengths lengths, firstCodes (countLengths lengths), true⟩
  rw [build, h₁, h₂]
  exact ⟨countLengths_length _, firstCodes_length (countLengths_length _)⟩

end Sys2Proof
end

