-- ==== Sys2Proof/Laws/Decode.lean ====
section
/-! SUPPORT. What the decoder can do, said once: how far it moves the cursor, which kinds it raises, which instructions
it answers at each place (30_encoding.md; 60_exceptions.md R201, R205, R207). -/

namespace Sys2Proof

/-- The trees in force at a place of the stream have an internal root. -/
def Ctx.RootsInternal : Ctx → Prop
  | .codeLength t | .symbol t | .distTree t => t.RootInternal
  | .header | .stored | .hlit | .hdist | .hclen | .cllen | .distFixed => True

theorem Read.Moves.weaken {α : Type} {r : Read α} {m : Input} {c : Cursor} {a b : Nat} (h : r.Moves m c a) (hb : b ≤ a) :
    r.Moves m c b := by
  cases r with
  | ok v d => exact ⟨by have := h.1; omega, h.2⟩
  | raises k d => exact h

theorem codeLengthRest_moves {m : Input} {c : Cursor} (h : c.index ≤ 8 * m.len) (sym : Nat) :
    (codeLengthRest m sym c).Moves m c 0 := by
  rw [codeLengthRest]
  split
  · exact Read.Moves.ok h
  · split
    · exact ((readBitsLsb_moves h 2).bind fun _ _ _ hd => Read.Moves.ok hd).weaken (by omega)
    · split
      · exact ((readBitsLsb_moves h 3).bind fun _ _ _ hd => Read.Moves.ok hd).weaken (by omega)
      · exact ((readBitsLsb_moves h 7).bind fun _ _ _ hd => Read.Moves.ok hd).weaken (by omega)

theorem symbolRest_moves {m : Input} {c : Cursor} (h : c.index ≤ 8 * m.len) (sym : Nat) :
    (symbolRest m sym c).Moves m c 0 := by
  have key : ∀ n (f : Nat → Instr), ((readBitsLsb m n c).bind fun x c₁ => .ok (f x) c₁).Moves m c 0 := fun n f =>
    ((readBitsLsb_moves h n).bind fun _ _ _ hd => Read.Moves.ok hd).weaken (Nat.zero_le _)
  rw [symbolRest]
  split
  · exact Read.Moves.ok h
  split
  · exact Read.Moves.ok h
  split
  · exact Read.Moves.ok h
  split
  · exact key _ _
  split
  · exact Read.Moves.ok h
  · exact ⟨le_refl _, h⟩

theorem distanceRest_moves {m : Input} {c : Cursor} (h : c.index ≤ 8 * m.len) (sym : Nat) :
    (distanceRest m sym c).Moves m c 0 := by
  have key : ∀ n (f : Nat → Instr), ((readBitsLsb m n c).bind fun x c₁ => .ok (f x) c₁).Moves m c 0 := fun n f =>
    ((readBitsLsb_moves h n).bind fun _ _ _ hd => Read.Moves.ok hd).weaken (Nat.zero_le _)
  rw [distanceRest]
  split
  · exact key _ _
  split
  · exact Read.Moves.ok h
  · exact ⟨le_refl _, h⟩

theorem decode_stored_moves {m : Input} {c : Cursor} (h : c.index ≤ 8 * m.len) : (decode m .stored c).Moves m c 32 := by
  have ha : c.align.index ≤ 8 * m.len := by rw [Cursor.index_align]; omega
  have hle : c.index ≤ c.align.index := by rw [Cursor.index_align]; omega
  have : (decode m .stored c).Moves m c.align 32 := by
    refine (readBytes_moves ha (Cursor.align_bit c) 2).bind (b := 16) fun v d hv hd => ?_
    have hbit : d.bit = 0 := by
      rw [readBytes] at hv
      split at hv
      · simp at hv
      · simp only [Read.ok.injEq] at hv; rw [← hv.2]; exact Cursor.align_bit c
    exact (readBytes_moves hd hbit 2).bind fun _ _ _ hd => Read.Moves.ok hd
  revert this
  cases decode m .stored c <;> intro h' <;> exact ⟨by have := h'.1; omega, h'.2⟩

/-- R13, R100 (a), R184: an element consumes at least one bit and never moves the cursor past the end; an error leaves
the cursor between where it was and the end. -/
theorem decode_moves {m : Input} {ctx : Ctx} (hr : ctx.RootsInternal) {c : Cursor} (h : c.index ≤ 8 * m.len) :
    (decode m ctx c).Moves m c 1 := by
  cases ctx with
  | header =>
    exact ((readBitsLsb_moves h 1).bind fun _ _ _ hd =>
      (readBitsLsb_moves hd 2).bind fun _ _ _ hd => Read.Moves.ok hd).weaken (by omega)
  | stored => exact (decode_stored_moves h).weaken (by omega)
  | hlit => exact ((readBitsLsb_moves h 5).bind fun _ _ _ hd => Read.Moves.ok hd).weaken (by omega)
  | hdist => exact ((readBitsLsb_moves h 5).bind fun _ _ _ hd => Read.Moves.ok hd).weaken (by omega)
  | hclen => exact ((readBitsLsb_moves h 4).bind fun _ _ _ hd => Read.Moves.ok hd).weaken (by omega)
  | cllen => exact ((readBitsLsb_moves h 3).bind fun _ _ _ hd => Read.Moves.ok hd).weaken (by omega)
  | codeLength t => exact (Tree.walk_moves_root hr h).bind fun _ _ _ hd => codeLengthRest_moves hd _
  | symbol t => exact (Tree.walk_moves_root hr h).bind fun _ _ _ hd => symbolRest_moves hd _
  | distFixed => exact ((readBitsMsbFrom_moves 5 0 h).bind fun _ _ _ hd => distanceRest_moves hd _).weaken (by omega)
  | distTree t => exact (Tree.walk_moves_root hr h).bind fun _ _ _ hd => distanceRest_moves hd _

/-- R63, R138: after the stored header the cursor stands on a byte boundary. -/
theorem decode_stored_aligned {m : Input} {c d : Cursor} {i : Instr} (h : decode m .stored c = .ok i d) : d.bit = 0 := by
  simp only [decode, Read.bind_eq_ok] at h
  obtain ⟨l, c₁, h₁, n, c₂, h₂, h₃⟩ := h
  simp only [Read.ok.injEq] at h₃
  have key : ∀ {e f : Cursor} {v : Nat}, readBytes m 2 e = .ok v f → f.bit = e.bit := by
    intro e f v he
    rw [readBytes] at he
    split at he
    · simp at he
    · simp only [Read.ok.injEq] at he; rw [← he.2]
  rw [← h₃.2, key h₂, key h₁, Cursor.align_bit]

/-! ### The rows of a symbol -/

/-- The row of a match length symbol: its format is the symbol with its extra bits (30_encoding.md R73). -/
theorem lenInstr_form : ∀ k < 29, ∀ x, (lenInstr (257 + k) x).form =
    .coded .literalLength (257 + k) (Machine.lextra (257 + k)) (x % 2 ^ Machine.lextra (257 + k)) := by
  intro k hk x
  interval_cases k <;> simp [lenInstr, lenRows, Instr.form, Machine.lextra, Machine.lextraTable, Nat.mod_one]

/-- The row of a distance symbol (30_encoding.md R74). -/
theorem distInstr_form : ∀ k < 30, ∀ y, (distInstr k y).form =
    .coded .distance k (Machine.dextra k) (y % 2 ^ Machine.dextra k) := by
  intro k hk y
  interval_cases k <;> simp [distInstr, distRows, Instr.form, Machine.dextra, Machine.dextraTable, Nat.mod_one]

/-- Match lengths are 3 to 258 (30_encoding.md R75). -/
theorem lbase_range : ∀ k < 29, 3 ≤ Machine.lbase (257 + k) ∧
    Machine.lbase (257 + k) + 2 ^ Machine.lextra (257 + k) ≤ 259 := by decide

/-- Match distances are 1 to 32768 (30_encoding.md R75). -/
theorem dbase_range : ∀ d < 30, 1 ≤ Machine.dbase d ∧ Machine.dbase d + 2 ^ Machine.dextra d ≤ 32769 := by decide

/-! ### Which instruction a place answers -/

/-- The formats an element of a place can have (the `context` column of the opcode table). -/
def Ctx.Admits : Ctx → Form → Prop
  | .header, f => ∃ final t, f = .blockHeader final t ∧ t < 4
  | .stored, f => ∃ l n, f = .storedHeader l n
  | .hlit, f => ∃ v, f = .field .hlit 5 v ∧ v < 32
  | .hdist, f => ∃ v, f = .field .hdist 5 v ∧ v < 32
  | .hclen, f => ∃ v, f = .field .hclen 4 v ∧ v < 16
  | .cllen, f => ∃ v, f = .field .cllen 3 v ∧ v < 8
  | .codeLength _, f => ∃ sym w x, f = .coded .codeLength sym w x ∧ sym ≤ 18 ∧ x < 2 ^ w ∧
      (sym = 16 → w = 2) ∧ (sym = 17 → w = 3) ∧ (sym = 18 → w = 7)
  | .symbol _, f => ∃ sym w x, f = .coded .literalLength sym w x ∧ sym ≤ 287 ∧
      (257 ≤ sym → sym ≤ 285 → x < 2 ^ Machine.lextra sym)
  | .distFixed, f | .distTree _, f => ∃ sym w x, f = .coded .distance sym w x ∧ sym ≤ 31 ∧
      (sym ≤ 29 → x < 2 ^ Machine.dextra sym)

theorem headerInstr_form (final : Bool) {t : Nat} (h : t < 4) : (headerInstr final t).form = .blockHeader final t := by
  interval_cases t <;> rfl

theorem codeLengthRest_admits {m : Input} {t : Tree} {sym : Nat} {c d : Cursor} {i : Instr}
    (h : codeLengthRest m sym c = .ok i d) : (Ctx.codeLength t).Admits i.form := by
  rw [codeLengthRest] at h
  split at h
  · simp only [Read.ok.injEq] at h
    have := (BitVec.ofNat 4 sym).isLt
    exact ⟨_, 0, 0, by rw [← h.1]; rfl, by omega, by decide, by omega, by omega, by omega⟩
  · split at h
    · simp only [Read.bind_eq_ok, Read.ok.injEq] at h
      obtain ⟨x, e, -, h, -⟩ := h
      exact ⟨16, 2, _, by rw [← h]; rfl, by omega, (BitVec.ofNat 2 x).isLt, by omega, by omega, by omega⟩
    · split at h
      · simp only [Read.bind_eq_ok, Read.ok.injEq] at h
        obtain ⟨x, e, -, h, -⟩ := h
        exact ⟨17, 3, _, by rw [← h]; rfl, by omega, (BitVec.ofNat 3 x).isLt, by omega, by omega, by omega⟩
      · simp only [Read.bind_eq_ok, Read.ok.injEq] at h
        obtain ⟨x, e, -, h, -⟩ := h
        exact ⟨18, 7, _, by rw [← h]; rfl, by omega, (BitVec.ofNat 7 x).isLt, by omega, by omega, by omega⟩

theorem symbolRest_admits {m : Input} {t : Tree} {sym : Nat} {c d : Cursor} {i : Instr}
    (h : symbolRest m sym c = .ok i d) : (Ctx.symbol t).Admits i.form := by
  rw [symbolRest] at h
  split at h
  · simp only [Read.ok.injEq] at h
    have := (BitVec.ofNat 8 sym).isLt
    exact ⟨_, 0, 0, by rw [← h.1]; rfl, by omega, by omega⟩
  split at h
  · simp only [Read.ok.injEq] at h
    have := (BitVec.ofNat 8 sym).isLt
    exact ⟨_, 0, 0, by rw [← h.1]; rfl, by omega, by omega⟩
  split at h
  · simp only [Read.ok.injEq] at h
    exact ⟨256, 0, 0, by rw [← h.1]; rfl, by omega, by omega⟩
  split at h
  · next h₁ h₂ h₃ h₄ =>
    simp only [Read.bind_eq_ok, Read.ok.injEq] at h
    obtain ⟨x, e, -, h, -⟩ := h
    obtain ⟨k, hk, rfl⟩ : ∃ k, k < 29 ∧ sym = 257 + k := ⟨sym - 257, by omega, by omega⟩
    refine ⟨257 + k, Machine.lextra (257 + k), _, by rw [← h, lenInstr_form k hk], by omega, fun _ _ => ?_⟩
    exact Nat.mod_lt _ (Nat.two_pow_pos _)
  split at h
  · simp only [Read.ok.injEq] at h
    have := Bool.toNat_le (sym == 287)
    exact ⟨286 + (sym == 287).toNat, 0, 0, by rw [← h.1]; rfl, by omega, by omega⟩
  · simp at h

theorem distanceRest_admits {m : Input} {sym : Nat} {c d : Cursor} {i : Instr}
    (h : distanceRest m sym c = .ok i d) : Ctx.distFixed.Admits i.form := by
  rw [distanceRest] at h
  split at h
  · next h₁ =>
    simp only [Read.bind_eq_ok, Read.ok.injEq] at h
    obtain ⟨x, e, -, h, -⟩ := h
    refine ⟨sym, Machine.dextra sym, _, by rw [← h, distInstr_form sym (by omega)], by omega, fun _ => ?_⟩
    exact Nat.mod_lt _ (Nat.two_pow_pos _)
  split at h
  · simp only [Read.ok.injEq] at h
    have := Bool.toNat_le (sym == 31)
    exact ⟨30 + (sym == 31).toNat, 0, 0, by rw [← h.1]; rfl, by omega, by omega⟩
  · simp at h

/-- A value read by `read_bits_lsb(n)` is below `2 ^ n` (R94). -/
theorem readBitsLsb_lt {m : Input} : ∀ {n : Nat} {c d : Cursor} {v : Nat}, readBitsLsb m n c = .ok v d → v < 2 ^ n
  | 0, _, _, _, h => by simp [readBitsLsb] at h; omega
  | n + 1, c, d, v, h => by
    simp only [readBitsLsb, Read.bind_eq_ok, Read.ok.injEq] at h
    obtain ⟨b, c₁, -, w, c₂, hw, rfl, -⟩ := h
    have := readBitsLsb_lt hw
    have := Bool.toNat_le b
    rw [Nat.pow_succ]
    omega

/-- At a place of the stream the decoder answers only elements of that place. -/
theorem decode_admits {m : Input} {ctx : Ctx} {c d : Cursor} {i : Instr} (h : decode m ctx c = .ok i d) :
    ctx.Admits i.form := by
  cases ctx <;> simp only [decode, Read.bind_eq_ok, Read.ok.injEq] at h
  case header =>
    obtain ⟨f, c₁, -, t, c₂, ht, h, -⟩ := h
    have := readBitsLsb_lt ht
    exact ⟨f == 1, t, by rw [← h]; exact headerInstr_form _ this, this⟩
  case stored =>
    obtain ⟨l, c₁, -, n, c₂, -, h, -⟩ := h
    exact ⟨_, _, by rw [← h]; rfl⟩
  case hlit => obtain ⟨v, c₁, -, h, -⟩ := h; exact ⟨_, by rw [← h]; rfl, (BitVec.ofNat 5 v).isLt⟩
  case hdist => obtain ⟨v, c₁, -, h, -⟩ := h; exact ⟨_, by rw [← h]; rfl, (BitVec.ofNat 5 v).isLt⟩
  case hclen => obtain ⟨v, c₁, -, h, -⟩ := h; exact ⟨_, by rw [← h]; rfl, (BitVec.ofNat 4 v).isLt⟩
  case cllen => obtain ⟨v, c₁, -, h, -⟩ := h; exact ⟨_, by rw [← h]; rfl, (BitVec.ofNat 3 v).isLt⟩
  case codeLength t => obtain ⟨sym, c₁, -, h⟩ := h; exact codeLengthRest_admits h
  case symbol t => obtain ⟨sym, c₁, -, h⟩ := h; exact symbolRest_admits h
  case distFixed => obtain ⟨sym, c₁, -, h⟩ := h; exact distanceRest_admits h
  case distTree t => obtain ⟨sym, c₁, -, h⟩ := h; exact distanceRest_admits h

/-- The error kinds that reading an element can raise (60_exceptions.md R201, R205, R207). -/
theorem decode_raises {m : Input} {ctx : Ctx} {c d : Cursor} {k : ErrorKind} (h : decode m ctx c = .raises k d) :
    k = .streamExhausted ∨ k = .malformedTree ∨ k = .invalidSymbol := by
  have bits : ∀ {n : Nat} {c d : Cursor} {k : ErrorKind}, readBitsLsb m n c = .raises k d → k = .streamExhausted := by
    intro n
    induction n with
    | zero => intro c d k h; simp [readBitsLsb] at h
    | succ n ih =>
      intro c d k h
      simp only [readBitsLsb, Read.bind_eq_raises, readBitLsb_eq] at h
      rcases h with h | ⟨b, c₁, -, h | ⟨v, c₂, -, h⟩⟩
      · split at h <;> simp at h
        exact h.1.symm
      · exact ih h
      · simp at h
  have bytes : ∀ {n : Nat} {c d : Cursor} {k : ErrorKind}, readBytes m n c = .raises k d → k = .streamExhausted := by
    intro n c d k h
    rw [readBytes] at h
    split at h <;> simp at h
    exact h.1.symm
  have msb : ∀ {n acc : Nat} {c d : Cursor} {k : ErrorKind}, readBitsMsbFrom m n acc c = .raises k d →
      k = .streamExhausted := by
    intro n
    induction n with
    | zero => intro acc c d k h; simp [readBitsMsbFrom] at h
    | succ n ih =>
      intro acc c d k h
      simp only [readBitsMsbFrom, Read.bind_eq_raises, readBitLsb_eq] at h
      rcases h with h | ⟨b, c₁, -, h⟩
      · split at h <;> simp at h
        exact h.1.symm
      · exact ih h
  have cl : ∀ {sym : Nat} {c : Cursor}, codeLengthRest m sym c = .raises k d → k = .streamExhausted := by
    intro sym c h
    rw [codeLengthRest] at h
    split at h
    · simp at h
    split at h
    · simp only [Read.bind_eq_raises] at h; rcases h with h | ⟨_, _, _, h⟩ <;> [exact bits h; simp at h]
    split at h
    · simp only [Read.bind_eq_raises] at h; rcases h with h | ⟨_, _, _, h⟩ <;> [exact bits h; simp at h]
    · simp only [Read.bind_eq_raises] at h; rcases h with h | ⟨_, _, _, h⟩ <;> [exact bits h; simp at h]
  have ll : ∀ {sym : Nat} {c : Cursor}, symbolRest m sym c = .raises k d → k = .streamExhausted ∨ k = .invalidSymbol := by
    intro sym c h
    rw [symbolRest] at h
    split at h
    · simp at h
    split at h
    · simp at h
    split at h
    · simp at h
    split at h
    · simp only [Read.bind_eq_raises] at h; rcases h with h | ⟨_, _, _, h⟩ <;> [exact .inl (bits h); simp at h]
    split at h
    · simp at h
    · simp at h; exact .inr h.1.symm
  have dist : ∀ {sym : Nat} {c : Cursor}, distanceRest m sym c = .raises k d →
      k = .streamExhausted ∨ k = .invalidSymbol := by
    intro sym c h
    rw [distanceRest] at h
    split at h
    · simp only [Read.bind_eq_raises] at h; rcases h with h | ⟨_, _, _, h⟩ <;> [exact .inl (bits h); simp at h]
    split at h
    · simp at h
    · simp at h; exact .inr h.1.symm
  cases ctx <;> simp only [decode, Read.bind_eq_raises] at h
  case header =>
    rcases h with h | ⟨_, _, -, h | ⟨_, _, -, h⟩⟩ <;> [exact .inl (bits h); exact .inl (bits h); simp at h]
  case stored =>
    rcases h with h | ⟨_, _, -, h | ⟨_, _, -, h⟩⟩ <;> [exact .inl (bytes h); exact .inl (bytes h); simp at h]
  case hlit => rcases h with h | ⟨_, _, -, h⟩ <;> [exact .inl (bits h); simp at h]
  case hdist => rcases h with h | ⟨_, _, -, h⟩ <;> [exact .inl (bits h); simp at h]
  case hclen => rcases h with h | ⟨_, _, -, h⟩ <;> [exact .inl (bits h); simp at h]
  case cllen => rcases h with h | ⟨_, _, -, h⟩ <;> [exact .inl (bits h); simp at h]
  case codeLength t =>
    rcases h with h | ⟨_, _, -, h⟩
    · rcases Tree.walk_raises h with h | h <;> simp [h]
    · exact .inl (cl h)
  case symbol t =>
    rcases h with h | ⟨_, _, -, h⟩
    · rcases Tree.walk_raises h with h | h <;> simp [h]
    · rcases ll h with h | h <;> simp [h]
  case distFixed =>
    rcases h with h | ⟨_, _, -, h⟩
    · exact .inl (msb h)
    · rcases dist h with h | h <;> simp [h]
  case distTree t =>
    rcases h with h | ⟨_, _, -, h⟩
    · rcases Tree.walk_raises h with h | h <;> simp [h]
    · rcases dist h with h | h <;> simp [h]

end Sys2Proof
end

