-- ==== Sys2Proof/Laws/Exec.lean ====
section
/-! SUPPORT. What the meanings can do: `exec` by the format of the instruction, and the spec lemma of each shared
meaning. -/

namespace Sys2Proof.Machine

/-- `exec` by the format: the 29 match lengths are one meaning, the 30 distances another, the two LIT rows a third. -/
def execForm (f : Form) (s : State) : Host.Outcome State Fault Refusal :=
  match f with
  | .blockHeader final 0 => execStored final s
  | .blockHeader final 1 => execFixed final s
  | .blockHeader final 2 => execDynamic final s
  | .blockHeader final _ => execReserved final s
  | .storedHeader l n => execLen (.ofNat 16 l) (.ofNat 16 n) s
  | .field .hlit _ v => execHlit (.ofNat 5 v) s
  | .field .hdist _ v => execHdist (.ofNat 5 v) s
  | .field .hclen _ v => execHclen (.ofNat 4 v) s
  | .field .cllen _ v => execCllen (.ofNat 3 v) s
  | .coded .codeLength sym _ x =>
    if sym ≤ 15 then execCl (.ofNat 4 sym) s
    else if sym = 16 then execClRep (.ofNat 2 x) s
    else if sym = 17 then execClZero3 (.ofNat 3 x) s
    else execClZero7 (.ofNat 7 x) s
  | .coded .literalLength sym _ x =>
    if sym < 256 then (append (.ofNat 8 sym) s).outcome
    else if sym = 256 then execEob s
    else if sym ≤ 285 then matchLength sym x s
    else .next (raise .invalidSymbol s)
  | .coded .distance sym _ y => if sym ≤ 29 then matchDistance sym y s else .next (raise .invalidSymbol s)

/-- Every instruction's meaning is the meaning of its format. -/
theorem exec_eq_execForm (i : Instr) (s : State) : exec i s = execForm i.form s := by
  cases i
  case cl n =>
    have : n.toNat ≤ 15 := by have := n.isLt; omega
    simp [exec, execForm, Instr.form, this]
  case lit0 b => 
    have : b.toNat < 256 := b.isLt
    simp [exec, execForm, Instr.form, execLit0, this]
  case lit144 b => 
    have : b.toNat < 256 := b.isLt
    simp [exec, execForm, Instr.form, execLit144, this]
  case llinv v => cases v <;> rfl
  case dinv v => cases v <;> rfl
  all_goals first
    | rfl
    | simp [exec, execForm, Instr.form]

/-! ### What every meaning keeps -/

/-- Two states agree on everything an instruction does not write by a register update of its own: the parameters, the
inbox, the cursor, the memories with their counters, `status`, `error_kind`, the wrapper; and the phase is the same or a
phase of the running machine. -/
structure SameData (s t : State) : Prop where
  params : t.params = s.params
  inbox : t.inbox = s.inbox
  pc : t.pc = s.pc
  out : t.out = s.out
  outPos : t.outPos = s.outPos
  win : t.win = s.win
  cursor : t.cursor = s.cursor
  emitted : t.emitted = s.emitted
  status : t.status = s.status
  errorKind : t.errorKind = s.errorKind
  frame : t.frame = s.frame
  phase : t.phase = s.phase ∨ statusOf t.phase = .running

theorem SameData.refl (s : State) : SameData s s :=
  ⟨rfl, rfl, rfl, rfl, rfl, rfl, rfl, rfl, rfl, rfl, rfl, .inl rfl⟩

theorem SameData.trans {s t u : State} (h : SameData s t) (h' : SameData t u) : SameData s u where
  params := h'.params.trans h.params
  inbox := h'.inbox.trans h.inbox
  pc := h'.pc.trans h.pc
  out := h'.out.trans h.out
  outPos := h'.outPos.trans h.outPos
  win := h'.win.trans h.win
  cursor := h'.cursor.trans h.cursor
  emitted := h'.emitted.trans h.emitted
  status := h'.status.trans h.status
  errorKind := h'.errorKind.trans h.errorKind
  frame := h'.frame.trans h.frame
  phase := by
    rcases h'.phase with h₁ | h₁
    · rcases h.phase with h₂ | h₂
      · exact .inl (h₁.trans h₂)
      · exact .inr (by rw [h₁]; exact h₂)
    · exact .inr h₁

/-- An invariant that an instruction keeps: it depends only on the data, every `append` and every byte read keeps it, and
a raised error leads to `R`. -/
structure Kept (P R : State → Prop) : Prop where
  same : ∀ s t, SameData s t → P s → P t
  append : ∀ b s, P s → (append b s).Ensures P R
  read : ∀ s, s.pc.bit = 0 → P s → (callReadBytes 1 s).Ensures P R
  raise : ∀ k s, P s → R (raise k s)

variable {P R : State → Prop}

/-- R138: everything the copy loop of a stored block keeps. -/
theorem copyStored_ensures (hk : Kept P R) : ∀ (n : Nat) (s : State), s.pc.bit = 0 → P s →
    (copyStored n s).Ensures P R
  | 0, _, _, h => h
  | n + 1, s, ha, h => by
    have hread : (callReadBytes 1 s).Ensures (fun t => P t ∧ t.pc.bit = 0) R := by
      have := hk.read s ha h
      rw [callReadBytes_aligned ha (by omega) (by omega)] at this ⊢
      split
      · next hlt => rw [if_pos hlt] at this; exact this
      · next hlt => rw [if_neg hlt] at this; exact ⟨this, ha⟩
    refine hread.bind fun b s₁ h₁ => ?_
    have happ : (Machine.append (.ofNat 8 b) s₁).Ensures (fun t => P t ∧ t.pc.bit = 0) R := by
      have := hk.append (.ofNat 8 b) s₁ h₁.1
      rw [append_eq] at this ⊢
      split
      · next hlt => rw [if_pos hlt] at this; exact this
      · next hlt => rw [if_neg hlt] at this; exact ⟨this, h₁.2⟩
    refine happ.bind fun _ s₂ h₂ => ?_
    exact copyStored_ensures hk n _ h₂.2
      (hk.same s₂ _ ⟨rfl, rfl, rfl, rfl, rfl, rfl, rfl, rfl, rfl, rfl, rfl, .inl rfl⟩ h₂.1)

theorem fillLens_sameData (v : Nat) : ∀ (n : Nat) (s : State), SameData s (fillLens n v s)
  | 0, s => SameData.refl s
  | n + 1, s =>
    have h : SameData s (s.putLen v) := ⟨rfl, rfl, rfl, rfl, rfl, rfl, rfl, rfl, rfl, rfl, rfl, .inl rfl⟩
    h.trans (fillLens_sameData v n (s.putLen v))

/-- R142: everything the build of `CL_TREE` can do to the data. -/
theorem buildClTree_ensures (hk : Kept P R) {s : State} (h : P s) : P (buildClTree s) ∨ R (buildClTree s) := by
  rw [buildClTree]
  split
  · exact .inl (hk.same s _ ⟨rfl, rfl, rfl, rfl, rfl, rfl, rfl, rfl, rfl, rfl, rfl, .inl rfl⟩ h)
  · exact .inr (hk.raise _ _ (hk.same s _ ⟨rfl, rfl, rfl, rfl, rfl, rfl, rfl, rfl, rfl, rfl, rfl, .inl rfl⟩ h))

/-- R148: everything the build of the block's trees can do to the data. -/
theorem buildBlockTrees_ensures (hk : Kept P R) {s : State} (h : P s) :
    P (buildBlockTrees s) ∨ R (buildBlockTrees s) := by
  rw [buildBlockTrees]
  split
  · dsimp only
    split
    · exact .inl (hk.same s _ ⟨rfl, rfl, rfl, rfl, rfl, rfl, rfl, rfl, rfl, rfl, rfl, .inl rfl⟩ h)
    · exact .inr (hk.raise _ _ (hk.same s _ ⟨rfl, rfl, rfl, rfl, rfl, rfl, rfl, rfl, rfl, rfl, rfl, .inl rfl⟩ h))
  · exact .inr (hk.raise _ _ (hk.same s _ ⟨rfl, rfl, rfl, rfl, rfl, rfl, rfl, rfl, rfl, rfl, rfl, .inl rfl⟩ h))

theorem endLens_ensures (hk : Kept P R) {s : State} (h : P s) : P (endLens s) ∨ R (endLens s) := by
  rw [endLens]
  split
  · exact .inl h
  · exact buildBlockTrees_ensures hk h

theorem runLens_ensures (hk : Kept P R) (n v : Nat) {s : State} (h : P s) : P (runLens n v s) ∨ R (runLens n v s) := by
  rw [runLens]
  split
  · exact .inr (hk.raise _ _ h)
  · exact endLens_ensures hk (hk.same _ _ (fillLens_sameData v n s) h)

/-- R166, R167: everything a distance row can do to the data. -/
theorem matchDistance_ensures (hk : Kept P R) (d y : Nat) {s : State} (h : P s) :
    ∃ t, matchDistance d y s = .next t ∧ (P t ∨ R t) := by
  rw [matchDistance]
  have h₁ : P (s.setDistance (matchDistanceOf d y)) :=
    hk.same s _ ⟨rfl, rfl, rfl, rfl, rfl, rfl, rfl, rfl, rfl, rfl, rfl, .inl rfl⟩ h
  have := copyBack_ensures hk.append
    (fun s n k hs => hk.same s _ ⟨rfl, rfl, rfl, rfl, rfl, rfl, rfl, rfl, rfl, rfl, rfl, .inl rfl⟩ hs)
    (fun s hs => hk.raise _ s hs) (s.setDistance (matchDistanceOf d y)).length
    (s.setDistance (matchDistanceOf d y)).distance _ h₁
  exact (this.bind (Q := P) (f := fun _ s₂ => .ok () (s₂.setPos .symbol)) fun _ s₂ h₂ =>
    hk.same s₂ (s₂.setPos .symbol) ⟨rfl, rfl, rfl, rfl, rfl, rfl, rfl, rfl, rfl, rfl, rfl, .inl rfl⟩ h₂).outcome

/-- Everything an instruction can do to the data: it answers a next state that keeps `P`, or, where an error was raised,
has `R`. The one precondition is the aligned cursor of a stored block (R48). -/
theorem exec_ensures (hk : Kept P R) (i : Instr) {s : State} (h : P s) (ha : ∀ l n, i = .len l n → s.pc.bit = 0) :
    ∃ t, exec i s = .next t ∧ (P t ∨ R t) := by
  have same : ∀ {t}, t.params = s.params → t.inbox = s.inbox → t.pc = s.pc → t.out = s.out → t.outPos = s.outPos →
      t.win = s.win → t.cursor = s.cursor → t.emitted = s.emitted → t.status = s.status → t.errorKind = s.errorKind →
      t.frame = s.frame → (t.phase = s.phase ∨ statusOf t.phase = .running) → P t :=
    fun h₁ h₂ h₃ h₄ h₅ h₆ h₇ h₈ h₉ h₁₀ h₁₁ h₁₂ => hk.same s _ ⟨h₁, h₂, h₃, h₄, h₅, h₆, h₇, h₈, h₉, h₁₀, h₁₁, h₁₂⟩ h
  have ml : ∀ sym x, ∃ t, matchLength sym x s = .next t ∧ (P t ∨ R t) := fun sym x =>
    ⟨_, rfl, .inl (same rfl rfl rfl rfl rfl rfl rfl rfl rfl rfl rfl (.inl rfl))⟩
  have md : ∀ d y, ∃ t, matchDistance d y s = .next t ∧ (P t ∨ R t) := fun d y => matchDistance_ensures hk d y h
  cases i
  case stored f => exact ⟨_, rfl, .inl (same rfl rfl rfl rfl rfl rfl rfl rfl rfl rfl rfl (.inr rfl))⟩
  case fixed f => exact ⟨_, rfl, .inl (same rfl rfl rfl rfl rfl rfl rfl rfl rfl rfl rfl (.inr rfl))⟩
  case dynamic f => exact ⟨_, rfl, .inl (same rfl rfl rfl rfl rfl rfl rfl rfl rfl rfl rfl (.inr rfl))⟩
  case reserved f =>
    exact ⟨_, rfl, .inr (hk.raise _ _ (same rfl rfl rfl rfl rfl rfl rfl rfl rfl rfl rfl (.inl rfl)))⟩
  case len l n =>
    rw [exec, execLen]
    split
    · have := copyStored_ensures hk l.toNat (s.setRemaining l.toNat) (ha l n rfl)
        (same rfl rfl rfl rfl rfl rfl rfl rfl rfl rfl rfl (.inl rfl))
      exact (this.bind (Q := P) (f := fun _ s₁ => .ok () (s₁.setPhase .done)) fun _ s₂ h₂ =>
        hk.same s₂ (s₂.setPhase .done) ⟨rfl, rfl, rfl, rfl, rfl, rfl, rfl, rfl, rfl, rfl, rfl, .inr rfl⟩ h₂).outcome
    · exact ⟨_, rfl, .inr (hk.raise _ _ h)⟩
  case hlit a => exact ⟨_, rfl, .inl (same rfl rfl rfl rfl rfl rfl rfl rfl rfl rfl rfl (.inl rfl))⟩
  case hdist b => exact ⟨_, rfl, .inl (same rfl rfl rfl rfl rfl rfl rfl rfl rfl rfl rfl (.inl rfl))⟩
  case hclen c => exact ⟨_, rfl, .inl (same rfl rfl rfl rfl rfl rfl rfl rfl rfl rfl rfl (.inl rfl))⟩
  case cllen v =>
    refine ⟨_, rfl, ?_⟩
    have h₁ : P (s.putClLen v.toNat) := same rfl rfl rfl rfl rfl rfl rfl rfl rfl rfl rfl (.inl rfl)
    split
    · exact .inl h₁
    · exact buildClTree_ensures hk h₁
  case cl n => exact ⟨_, rfl, endLens_ensures hk (hk.same _ _ (fillLens_sameData _ _ _) h)⟩
  case clRep x =>
    refine ⟨_, rfl, ?_⟩
    split
    · exact .inr (hk.raise _ _ h)
    · exact runLens_ensures hk _ _ h
  case clZero3 x => exact ⟨_, rfl, runLens_ensures hk _ _ h⟩
  case clZero7 x => exact ⟨_, rfl, runLens_ensures hk _ _ h⟩
  case lit0 b => exact (hk.append b s h).outcome
  case lit144 b => exact (hk.append b s h).outcome
  case eob => exact ⟨_, rfl, .inl (same rfl rfl rfl rfl rfl rfl rfl rfl rfl rfl rfl (.inr rfl))⟩
  case llinv v => exact ⟨_, rfl, .inr (hk.raise _ _ h)⟩
  case dinv v => exact ⟨_, rfl, .inr (hk.raise _ _ h)⟩
  all_goals first
    | exact ml _ _
    | exact md _ _

end Sys2Proof.Machine
end

