-- ==== Sys2Proof/Laws/PerInstr.lean ====
section
/-! SUPPORT. Laws proved for each instruction: family FormRow, the row that a format names is the instruction. -/

namespace Sys2Proof.Laws

/-- The instruction of a format, read from the symbol ranges of the opcode table (30_encoding.md R62 to R68, R77). -/
def rowOf : Form → Instr
  | .blockHeader final t => headerInstr final t
  | .storedHeader l n => .len (.ofNat 16 l) (.ofNat 16 n)
  | .field .hlit _ v => .hlit (.ofNat 5 v)
  | .field .hdist _ v => .hdist (.ofNat 5 v)
  | .field .hclen _ v => .hclen (.ofNat 4 v)
  | .field .cllen _ v => .cllen (.ofNat 3 v)
  | .coded .codeLength sym _ x =>
    if sym ≤ 15 then .cl (.ofNat 4 sym)
    else if sym = 16 then .clRep (.ofNat 2 x)
    else if sym = 17 then .clZero3 (.ofNat 3 x)
    else .clZero7 (.ofNat 7 x)
  | .coded .literalLength sym _ x =>
    if sym < 144 then .lit0 (.ofNat 8 sym)
    else if sym < 256 then .lit144 (.ofNat 8 sym)
    else if sym = 256 then .eob
    else if sym ≤ 285 then lenInstr sym x
    else .llinv (sym == 287)
  | .coded .distance sym _ y => if sym ≤ 29 then distInstr sym y else .dinv (sym == 31)

/-- No bit of a well-formed instruction is lost in its format: the format's row is the instruction. -/
def FormRow.Statement (i : Instr) : Prop := i.wf = true → rowOf i.form = i

theorem FormRow.stored (final : Bool) : FormRow.Statement (.stored final) := fun _ => rfl

theorem FormRow.fixed (final : Bool) : FormRow.Statement (.fixed final) := fun _ => rfl

theorem FormRow.dynamic (final : Bool) : FormRow.Statement (.dynamic final) := fun _ => rfl

theorem FormRow.reserved (final : Bool) : FormRow.Statement (.reserved final) := fun _ => rfl

theorem FormRow.len (len nlen : BitVec 16) : FormRow.Statement (.len len nlen) := by
  intro _
  simp [rowOf, Instr.form]

theorem FormRow.hlit (a : BitVec 5) : FormRow.Statement (.hlit a) := by
  intro _
  simp [rowOf, Instr.form]

theorem FormRow.hdist (b : BitVec 5) : FormRow.Statement (.hdist b) := by
  intro _
  simp [rowOf, Instr.form]

theorem FormRow.hclen (c : BitVec 4) : FormRow.Statement (.hclen c) := by
  intro _
  simp [rowOf, Instr.form]

theorem FormRow.cllen (v : BitVec 3) : FormRow.Statement (.cllen v) := by
  intro _
  simp [rowOf, Instr.form]

theorem FormRow.cl (n : BitVec 4) : FormRow.Statement (.cl n) := by
  have : n.toNat ≤ 15 := by have := n.isLt; omega
  intro _
  simp [rowOf, Instr.form, this]

theorem FormRow.clRep (x : BitVec 2) : FormRow.Statement (.clRep x) := by
  intro _
  simp [rowOf, Instr.form]

theorem FormRow.clZero3 (x : BitVec 3) : FormRow.Statement (.clZero3 x) := by
  intro _
  simp [rowOf, Instr.form]

theorem FormRow.clZero7 (x : BitVec 7) : FormRow.Statement (.clZero7 x) := by
  intro _
  simp [rowOf, Instr.form]

theorem FormRow.lit0 (b : Byte) : FormRow.Statement (.lit0 b) := by
  intro h
  have : b.toNat < 144 := by simpa [Instr.wf] using h
  simp [rowOf, Instr.form, this]

theorem FormRow.lit144 (b : Byte) : FormRow.Statement (.lit144 b) := by
  intro h
  have h₁ : 144 ≤ b.toNat := by simpa [Instr.wf] using h
  have h₂ : b.toNat < 256 := b.isLt
  simp [rowOf, Instr.form, show ¬ b.toNat < 144 by omega, h₂]

theorem FormRow.eob : FormRow.Statement .eob := fun _ => rfl

theorem FormRow.len257 : FormRow.Statement .len257 := fun _ => rfl

theorem FormRow.len258 : FormRow.Statement .len258 := fun _ => rfl

theorem FormRow.len259 : FormRow.Statement .len259 := fun _ => rfl

theorem FormRow.len260 : FormRow.Statement .len260 := fun _ => rfl

theorem FormRow.len261 : FormRow.Statement .len261 := fun _ => rfl

theorem FormRow.len262 : FormRow.Statement .len262 := fun _ => rfl

theorem FormRow.len263 : FormRow.Statement .len263 := fun _ => rfl

theorem FormRow.len264 : FormRow.Statement .len264 := fun _ => rfl

theorem FormRow.len265 (x : BitVec 1) : FormRow.Statement (.len265 x) := by
  intro _
  simp [rowOf, Instr.form, lenInstr, lenRows]

theorem FormRow.len266 (x : BitVec 1) : FormRow.Statement (.len266 x) := by
  intro _
  simp [rowOf, Instr.form, lenInstr, lenRows]

theorem FormRow.len267 (x : BitVec 1) : FormRow.Statement (.len267 x) := by
  intro _
  simp [rowOf, Instr.form, lenInstr, lenRows]

theorem FormRow.len268 (x : BitVec 1) : FormRow.Statement (.len268 x) := by
  intro _
  simp [rowOf, Instr.form, lenInstr, lenRows]

theorem FormRow.len269 (x : BitVec 2) : FormRow.Statement (.len269 x) := by
  intro _
  simp [rowOf, Instr.form, lenInstr, lenRows]

theorem FormRow.len270 (x : BitVec 2) : FormRow.Statement (.len270 x) := by
  intro _
  simp [rowOf, Instr.form, lenInstr, lenRows]

theorem FormRow.len271 (x : BitVec 2) : FormRow.Statement (.len271 x) := by
  intro _
  simp [rowOf, Instr.form, lenInstr, lenRows]

theorem FormRow.len272 (x : BitVec 2) : FormRow.Statement (.len272 x) := by
  intro _
  simp [rowOf, Instr.form, lenInstr, lenRows]

theorem FormRow.len273 (x : BitVec 3) : FormRow.Statement (.len273 x) := by
  intro _
  simp [rowOf, Instr.form, lenInstr, lenRows]

theorem FormRow.len274 (x : BitVec 3) : FormRow.Statement (.len274 x) := by
  intro _
  simp [rowOf, Instr.form, lenInstr, lenRows]

theorem FormRow.len275 (x : BitVec 3) : FormRow.Statement (.len275 x) := by
  intro _
  simp [rowOf, Instr.form, lenInstr, lenRows]

theorem FormRow.len276 (x : BitVec 3) : FormRow.Statement (.len276 x) := by
  intro _
  simp [rowOf, Instr.form, lenInstr, lenRows]

theorem FormRow.len277 (x : BitVec 4) : FormRow.Statement (.len277 x) := by
  intro _
  simp [rowOf, Instr.form, lenInstr, lenRows]

theorem FormRow.len278 (x : BitVec 4) : FormRow.Statement (.len278 x) := by
  intro _
  simp [rowOf, Instr.form, lenInstr, lenRows]

theorem FormRow.len279 (x : BitVec 4) : FormRow.Statement (.len279 x) := by
  intro _
  simp [rowOf, Instr.form, lenInstr, lenRows]

theorem FormRow.len280 (x : BitVec 4) : FormRow.Statement (.len280 x) := by
  intro _
  simp [rowOf, Instr.form, lenInstr, lenRows]

theorem FormRow.len281 (x : BitVec 5) : FormRow.Statement (.len281 x) := by
  intro _
  simp [rowOf, Instr.form, lenInstr, lenRows]

theorem FormRow.len282 (x : BitVec 5) : FormRow.Statement (.len282 x) := by
  intro _
  simp [rowOf, Instr.form, lenInstr, lenRows]

theorem FormRow.len283 (x : BitVec 5) : FormRow.Statement (.len283 x) := by
  intro _
  simp [rowOf, Instr.form, lenInstr, lenRows]

theorem FormRow.len284 (x : BitVec 5) : FormRow.Statement (.len284 x) := by
  intro _
  simp [rowOf, Instr.form, lenInstr, lenRows]

theorem FormRow.len285 : FormRow.Statement .len285 := fun _ => rfl

theorem FormRow.llinv (s : Bool) : FormRow.Statement (.llinv s) := by
  cases s <;> exact fun _ => rfl

theorem FormRow.dist0 : FormRow.Statement .dist0 := fun _ => rfl

theorem FormRow.dist1 : FormRow.Statement .dist1 := fun _ => rfl

theorem FormRow.dist2 : FormRow.Statement .dist2 := fun _ => rfl

theorem FormRow.dist3 : FormRow.Statement .dist3 := fun _ => rfl

theorem FormRow.dist4 (y : BitVec 1) : FormRow.Statement (.dist4 y) := by
  intro _
  simp [rowOf, Instr.form, distInstr, distRows]

theorem FormRow.dist5 (y : BitVec 1) : FormRow.Statement (.dist5 y) := by
  intro _
  simp [rowOf, Instr.form, distInstr, distRows]

theorem FormRow.dist6 (y : BitVec 2) : FormRow.Statement (.dist6 y) := by
  intro _
  simp [rowOf, Instr.form, distInstr, distRows]

theorem FormRow.dist7 (y : BitVec 2) : FormRow.Statement (.dist7 y) := by
  intro _
  simp [rowOf, Instr.form, distInstr, distRows]

theorem FormRow.dist8 (y : BitVec 3) : FormRow.Statement (.dist8 y) := by
  intro _
  simp [rowOf, Instr.form, distInstr, distRows]

theorem FormRow.dist9 (y : BitVec 3) : FormRow.Statement (.dist9 y) := by
  intro _
  simp [rowOf, Instr.form, distInstr, distRows]

theorem FormRow.dist10 (y : BitVec 4) : FormRow.Statement (.dist10 y) := by
  intro _
  simp [rowOf, Instr.form, distInstr, distRows]

theorem FormRow.dist11 (y : BitVec 4) : FormRow.Statement (.dist11 y) := by
  intro _
  simp [rowOf, Instr.form, distInstr, distRows]

theorem FormRow.dist12 (y : BitVec 5) : FormRow.Statement (.dist12 y) := by
  intro _
  simp [rowOf, Instr.form, distInstr, distRows]

theorem FormRow.dist13 (y : BitVec 5) : FormRow.Statement (.dist13 y) := by
  intro _
  simp [rowOf, Instr.form, distInstr, distRows]

theorem FormRow.dist14 (y : BitVec 6) : FormRow.Statement (.dist14 y) := by
  intro _
  simp [rowOf, Instr.form, distInstr, distRows]

theorem FormRow.dist15 (y : BitVec 6) : FormRow.Statement (.dist15 y) := by
  intro _
  simp [rowOf, Instr.form, distInstr, distRows]

theorem FormRow.dist16 (y : BitVec 7) : FormRow.Statement (.dist16 y) := by
  intro _
  simp [rowOf, Instr.form, distInstr, distRows]

theorem FormRow.dist17 (y : BitVec 7) : FormRow.Statement (.dist17 y) := by
  intro _
  simp [rowOf, Instr.form, distInstr, distRows]

theorem FormRow.dist18 (y : BitVec 8) : FormRow.Statement (.dist18 y) := by
  intro _
  simp [rowOf, Instr.form, distInstr, distRows]

theorem FormRow.dist19 (y : BitVec 8) : FormRow.Statement (.dist19 y) := by
  intro _
  simp [rowOf, Instr.form, distInstr, distRows]

theorem FormRow.dist20 (y : BitVec 9) : FormRow.Statement (.dist20 y) := by
  intro _
  simp [rowOf, Instr.form, distInstr, distRows]

theorem FormRow.dist21 (y : BitVec 9) : FormRow.Statement (.dist21 y) := by
  intro _
  simp [rowOf, Instr.form, distInstr, distRows]

theorem FormRow.dist22 (y : BitVec 10) : FormRow.Statement (.dist22 y) := by
  intro _
  simp [rowOf, Instr.form, distInstr, distRows]

theorem FormRow.dist23 (y : BitVec 10) : FormRow.Statement (.dist23 y) := by
  intro _
  simp [rowOf, Instr.form, distInstr, distRows]

theorem FormRow.dist24 (y : BitVec 11) : FormRow.Statement (.dist24 y) := by
  intro _
  simp [rowOf, Instr.form, distInstr, distRows]

theorem FormRow.dist25 (y : BitVec 11) : FormRow.Statement (.dist25 y) := by
  intro _
  simp [rowOf, Instr.form, distInstr, distRows]

theorem FormRow.dist26 (y : BitVec 12) : FormRow.Statement (.dist26 y) := by
  intro _
  simp [rowOf, Instr.form, distInstr, distRows]

theorem FormRow.dist27 (y : BitVec 12) : FormRow.Statement (.dist27 y) := by
  intro _
  simp [rowOf, Instr.form, distInstr, distRows]

theorem FormRow.dist28 (y : BitVec 13) : FormRow.Statement (.dist28 y) := by
  intro _
  simp [rowOf, Instr.form, distInstr, distRows]

theorem FormRow.dist29 (y : BitVec 13) : FormRow.Statement (.dist29 y) := by
  intro _
  simp [rowOf, Instr.form, distInstr, distRows]

theorem FormRow.dinv (d : Bool) : FormRow.Statement (.dinv d) := by
  cases d <;> exact fun _ => rfl

end Sys2Proof.Laws
end

