-- ==== Sys2Proof/Laws/Step.lean ====
section
/-! SUPPORT. What a step can do, said once. -/

namespace Sys2Proof.Machine

/-- The phases in which a step reads an element of the stream (10_state.md R22). -/
def Phase.Reads : Phase → Bool
  | .readHeader | .stored | .fixedHuffman | .dynamicHuffman => true
  | .idle | .done | .finished | .error => false

/-- In a reading phase a step runs one element. -/
theorem step_reads {s : State} (h : s.phase.Reads = true) : step s = runElement s := by
  rw [step]
  cases hp : s.phase <;> simp [hp, Phase.Reads] at h ⊢

theorem step_done {s : State} (h : s.phase = .done) : step s = endBlock s := by rw [step, h]
theorem step_idle {s : State} (h : s.phase = .idle) : step s = idleStep s := by rw [step, h]
theorem step_finished {s : State} (h : s.phase = .finished) : step s = finishedStep s := by rw [step, h]
theorem step_error {s : State} (h : s.phase = .error) : step s = awaitHost s := by rw [step, h]

/-- An element that decodes is executed with the cursor past it. -/
theorem runElement_ok {s : State} {i : Instr} {c : Cursor} (h : decode s.input s.ctx s.pc = .ok i c) :
    runElement s = exec i (s.setPc c) := by
  rw [runElement, h]

/-- An element that cannot be read raises its kind, with the cursor where the reads left it. -/
theorem runElement_raises {s : State} {k : ErrorKind} {c : Cursor} (h : decode s.input s.ctx s.pc = .raises k c) :
    runElement s = .next (raise k ((latchCutHeader s).setPc c)) := by
  rw [runElement, h]

/-- R136: a header cut short writes `bfinal` and nothing else. -/
theorem latchCutHeader_writes (s : State) : ∃ f, latchCutHeader s = s.setBfinal f := by
  rw [latchCutHeader]
  split
  · split
    · exact ⟨_, rfl⟩
    · exact ⟨s.bfinal, rfl⟩
  all_goals exact ⟨s.bfinal, rfl⟩

theorem ctx_len_iff {s : State} {i : Instr} {c : Cursor} (h : decode s.input s.ctx s.pc = .ok i c) :
    ∀ l n, i = .len l n → c.bit = 0 := by
  rintro l n rfl
  have := decode_admits h
  cases hc : s.ctx <;> rw [hc] at this h
  case stored => exact decode_stored_aligned h
  case header => obtain ⟨_, _, h, _⟩ := this; simp [Instr.form] at h
  case hlit => obtain ⟨_, h, _⟩ := this; simp [Instr.form] at h
  case hdist => obtain ⟨_, h, _⟩ := this; simp [Instr.form] at h
  case hclen => obtain ⟨_, h, _⟩ := this; simp [Instr.form] at h
  case cllen => obtain ⟨_, h, _⟩ := this; simp [Instr.form] at h
  all_goals obtain ⟨_, _, _, h, _⟩ := this; simp [Instr.form] at h

/-- Everything one element can do to the data: the machine answers a next state; it is never refused. `hpc` says that
`P` holds with the cursor at the place where the reads left it. -/
theorem runElement_ensures {P R : State → Prop} (hk : Kept P R) {s : State}
    (hok : ∀ i c, decode s.input s.ctx s.pc = .ok i c → P (s.setPc c))
    (hraise : ∀ k c, decode s.input s.ctx s.pc = .raises k c → R (raise k ((latchCutHeader s).setPc c))) :
    ∃ t, runElement s = .next t ∧ (P t ∨ R t) := by
  cases hd : decode s.input s.ctx s.pc with
  | ok i c =>
    rw [runElement_ok hd]
    exact exec_ensures hk i (hok i c hd) (fun l n hi => ctx_len_iff hd l n hi)
  | raises k c => rw [runElement_raises hd]; exact ⟨_, rfl, .inr (hraise k c hd)⟩

/-! ### The states that Start and the wrapper's entry leave -/

@[simp] theorem startState_params (p : Params) (rest : List Command) : (startState p rest).params = p := rfl
@[simp] theorem zlibState_params (m : Input) (cap : Option Nat) (tr : Bool) (rest : List Command) :
    (zlibState m cap tr rest).params = ⟨m, 15, cap, 2, tr⟩ := rfl
@[simp] theorem startState_inbox (p : Params) (rest : List Command) : (startState p rest).inbox = rest := rfl
@[simp] theorem zlibState_inbox (m : Input) (cap : Option Nat) (tr : Bool) (rest : List Command) :
    (zlibState m cap tr rest).inbox = rest := rfl
@[simp] theorem startState_pc (p : Params) (rest : List Command) : (startState p rest).pc = ⟨p.startByte, 0⟩ := rfl
@[simp] theorem zlibState_pc (m : Input) (cap : Option Nat) (tr : Bool) (rest : List Command) :
    (zlibState m cap tr rest).pc = ⟨0, 0⟩ := rfl
@[simp] theorem startState_out (p : Params) (rest : List Command) : (startState p rest).out = [] := rfl
@[simp] theorem zlibState_out (m : Input) (cap : Option Nat) (tr : Bool) (rest : List Command) :
    (zlibState m cap tr rest).out = [] := rfl
@[simp] theorem startState_outPos (p : Params) (rest : List Command) : (startState p rest).outPos = 0 := rfl
@[simp] theorem zlibState_outPos (m : Input) (cap : Option Nat) (tr : Bool) (rest : List Command) :
    (zlibState m cap tr rest).outPos = 0 := rfl
@[simp] theorem startState_win (p : Params) (rest : List Command) : (startState p rest).win = [] := rfl
@[simp] theorem zlibState_win (m : Input) (cap : Option Nat) (tr : Bool) (rest : List Command) :
    (zlibState m cap tr rest).win = [] := rfl
@[simp] theorem startState_cursor (p : Params) (rest : List Command) : (startState p rest).cursor = 0 := rfl
@[simp] theorem zlibState_cursor (m : Input) (cap : Option Nat) (tr : Bool) (rest : List Command) :
    (zlibState m cap tr rest).cursor = 0 := rfl
@[simp] theorem startState_emitted (p : Params) (rest : List Command) : (startState p rest).emitted = 0 := rfl
@[simp] theorem zlibState_emitted (m : Input) (cap : Option Nat) (tr : Bool) (rest : List Command) :
    (zlibState m cap tr rest).emitted = 0 := rfl
@[simp] theorem startState_clTree (p : Params) (rest : List Command) : (startState p rest).clTree = .bareRoot := rfl
@[simp] theorem zlibState_clTree (m : Input) (cap : Option Nat) (tr : Bool) (rest : List Command) :
    (zlibState m cap tr rest).clTree = .bareRoot := rfl
@[simp] theorem startState_llTree (p : Params) (rest : List Command) : (startState p rest).llTree = .bareRoot := rfl
@[simp] theorem zlibState_llTree (m : Input) (cap : Option Nat) (tr : Bool) (rest : List Command) :
    (zlibState m cap tr rest).llTree = .bareRoot := rfl
@[simp] theorem startState_dTree (p : Params) (rest : List Command) : (startState p rest).dTree = .bareRoot := rfl
@[simp] theorem zlibState_dTree (m : Input) (cap : Option Nat) (tr : Bool) (rest : List Command) :
    (zlibState m cap tr rest).dTree = .bareRoot := rfl
@[simp] theorem startState_clLen (p : Params) (rest : List Command) : (startState p rest).clLen = List.replicate 19 0 := rfl
@[simp] theorem zlibState_clLen (m : Input) (cap : Option Nat) (tr : Bool) (rest : List Command) :
    (zlibState m cap tr rest).clLen = List.replicate 19 0 := rfl
@[simp] theorem startState_lens (p : Params) (rest : List Command) : (startState p rest).lens = List.replicate 320 0 := rfl
@[simp] theorem zlibState_lens (m : Input) (cap : Option Nat) (tr : Bool) (rest : List Command) :
    (zlibState m cap tr rest).lens = List.replicate 320 0 := rfl
@[simp] theorem startState_bfinal (p : Params) (rest : List Command) : (startState p rest).bfinal = false := rfl
@[simp] theorem zlibState_bfinal (m : Input) (cap : Option Nat) (tr : Bool) (rest : List Command) :
    (zlibState m cap tr rest).bfinal = false := rfl
@[simp] theorem startState_blCount (p : Params) (rest : List Command) : (startState p rest).blCount = List.replicate 16 0 := rfl
@[simp] theorem zlibState_blCount (m : Input) (cap : Option Nat) (tr : Bool) (rest : List Command) :
    (zlibState m cap tr rest).blCount = List.replicate 16 0 := rfl
@[simp] theorem startState_nextCode (p : Params) (rest : List Command) : (startState p rest).nextCode = List.replicate 16 0 := rfl
@[simp] theorem zlibState_nextCode (m : Input) (cap : Option Nat) (tr : Bool) (rest : List Command) :
    (zlibState m cap tr rest).nextCode = List.replicate 16 0 := rfl
@[simp] theorem startState_errorKind (p : Params) (rest : List Command) : (startState p rest).errorKind = none := rfl
@[simp] theorem zlibState_errorKind (m : Input) (cap : Option Nat) (tr : Bool) (rest : List Command) :
    (zlibState m cap tr rest).errorKind = none := rfl
@[simp] theorem startState_phase (p : Params) (rest : List Command) : (startState p rest).phase = .readHeader := rfl
@[simp] theorem zlibState_phase (m : Input) (cap : Option Nat) (tr : Bool) (rest : List Command) :
    (zlibState m cap tr rest).phase = .idle := rfl
@[simp] theorem startState_status (p : Params) (rest : List Command) : (startState p rest).status = .running := rfl
@[simp] theorem zlibState_status (m : Input) (cap : Option Nat) (tr : Bool) (rest : List Command) :
    (zlibState m cap tr rest).status = .idle := rfl
@[simp] theorem startState_frame (p : Params) (rest : List Command) : (startState p rest).frame = .raw := rfl
@[simp] theorem zlibState_frame (m : Input) (cap : Option Nat) (tr : Bool) (rest : List Command) :
    (zlibState m cap tr rest).frame = .header := rfl

/-! ### Outside the reading phases -/

/-- The cursors that the wrapper's byte reads can leave: where they began, or a byte boundary of the input. -/
def AfterByteReads (m : Input) (c d : Cursor) : Prop := d = c ∨ (d.bit = 0 ∧ d.byte ≤ m.len ∧ c.index ≤ d.index)

/-- R97: everything `read_bytes(1)` can do for the wrapper. -/
theorem callReadByte_cases (s : State) :
    (∃ v, callReadBytes 1 s = .ok v (s.setPc ⟨s.pc.byte + 1, 0⟩) ∧ s.pc.bit = 0 ∧ s.pc.byte + 1 ≤ s.input.len) ∨
      callReadBytes 1 s = .raised (raise .streamExhausted s) ∨ callReadBytes 1 s = .refused .unalignedReadBytes := by
  by_cases ha : s.pc.bit = 0
  · rw [callReadBytes_aligned ha (by omega) (by omega), ha]
    by_cases hl : s.input.len < s.pc.byte + 1
    · rw [if_pos hl]; exact .inr (.inl rfl)
    · rw [if_neg hl]; exact .inl ⟨_, rfl, rfl, by omega⟩
  · exact .inr (.inr (callReadBytes_unaligned ha 1))

/-- R192, R193, R197: everything the wrapper's header step can do when it answers a next state: an error, or Start with a
window of 8 to 15 bits. -/
theorem zlibHeader_next {s t : State} (h : zlibHeader s = .next t) :
    (∃ k c, t = raise k (s.setPc c) ∧ AfterByteReads s.input s.pc c) ∨
      ∃ cmf, (zlibCinfo cmf).toNat ≤ 7 ∧ 2 ≤ s.input.len ∧ t = (startState
        ⟨s.params.input, zlibWbits cmf, s.params.outCap, 2, s.params.trace⟩ s.inbox).setFrame .body := by
  rw [zlibHeader] at h
  rcases callReadByte_cases s with ⟨v, e, ha, hl⟩ | e | e <;> rw [e] at h
  · rw [Op.bind_ok] at h
    rcases callReadByte_cases (s.setPc ⟨s.pc.byte + 1, 0⟩) with ⟨w, e₁, -, hl₁⟩ | e₁ | e₁ <;> rw [e₁] at h
    · simp only [Op.bind_ok, State.setPc_pc, zlibAfterHeader] at h hl₁
      split at h
      · refine .inl ⟨_, _, (Host.Outcome.next.inj h).symm, .inr ⟨rfl, hl₁, ?_⟩⟩
        simp only [Cursor.index, Fin.val_zero, ha]; omega
      · split at h
        · cases h
        · next hc =>
          have : s.pc.byte + 1 + 1 ≤ s.input.len := hl₁
          exact .inr ⟨_, by omega, by omega, (Host.Outcome.next.inj h).symm⟩
    · refine .inl ⟨_, _, (Host.Outcome.next.inj h).symm, .inr ⟨rfl, hl, ?_⟩⟩
      simp only [Cursor.index, Fin.val_zero, ha]; omega
    · cases h
  · exact .inl ⟨_, s.pc, (Host.Outcome.next.inj h).symm, .inl rfl⟩
  · cases h

/-- R194, R195: everything the wrapper's trailer step can do when it answers a next state: an error, or the decode is
complete. -/
theorem zlibTrailer_next {s t : State} (h : zlibTrailer s = .next t) :
    ∃ c, AfterByteReads s.input s.pc.align c ∧
      ((∃ k, t = raise k (s.setPc c)) ∨ t = (s.setPc c).setFrame .complete) := by
  have key : ∀ (n : Nat) (u : State) (f : Nat → State → Op Unit), AfterByteReads s.input s.pc.align u.pc →
      u = s.setPc u.pc → ((callReadBytes 1 u).bind f).outcome = .next t →
      (∀ v w, AfterByteReads s.input s.pc.align w.pc → w = s.setPc w.pc → (f v w).outcome = .next t →
        ∃ c, AfterByteReads s.input s.pc.align c ∧ ((∃ k, t = raise k (s.setPc c)) ∨ t = (s.setPc c).setFrame .complete)) →
      ∃ c, AfterByteReads s.input s.pc.align c ∧ ((∃ k, t = raise k (s.setPc c)) ∨ t = (s.setPc c).setFrame .complete) := by
    intro _ u f hu he h hf
    rcases callReadByte_cases u with ⟨v, e, ha, hl⟩ | e | e <;> rw [e] at h
    · refine hf v _ (.inr ⟨rfl, ?_, ?_⟩) (by rw [he]; rfl) h
      · rw [he] at hl; exact hl
      · have : s.pc.align.index ≤ u.pc.index := by
          rcases hu with hu | hu
          · rw [hu]
          · exact hu.2.2
        simp only [State.setPc_pc, Cursor.index, Fin.val_zero, ha] at this ⊢
        omega
    · exact ⟨u.pc, hu, .inl ⟨_, by rw [← he]; exact (Host.Outcome.next.inj h).symm⟩⟩
    · cases h
  rw [zlibTrailer] at h
  refine key 4 _ _ (.inl rfl) rfl h fun t3 s₁ h₁ e₁ h => key 3 _ _ h₁ e₁ h fun t2 s₂ h₂ e₂ h =>
    key 2 _ _ h₂ e₂ h fun t1 s₃ h₃ e₃ h => key 1 _ _ h₃ e₃ h fun t0 s₄ h₄ e₄ h => ⟨s₄.pc, h₄, ?_⟩
  rw [← e₄]
  have := (Host.Outcome.next.inj h).symm
  rw [zlibCheck] at this
  split at this
  · exact .inr this
  · exact .inl ⟨_, this⟩

/-- R230, R190: everything the host's next command can do when it answers a next state. -/
theorem awaitHost_next {s t : State} (h : awaitHost s = .next t) : s.status ≠ .running ∧
    ((∃ p rest, s.inbox = .start p :: rest ∧ 8 ≤ p.wbits ∧ p.wbits ≤ 15 ∧ p.startByte ≤ p.input.len ∧
        t = startState p rest) ∨
      ∃ input cap trace rest, s.inbox = .inflateZlib input cap trace :: rest ∧ t = zlibState input cap trace rest) := by
  rw [awaitHost] at h
  split at h
  · cases h
  · next p rest hi =>
    rw [start] at h
    split at h
    · cases h
    · split at h
      · cases h
      · split at h
        · cases h
        · next h₁ h₂ h₃ =>
          exact ⟨h₁, .inl ⟨p, rest, hi, by omega, by omega, by omega, (Host.Outcome.next.inj h).symm⟩⟩
  · next input cap trace rest hi =>
    rw [startZlib] at h
    split at h
    · cases h
    · next h₁ => exact ⟨h₁, .inr ⟨input, cap, trace, rest, hi, (Host.Outcome.next.inj h).symm⟩⟩

/-- Everything a step can do when it answers a next state. -/
theorem step_next {s t : State} (h : step s = .next t) :
    (s.phase.Reads = true ∧ runElement s = .next t) ∨
    (s.phase = .done ∧ t = if s.bfinal then s.setFinished.setFrame (frameAfterBody s.frame) else s.setPhase .readHeader) ∨
    (s.phase = .idle ∧ s.frame = .header ∧ zlibHeader s = .next t) ∨
    (s.phase = .finished ∧ s.frame = .trailer ∧ zlibTrailer s = .next t) ∨
    ((s.phase = .idle ∨ s.phase = .finished ∨ s.phase = .error) ∧ awaitHost s = .next t) := by
  cases hp : s.phase
  case readHeader => rw [step_reads (by rw [hp]; rfl)] at h; exact .inl ⟨rfl, h⟩
  case stored => rw [step_reads (by rw [hp]; rfl)] at h; exact .inl ⟨rfl, h⟩
  case fixedHuffman => rw [step_reads (by rw [hp]; rfl)] at h; exact .inl ⟨rfl, h⟩
  case dynamicHuffman => rw [step_reads (by rw [hp]; rfl)] at h; exact .inl ⟨rfl, h⟩
  case done => rw [step_done hp, endBlock] at h; exact .inr (.inl ⟨rfl, (Host.Outcome.next.inj h).symm⟩)
  case idle =>
    rw [step_idle hp, idleStep] at h
    cases hf : s.frame <;> rw [hf] at h
    case header => exact .inr (.inr (.inl ⟨rfl, rfl, h⟩))
    all_goals exact .inr (.inr (.inr (.inr ⟨.inl rfl, h⟩)))
  case finished =>
    rw [step_finished hp, finishedStep] at h
    cases hf : s.frame <;> rw [hf] at h
    case trailer => exact .inr (.inr (.inr (.inl ⟨rfl, rfl, h⟩)))
    all_goals exact .inr (.inr (.inr (.inr ⟨.inr (.inl rfl), h⟩)))
  case error => rw [step_error hp] at h; exact .inr (.inr (.inr (.inr ⟨.inr (.inr rfl), h⟩)))

end Sys2Proof.Machine
end

