-- ==== Sys2Proof/Tests/Slice0.lean ====
section
/-! SUPPORT. The tests of the model: the well-formedness smoke test, a word written out from the spec's encoding for every
constructor, single steps and single operations on the spec's own vectors (95_test_vectors.md, 96_test_vectors_streams.md),
and for every obligation with hypotheses a concrete case that meets them. -/

namespace Sys2Proof.Tests

set_option Elab.async false

open Sys2Proof.Machine Sys2Proof.Claims

/-! ### Helpers -/

/-- Stream bits, first bit first, as one number. -/
def bitsValue (bits : List Nat) : Nat := bits.foldr (fun b acc => b + 2 * acc) 0

/-- The input whose stream begins with these bits, zeros after them up to 8 bytes. -/
def stream (bits : List Nat) : Input := Input.ofBytes (streamBytes (bitsValue bits) 8)

/-- The bits decode at a place to the instruction, all of them and no more. -/
abbrev Decodes (ctx : Ctx) (bits : List Nat) (i : Instr) : Prop :=
  decode (stream bits) ctx ⟨0, 0⟩ = .ok i (Cursor.ofIndex bits.length)

/-- The place of a literal/length symbol in a fixed block. -/
abbrev symFixed : Ctx := .symbol fixedLlTree

/-- The lengths of `CL_TREE` of P4. -/
def clLengthsP4 : List Nat := [0, 3, 2, 2] ++ List.replicate 12 0 ++ [3, 0, 2]

/-- The lengths of `LL_TREE` of P4. -/
def llLengthsP4 : List Nat := List.replicate 97 0 ++ [2, 2] ++ List.replicate 157 0 ++ [3, 3, 3, 3]

/-- `CL_TREE` of P4: lengths 2:2, 3:2, 18:2, 1:3, 16:3. -/
def clP4 : Tree := (build clLengthsP4).tree

/-- `LL_TREE` of P4: lengths 97:2, 98:2, 256 to 259: 3. -/
def llP4 : Tree := (build llLengthsP4).tree

/-- A running state at a place with the given input. -/
def running (m : Input) (p : Phase) (q : Pos) : State :=
  { State.reset with params := ⟨m, 15, none, 0, false⟩, phase := p, pos := q, status := .running }

/-- The running state with `n` bytes emitted, the window and the sink holding the bytes of a list at their first
addresses. -/
def emittedState (n wbits : Nat) (bs : List Byte) : State :=
  { running ⟨[], 0⟩ .fixedHuffman .distance with
    params := ⟨⟨[], 0⟩, wbits, none, 0, false⟩
    win := Memory.ofBytes 0 bs
    out := Memory.ofBytes 0 bs
    cursor := n % 2 ^ wbits
    emitted := n
    outPos := n }

/-- The next state of an outcome, if it is one. -/
def nextOf (o : Host.Outcome State Fault Refusal) : Option State :=
  match o with
  | .next s => some s
  | .fault _ => none
  | .refused _ => none

/-- One value of the next state. -/
def after {α : Type} (o : Host.Outcome State Fault Refusal) (f : State → α) : Option α := (nextOf o).map f

/-- The state an operation leaves and whether it raised, if it is not refused. -/
def opState {α : Type} (o : Op α) : Option (State × Bool) :=
  match o with
  | .ok _ s => some (s, false)
  | .raised s => some (s, true)
  | .refused _ => none

/-! ### Well-formedness -/

/-- The row LIT of the symbols 0 to 143 refuses 144, the row of 144 to 255 refuses 143 (30_encoding.md R71, R82). -/
theorem test_wf_refuses : (Instr.lit0 144).wf = false ∧ (Instr.lit144 143).wf = false := by decide

theorem test_wf_accepts : (Instr.lit0 143).wf = true ∧ (Instr.lit144 144).wf = true ∧ (Instr.len284 31).wf = true := by
  decide

/-! ### Decoding -/

/-- BFINAL, then BTYPE LSB-first (30_encoding.md R61, R62). -/
theorem test_decode_headers :
    Decodes .header [1,  0,0] (.stored true) ∧
    Decodes .header [0,  1,0] (.fixed false) ∧
    Decodes .header [1,  0,1] (.dynamic true) ∧
    Decodes .header [0,  1,1] (.reserved false) := by decide +kernel

/-- HLIT, HDIST, HCLEN, CLLEN, LSB-first (30_encoding.md R64, R65); the values of P4. -/
theorem test_decode_counts :
    Decodes .hlit [1,1,0,0,0] (.hlit 3) ∧
    Decodes .hdist [1,0,0,0,0] (.hdist 1) ∧
    Decodes .hclen [0,1,1,1] (.hclen 14) ∧
    Decodes .cllen [1,1,0] (.cllen 3) := by decide +kernel

/-- Code-length symbols with their extra bits (30_encoding.md R66); codes and values of P4. -/
theorem test_decode_code_lengths :
    Decodes (.codeLength clP4) [1,1,0] (.cl 1) ∧
    Decodes (.codeLength clP4) [0,1] (.cl 3) ∧
    Decodes (.codeLength clP4) [1,1,1,  1,0] (.clRep 1) ∧
    Decodes (.codeLength clP4) [1,0,  0,1,1,0,1,0,1] (.clZero7 86) ∧
    Decodes (.codeLength (build (List.replicate 17 0 ++ [1, 1])).tree) [0,  1,1,0] (.clZero3 3) := by decide +kernel

/-- Literals at the edges of the two rows (V51), EOB, the illegal symbols (30_encoding.md R71, R77; V58 to V60). -/
theorem test_decode_literals_and_illegal :
    Decodes symFixed [0,1,1,1,0,0,0,1] (.lit0 0x41) ∧
    Decodes symFixed [1,0,1,1,1,1,1,1] (.lit0 143) ∧
    Decodes symFixed [1,1,0,0,1,0,0,0,0] (.lit144 144) ∧
    Decodes symFixed [1,1,1,1,1,1,1,1,1] (.lit144 255) ∧
    Decodes symFixed [0,0,0,0,0,0,0] .eob ∧
    Decodes symFixed [1,1,0,0,0,1,1,0] (.llinv false) ∧
    Decodes symFixed [1,1,0,0,0,1,1,1] (.llinv true) ∧
    Decodes .distFixed [1,1,1,1,0] (.dinv false) ∧
    Decodes .distFixed [1,1,1,1,1] (.dinv true) := by decide +kernel

/-- The codes of R71, then the extra bits of R73, LSB-first (30_encoding.md). -/
theorem test_decode_lengths_1 :
    Decodes symFixed [0,0,0,0,0,0,1] .len257 ∧
    Decodes symFixed [0,0,0,0,0,1,0] .len258 ∧
    Decodes symFixed [0,0,0,0,0,1,1] .len259 ∧
    Decodes symFixed [0,0,0,0,1,0,0] .len260 ∧
    Decodes symFixed [0,0,0,0,1,0,1] .len261 ∧
    Decodes symFixed [0,0,0,0,1,1,0] .len262 ∧
    Decodes symFixed [0,0,0,0,1,1,1] .len263 ∧
    Decodes symFixed [0,0,0,1,0,0,0] .len264 ∧
    Decodes symFixed [0,0,0,1,0,0,1,  1] (.len265 1) ∧
    Decodes symFixed [0,0,0,1,0,1,0,  0] (.len266 0) := by decide +kernel

/-- The codes of R71, then the extra bits of R73, LSB-first (30_encoding.md). -/
theorem test_decode_lengths_2 :
    Decodes symFixed [0,0,0,1,0,1,1,  1] (.len267 1) ∧
    Decodes symFixed [0,0,0,1,1,0,0,  0] (.len268 0) ∧
    Decodes symFixed [0,0,0,1,1,0,1,  1,0] (.len269 1) ∧
    Decodes symFixed [0,0,0,1,1,1,0,  0,1] (.len270 2) ∧
    Decodes symFixed [0,0,0,1,1,1,1,  1,0] (.len271 1) ∧
    Decodes symFixed [0,0,1,0,0,0,0,  0,1] (.len272 2) ∧
    Decodes symFixed [0,0,1,0,0,0,1,  1,0,0] (.len273 1) ∧
    Decodes symFixed [0,0,1,0,0,1,0,  0,0,1] (.len274 4) ∧
    Decodes symFixed [0,0,1,0,0,1,1,  1,0,0] (.len275 1) ∧
    Decodes symFixed [0,0,1,0,1,0,0,  0,0,1] (.len276 4) := by decide +kernel

/-- The codes of R71, then the extra bits of R73, LSB-first (30_encoding.md). -/
theorem test_decode_lengths_3 :
    Decodes symFixed [0,0,1,0,1,0,1,  1,0,0,0] (.len277 1) ∧
    Decodes symFixed [0,0,1,0,1,1,0,  0,0,0,1] (.len278 8) ∧
    Decodes symFixed [0,0,1,0,1,1,1,  1,0,0,0] (.len279 1) ∧
    Decodes symFixed [1,1,0,0,0,0,0,0,  0,0,0,1] (.len280 8) ∧
    Decodes symFixed [1,1,0,0,0,0,0,1,  1,0,0,0,0] (.len281 1) ∧
    Decodes symFixed [1,1,0,0,0,0,1,0,  0,0,0,0,1] (.len282 16) ∧
    Decodes symFixed [1,1,0,0,0,0,1,1,  1,0,0,0,0] (.len283 1) ∧
    Decodes symFixed [1,1,0,0,0,1,0,0,  0,0,0,0,1] (.len284 16) ∧
    Decodes symFixed [1,1,0,0,0,1,0,1] .len285 := by decide +kernel

/-- The 5 bits of R72, MSB-first, then the extra bits of R74, LSB-first (30_encoding.md). -/
theorem test_decode_distances_1 :
    Decodes .distFixed [0,0,0,0,0] .dist0 ∧
    Decodes .distFixed [0,0,0,0,1] .dist1 ∧
    Decodes .distFixed [0,0,0,1,0] .dist2 ∧
    Decodes .distFixed [0,0,0,1,1] .dist3 ∧
    Decodes .distFixed [0,0,1,0,0,  1] (.dist4 1) ∧
    Decodes .distFixed [0,0,1,0,1,  0] (.dist5 0) ∧
    Decodes .distFixed [0,0,1,1,0,  1,0] (.dist6 1) ∧
    Decodes .distFixed [0,0,1,1,1,  0,1] (.dist7 2) ∧
    Decodes .distFixed [0,1,0,0,0,  1,0,0] (.dist8 1) ∧
    Decodes .distFixed [0,1,0,0,1,  0,0,1] (.dist9 4) := by decide +kernel

/-- The 5 bits of R72, MSB-first, then the extra bits of R74, LSB-first (30_encoding.md). -/
theorem test_decode_distances_2 :
    Decodes .distFixed [0,1,0,1,0,  1,0,0,0] (.dist10 1) ∧
    Decodes .distFixed [0,1,0,1,1,  0,0,0,1] (.dist11 8) ∧
    Decodes .distFixed [0,1,1,0,0,  1,0,0,0,0] (.dist12 1) ∧
    Decodes .distFixed [0,1,1,0,1,  0,0,0,0,1] (.dist13 16) ∧
    Decodes .distFixed [0,1,1,1,0,  1,0,0,0,0,0] (.dist14 1) ∧
    Decodes .distFixed [0,1,1,1,1,  0,0,0,0,0,1] (.dist15 32) ∧
    Decodes .distFixed [1,0,0,0,0,  1,0,0,0,0,0,0] (.dist16 1) ∧
    Decodes .distFixed [1,0,0,0,1,  0,0,0,0,0,0,1] (.dist17 64) ∧
    Decodes .distFixed [1,0,0,1,0,  1,0,0,0,0,0,0,0] (.dist18 1) ∧
    Decodes .distFixed [1,0,0,1,1,  0,0,0,0,0,0,0,1] (.dist19 128) := by decide +kernel

/-- The 5 bits of R72, MSB-first, then the extra bits of R74, LSB-first (30_encoding.md). -/
theorem test_decode_distances_3 :
    Decodes .distFixed [1,0,1,0,0,  1,0,0,0,0,0,0,0,0] (.dist20 1) ∧
    Decodes .distFixed [1,0,1,0,1,  0,0,0,0,0,0,0,0,1] (.dist21 256) ∧
    Decodes .distFixed [1,0,1,1,0,  1,0,0,0,0,0,0,0,0,0] (.dist22 1) ∧
    Decodes .distFixed [1,0,1,1,1,  0,0,0,0,0,0,0,0,0,1] (.dist23 512) ∧
    Decodes .distFixed [1,1,0,0,0,  1,0,0,0,0,0,0,0,0,0,0] (.dist24 1) ∧
    Decodes .distFixed [1,1,0,0,1,  0,0,0,0,0,0,0,0,0,0,1] (.dist25 1024) ∧
    Decodes .distFixed [1,1,0,1,0,  1,0,0,0,0,0,0,0,0,0,0,0] (.dist26 1) ∧
    Decodes .distFixed [1,1,0,1,1,  0,0,0,0,0,0,0,0,0,0,0,1] (.dist27 2048) ∧
    Decodes .distFixed [1,1,1,0,0,  1,0,0,0,0,0,0,0,0,0,0,0,0] (.dist28 1) ∧
    Decodes .distFixed [1,1,1,0,1,  0,0,0,0,0,0,0,0,0,0,0,0,1] (.dist29 4096) := by decide +kernel

/-- Symbols of the dynamic trees of P4 (95_test_vectors.md). -/
theorem test_decode_dynamic :
    Decodes (.symbol llP4) [0,0] (.lit0 0x61) ∧
    Decodes (.symbol llP4) [1,1,0] .len258 ∧
    Decodes (.symbol llP4) [1,0,0] .eob ∧
    Decodes (.distTree (build [1, 1]).tree) [1] .dist1 := by decide +kernel

/-- The stored header begins at the next byte boundary, LEN and NLEN little-endian (30_encoding.md R63, R76; the bytes of
T4). -/
theorem test_decode_len : decode (Input.ofBytes [0x01, 0x03, 0x00, 0xFC, 0xFF]) .stored ⟨0, 3⟩ =
    .ok (.len 3 0xFFFC) ⟨5, 0⟩ := by decide +kernel

/-- Words of the opcode table: LEN265 `0001001x`, DIST25 `11001yyyyyyyyyyy` with the first extra bit set. -/
theorem test_decode_table_words : decodeTableWord 8 0b00010011 = some (.len265 1) ∧
    decodeTableWord 16 0b1100110000000000 = some (.dist25 1) ∧ decodeTableWord 8 0b11000111 = some (.llinv true) := by
  decide +kernel

/-- What cannot be decoded is rejected by name: no input (R201), V44 (no code in the tree). -/
theorem test_decode_rejects : decode (Input.ofBytes []) .distFixed ⟨0, 0⟩ = .raises .streamExhausted ⟨0, 0⟩ ∧
    decode (stream [0]) (.codeLength .bareRoot) ⟨0, 0⟩ = .raises .malformedTree ⟨0, 1⟩ := by decide +kernel

/-! ### The BitReader (vectors V1 to V10 of 95_test_vectors.md) -/

/-- V1, V2: the first bits of `B5`. -/
theorem test_V1_V2_bits : readBitLsb (Input.ofBytes [0xB5]) ⟨0, 1⟩ = .ok false ⟨0, 2⟩ ∧
    readBitMsb (Input.ofBytes [0xB5]) ⟨0, 1⟩ = .ok false ⟨0, 2⟩ ∧ readBitMsb (Input.ofBytes [0xB5]) ⟨0, 2⟩ = .ok true ⟨0, 3⟩ := by
  decide

/-- V3, V4. -/
theorem test_V3_V4_fields : readBitsLsb (Input.ofBytes [0xB5]) 3 ⟨0, 0⟩ = .ok 5 ⟨0, 3⟩ ∧
    readBitsMsb (Input.ofBytes [0xB5]) 3 ⟨0, 3⟩ = .ok 3 ⟨0, 6⟩ ∧ readBitsMsb (Input.ofBytes [0xB5]) 4 ⟨0, 0⟩ = .ok 10 ⟨0, 4⟩ ∧
    readHuffmanCode (Input.ofBytes [0xB5]) 4 ⟨0, 0⟩ = .ok 5 ⟨0, 4⟩ := by decide

/-- V6, V7: a field that straddles bytes; a field cut short. -/
theorem test_V6_V7_straddle : readBitsLsb (Input.ofBytes [0xB5, 0x01]) 11 ⟨0, 0⟩ = .ok 437 ⟨1, 3⟩ ∧
    readBitsLsb (Input.ofBytes [0xFF]) 6 ⟨0, 3⟩ = .raises .streamExhausted ⟨1, 0⟩ := by decide

/-- V9, V10a, T3: little-endian bytes; a failing `read_bytes` consumes nothing. -/
theorem test_V9_V10_bytes : readBytes (Input.ofBytes [0x78, 0x56, 0x34, 0x12]) 4 ⟨0, 0⟩ = .ok 0x12345678 ⟨4, 0⟩ ∧
    readBytes (Input.ofBytes [0x78, 0x56, 0x34]) 4 ⟨1, 0⟩ = .raises .streamExhausted ⟨1, 0⟩ ∧
    readBytes (Input.ofBytes [0x34, 0x12]) 2 ⟨0, 0⟩ = .ok 0x1234 ⟨2, 0⟩ := by decide

/-- V10b: alignment, twice. -/
theorem test_V10b_align : Cursor.align ⟨0, 3⟩ = ⟨1, 0⟩ ∧ Cursor.align ⟨1, 0⟩ = ⟨1, 0⟩ := by decide

/-! ### Trees (vectors V11 to V19) -/

/-- V12: the codes of `[3,3,3,3,3,2,4,4]`. -/
theorem test_V12_codes : ([0, 4, 5, 6, 7].map (build [3, 3, 3, 3, 3, 2, 4, 4]).tree.codeOf) =
    [some [false, true, false], some [true, true, false], some [false, false], some [true, true, true, false],
      some [true, true, true, true]] := by decide

/-- V11a: three symbols of that tree from `87 00`. -/
theorem test_V11a_walk : (build [3, 3, 3, 3, 3, 2, 4, 4]).tree.walk (Input.ofBytes [0x87, 0x00]) ⟨0, 0⟩ = .ok 6 ⟨0, 4⟩ ∧
    (build [3, 3, 3, 3, 3, 2, 4, 4]).tree.walk (Input.ofBytes [0x87, 0x00]) ⟨0, 4⟩ = .ok 5 ⟨0, 6⟩ ∧
    (build [3, 3, 3, 3, 3, 2, 4, 4]).tree.walk (Input.ofBytes [0x87, 0x00]) ⟨0, 6⟩ = .ok 0 ⟨1, 1⟩ := by decide

/-- V11: the scratch registers before assignment are `bl_count` 1 1 2 and `next_code` 0 2 6. -/
theorem test_V11_counts : (countLengths [2, 1, 3, 3]).take 4 = [0, 1, 1, 2] ∧
    (firstCodes (countLengths [2, 1, 3, 3])).take 4 = [0, 0, 2, 6] := by decide

/-- V16, V17, V18, V19: accepted and rejected sets of lengths; the chain of 15 has 16 nodes. -/
theorem test_V16_to_V19_accept : (build [0, 0, 0]).ok = true ∧ (build [1, 1, 1]).ok = false ∧
    (build [1, 2, 2, 2]).ok = false ∧ (build [15]).ok = true ∧ (build [15]).tree.nodes = 16 := by decide

/-- V13a, V15a: a missing child raises with its bit consumed. -/
theorem test_V13a_V15a_missing : (build [0, 0, 1]).tree.walk (stream [0, 1]) ⟨0, 1⟩ = .raises .malformedTree ⟨0, 2⟩ ∧
    (build [2, 2, 2]).tree.walk (Input.ofBytes [3]) ⟨0, 0⟩ = .raises .malformedTree ⟨0, 2⟩ := by decide

/-! ### The window and the sink (vectors V20 to V29, V10e) -/

/-- V21: `copy_back(5, 3)` after `abc` gives `abcabcab`. -/
theorem test_V21_overlap :
    (opState (copyBack 5 3 (emittedState 3 8 [0x61, 0x62, 0x63]))).map (fun r => (r.1.output, r.1.cursor, r.2)) =
      some ([0x61, 0x62, 0x63, 0x61, 0x62, 0x63, 0x61, 0x62], 8, false) := by decide +kernel

/-- V23, V24, V29: a distance above `emitted` or 0 raises, also for length 0. -/
theorem test_V23_V24_V29_distance :
    (opState (copyBack 3 4 (emittedState 3 8 [0x61, 0x62, 0x63]))).map (fun r => (r.1.errorKind, r.1.emitted)) =
      some (some .invalidDistance, 3) ∧
    (opState (copyBack 3 0 (emittedState 3 8 [0x61, 0x62, 0x63]))).map (fun r => r.1.errorKind) =
      some (some .invalidDistance) ∧
    (opState (copyBack 0 1 (emittedState 0 8 []))).map (fun r => r.1.errorKind) = some (some .invalidDistance) := by
  decide +kernel

/-- V27: distance 257 with `emitted = 259` and a window of 256. -/
theorem test_V27_capacity :
    (opState (copyBack 1 257 (emittedState 259 8 []))).map (fun r => (r.1.errorKind, r.1.cursor)) =
      some (some .invalidDistance, 3) := by decide +kernel

/-- V28: with `OUT_CAP = 2` full, `append(3)` raises; the window has taken the byte. -/
theorem test_V28_full :
    (opState (append 3 { emittedState 2 8 [1, 2] with params := ⟨⟨[], 0⟩, 8, some 2, 0, false⟩ })).map
      (fun r => (r.1.errorKind, r.1.win.read 2, r.1.emitted, r.1.outPos)) = some (some .bufferFull, some 3, 3, 2) := by
  decide +kernel

/-! ### Single steps -/

/-- The header of V51 (`63`: final, fixed), of P3 (`00`: stored, not final) and BTYPE = 3 of V92 (`07`). -/
theorem test_step_header :
    after (step (running (Input.ofBytes [0x63]) .readHeader .symbol)) (fun s => (s.bfinal, s.btype, s.phase, s.pc)) =
      some (true, 1, .fixedHuffman, ⟨0, 3⟩) ∧
    after (step (running (Input.ofBytes [0x00]) .readHeader .symbol)) (fun s => (s.bfinal, s.btype, s.phase, s.pc)) =
      some (false, 0, .stored, ⟨0, 3⟩) ∧
    after (step (running (Input.ofBytes [0x07]) .readHeader .symbol)) (fun s => (s.errorKind, s.phase, s.pc)) =
      some (some .invalidBlockType, .error, ⟨0, 3⟩) := by decide +kernel

/-- T4: the stored block of three bytes, from its LEN on. -/
theorem test_step_stored :
    after (step { running (Input.ofBytes [0x01, 0x03, 0x00, 0xFC, 0xFF, 0x41, 0x42, 0x43]) .stored .symbol with pc := ⟨0, 3⟩ })
      (fun s => (s.output, s.pc, s.phase, s.cursor, s.emitted)) = some ([0x41, 0x42, 0x43], ⟨8, 0⟩, .done, 3, 3) := by
  decide +kernel

/-- P4: `hlit` 260, `hdist` 2, `hclen` 18. -/
theorem test_exec_counts : after (exec (.hlit 3) State.reset) (·.hlit) = some 260 ∧
    after (exec (.hdist 1) State.reset) (·.hdist) = some 2 ∧ after (exec (.hclen 14) State.reset) (·.hclen) = some 18 := by
  decide +kernel

/-- V45: the last of the four fields `1 1 1 0` completes an over-subscribed code-length code. -/
theorem test_exec_cllen_oversubscribed :
    after (exec (.cllen 0) { State.reset with clLen := List.replicate 16 0 ++ [1, 1, 1], hclen := 4, i := 3 })
      (fun s => (s.errorKind, s.phase)) = some (some .malformedTree, .error) := by decide +kernel

/-- V46: code-length symbol 16 with no previous length. -/
theorem test_exec_clRep_first : after (exec (.clRep 0) { State.reset with hlit := 257, hdist := 1 }) (·.errorKind) =
    some (some .malformedTree) := by decide +kernel

/-- P4: `CL_REP 0` after `lens[256] = 3` sets `lens[257..259]`. -/
theorem test_exec_clRep_repeats :
    after (exec (.clRep 0) { State.reset with hlit := 260, hdist := 2, i := 257, lens := (List.replicate 320 0).set 256 3 })
      (fun s => (s.i, s.lens.getD 257 0, s.lens.getD 259 0, s.lens.getD 260 0)) = some (260, 3, 3, 0) := by decide +kernel

/-- V47: a second zero run of 138 passes 258. -/
theorem test_exec_clZero7_past : after (exec (.clZero7 127) { State.reset with hlit := 257, hdist := 1, i := 138 })
    (fun s => (s.errorKind, s.i)) = some (some .malformedTree, 138) := by decide +kernel

/-- A zero run of 3 + 7 (30_encoding.md R66). -/
theorem test_exec_clZero3 : after (exec (.clZero3 7) { State.reset with hlit := 257, hdist := 1 }) (·.i) = some 10 := by
  decide +kernel

/-- V40: the last `CL 0` completes `lens`; the literal/length tree has the codes 0:`0`, 256:`1`, the distance tree is the
bare root. -/
theorem test_exec_cl_builds :
    after (exec (.cl 0) { State.reset with hlit := 257, hdist := 1, i := 257, lens := ((List.replicate 320 0).set 0 1).set 256 1 })
      (fun s => (s.llTree.codeOf 0, s.llTree.codeOf 256, s.dTree, s.pos)) =
        some (some [false], some [true], .bareRoot, .symbol) := by decide +kernel

/-- V51: literal 0x90; the sink and the window take the byte. -/
theorem test_exec_literal : after (exec (.lit144 0x90) (emittedState 2 15 [0, 0x8F]))
    (fun s => (s.output, s.win.read 2, s.cursor, s.pos)) = some ([0, 0x8F, 0x90], some 0x90, 3, .distance) := by
  decide +kernel

/-- V53, V52: length 258 both ways; V55: length 12. -/
theorem test_exec_lengths : after (exec (.len284 31) State.reset) (·.length) = some 258 ∧
    after (exec .len285 State.reset) (·.length) = some 258 ∧
    after (exec (.len265 1) State.reset) (fun s => (s.length, s.pos)) = some (12, .distance) := by decide +kernel

/-- V54: distance symbol 4 with extra bit 0 is distance 5, after `abcde`. -/
theorem test_exec_distance :
    after (exec (.dist4 0) { emittedState 5 15 [0x61, 0x62, 0x63, 0x64, 0x65] with length := 5 })
      (fun s => (s.output.drop 5, s.distance, s.pos)) = some ([0x61, 0x62, 0x63, 0x64, 0x65], 5, .symbol) := by
  decide +kernel

/-- V57: distance 2 with one byte emitted. -/
theorem test_exec_distance_invalid : after (exec .dist1 { emittedState 1 15 [0x41] with length := 3 })
    (fun s => (s.errorKind, s.outPos, s.emitted)) = some (some .invalidDistance, 1, 1) := by decide +kernel

/-- V65: `OUT_CAP = 2` with one byte out: one byte of the copy lands, the window takes one more. -/
theorem test_exec_distance_full :
    after (exec .dist0 { emittedState 1 15 [0x41] with length := 3, params := ⟨⟨[], 0⟩, 15, some 2, 0, false⟩ })
      (fun s => (s.errorKind, s.output, s.cursor, s.emitted)) = some (some .bufferFull, [0x41, 0x41], 3, 3) := by
  decide +kernel

/-- V58, V60: the illegal symbols. -/
theorem test_exec_illegal : after (exec (.llinv false) State.reset) (·.errorKind) = some (some .invalidSymbol) ∧
    after (exec (.dinv true) State.reset) (·.errorKind) = some (some .invalidSymbol) := by decide +kernel

/-- `inflate_zlib` after a run that ended in an error (46_zlib_frame.md R190; `Idle` and no error kind: log 22). -/
theorem test_step_inflate_zlib :
    after (step (raise .bufferFull { State.reset with outPos := 3, inbox := [.inflateZlib (Input.ofBytes [0x78]) none false] }))
      (fun s => (s.pc, s.outPos, s.frame, s.errorKind, s.inbox)) = some (⟨0, 0⟩, 0, .header, none, []) := by decide +kernel

/-- A Start from reset (70_reset_and_hazards.md R230). -/
theorem test_step_start : after (step { State.reset with inbox := [.start ⟨Input.ofBytes [3, 0], 15, none, 1, false⟩] })
    (fun s => (s.phase, s.status, s.pc, s.inbox)) = some (.readHeader, .running, ⟨1, 0⟩, []) := by decide +kernel

/-! ### The wrapper (vectors V80 to V94) -/

/-- V89 (`78 9C`), V94 (`08 1D`: window 256), V84, V85, V86: the header step. -/
theorem test_step_zlib_header :
    after (step (zlibState (Input.ofBytes [0x78, 0x9C, 3, 0]) none false [])) (fun s => (s.params.wbits, s.pc, s.phase)) =
      some (15, ⟨2, 0⟩, .readHeader) ∧
    after (step (zlibState (Input.ofBytes [0x08, 0x1D, 3, 0]) none false [])) (·.params.wbits) = some 8 ∧
    after (step (zlibState (Input.ofBytes [0x79, 0x9C]) none false [])) (·.errorKind) =
      some (some .unsupportedCompressionMethod) ∧
    after (step (zlibState (Input.ofBytes [0x78, 0x9D]) none false [])) (·.errorKind) = some (some .headerChecksumInvalid) ∧
    after (step (zlibState (Input.ofBytes [0x78, 0xBB]) none false [])) (·.errorKind) =
      some (some .presetDictionaryUnsupported) := by decide +kernel

/-- V80: the trailer of `ABC` is `01 8D 00 C7`. -/
theorem test_adler : adler32 [0x41, 0x42, 0x43] = 0x018D00C7 ∧ adler32 [] = 1 := by decide

/-! ### The hypotheses of the obligations are met

One theorem for each obligation with hypotheses, at boundary values of each clause. -/

/-- 40000 bytes emitted, a window of 32 KiB: every distance 1 to 32768 is allowed. -/
def farState : State := emittedState 40000 15 []

/-- A running state that meets the invariant: it stands before the final fixed block `03 00` (V50). -/
def freshRun : State := startState ⟨Input.ofBytes [0x03, 0x00], 15, none, 0, false⟩ []

theorem freshRun_inv : freshRun.Inv where
  params := by unfold State.ParamsInRange; decide
  inbox := by intro c hc; cases hc
  cursor := by unfold State.CursorInBounds; decide
  sink := ⟨by (intro n hn; cases hn), by decide⟩
  window := ⟨by decide, by decide, by decide, by
    intro a
    constructor
    · intro h; cases h
    · rintro ⟨h, -⟩; exact absurd h (Nat.not_lt_zero a)⟩
  history := by
    intro _
    refine ⟨rfl, ?_⟩
    intro d h1 h2
    exact absurd (Nat.le_trans h1 h2) (by decide)
  status := ⟨by decide, by decide⟩
  arrays := by unfold State.ArraysInRange freshRun; decide +kernel
  block := trivial

theorem freshRun_step : ∃ t, step freshRun = .next t ∧ t.phase = .fixedHuffman ∧ t.status ≠ .error := by
  refine ⟨_, rfl, ?_, ?_⟩ <;> decide +kernel

theorem test_hyp_DecodeAfterEncode :
    (Instr.lit144 255).wf = true ∧ encode symFixed (.lit144 255) = some (List.replicate 9 true) ∧
    (stream [1,1,1,1,1,1,1,1,1]).holds (symFixed.start ⟨0, 0⟩) (List.replicate 9 true) ∧
    (Instr.len 3 0xFFFC).wf = true ∧ ((encode .stored (.len 3 0xFFFC)).map (·.length)) = some 32 := by
  refine ⟨by decide, by decide +kernel, ?_, by decide, by decide +kernel⟩
  unfold Input.holds
  decide +kernel

/-- The fixed places, and the three places of a dynamic block with the trees of P4. -/
theorem test_hyp_EncodeAfterDecode :
    (BuiltPlace symFixed ∧ decode (stream [0,0,0,0,0,0,0]) symFixed ⟨0, 0⟩ = .ok .eob ⟨0, 7⟩) ∧
    (BuiltPlace .stored ∧ decode (stream []) .stored ⟨0, 3⟩ = .ok (.len 0 0) ⟨5, 0⟩) ∧
    (BuiltPlace .distFixed ∧ decode (stream [1,1,1,1,1]) .distFixed ⟨0, 0⟩ = .ok (.dinv true) ⟨0, 5⟩) ∧
    (BuiltPlace (.codeLength clP4) ∧ decode (stream [1,1,1,  1,0]) (.codeLength clP4) ⟨0, 0⟩ = .ok (.clRep 1) ⟨0, 5⟩) ∧
    (BuiltPlace (.symbol llP4) ∧ decode (stream [1,1,0]) (.symbol llP4) ⟨0, 0⟩ = .ok .len258 ⟨0, 3⟩) ∧
    (BuiltPlace (.distTree (build [1, 1]).tree) ∧
      decode (stream [1]) (.distTree (build [1, 1]).tree) ⟨0, 0⟩ = .ok .dist1 ⟨0, 1⟩) := by
  refine ⟨⟨⟨fixedLlLen, ?_, ?_, ?_, fixedLlTree_eq_build⟩, ?_⟩, ⟨trivial, ?_⟩, ⟨trivial, ?_⟩,
    ⟨⟨clLengthsP4, ?_, ?_, ?_, rfl⟩, ?_⟩, ⟨⟨llLengthsP4, ?_, ?_, ?_, rfl⟩, ?_⟩, ⟨⟨[1, 1], ?_, ?_, ?_, rfl⟩, ?_⟩⟩ <;>
    decide +kernel

theorem test_hyp_FixedLiteralLengthCode :
    fixedLlTree.walk (Input.ofBytes [0x00]) ⟨0, 2⟩ = .raises .streamExhausted ⟨1, 0⟩ := by decide +kernel

theorem test_hyp_FixedDistanceCode :
    readBitsMsb (stream [0,0,0,0,0]) 5 ⟨0, 0⟩ = .ok 0 ⟨0, 5⟩ ∧ readBitsMsb (stream [1,1,1,0,1]) 5 ⟨0, 0⟩ = .ok 29 ⟨0, 5⟩ ∧
    readBitsMsb (stream [1,1,1,1,0]) 5 ⟨0, 0⟩ = .ok 30 ⟨0, 5⟩ ∧ readBitsMsb (stream [1,1,1,1,1]) 5 ⟨0, 0⟩ = .ok 31 ⟨0, 5⟩ := by
  decide +kernel

theorem test_hyp_ReadBitOrder : (⟨0, 7⟩ : Cursor).byte < (Input.ofBytes [1]).len ∧ (Input.ofBytes [1]).len ≤ (⟨1, 0⟩ : Cursor).byte := by
  decide

theorem test_hyp_ReadBitsClosedForm :
    ((⟨0, 3⟩ : Cursor).index + 5 ≤ 8 * (Input.ofBytes [1]).len) ∧
    ((⟨0, 3⟩ : Cursor).index ≤ 8 * (Input.ofBytes [1]).len ∧ 8 * (Input.ofBytes [1]).len < (⟨0, 3⟩ : Cursor).index + 6) := by
  decide

/-- V5: two reads in a row. -/
theorem test_hyp_ReadBitsClosedForm_split : readBitsLsb (Input.ofBytes [0xB5, 0x01]) 6 ⟨0, 0⟩ = .ok 53 ⟨0, 6⟩ ∧
    readBitsLsb (Input.ofBytes [0xB5, 0x01]) 5 ⟨0, 6⟩ = .ok 6 ⟨1, 3⟩ := by decide

theorem test_hyp_ReadBitsMsbReverses : readBitsLsb (Input.ofBytes [0xB5]) 4 ⟨0, 0⟩ = .ok 5 ⟨0, 4⟩ ∧
    readBitsLsb (Input.ofBytes [0xB5]) 9 ⟨0, 0⟩ = .raises .streamExhausted ⟨1, 0⟩ := by decide

theorem test_hyp_ReadBytesLittleEndian : 0 + 1 ≤ (Input.ofBytes [1]).len ∧ (Input.ofBytes [1]).len < 0 + 2 := by decide

theorem test_hyp_SkipToNextByte : (⟨0, 0⟩ : Cursor).bit = 0 ∧ (⟨0, 7⟩ : Cursor).bit ≠ 0 ∧
    ({ running (Input.ofBytes [1]) .stored .symbol with pc := ⟨0, 7⟩ } : State).CursorInBounds := by
  unfold State.CursorInBounds
  decide +kernel

/-- V10e: room for one byte, then none. -/
theorem test_hyp_PutByte :
    let s := { State.reset with params := ⟨⟨[], 0⟩, 15, some 1, 0, false⟩ }
    Room s 1 ∧ (s.params.outCap = some 1 ∧ 1 ≤ ({ s with outPos := 1 } : State).outPos ∧ s.status ≠ .error) := by
  refine ⟨?_, by decide⟩
  intro cap h
  cases h
  decide

theorem test_hyp_ReadsMoveOnlyTheCursor :
    let s := running (Input.ofBytes [1, 2]) .readHeader .symbol
    let e := { s with pc := (⟨2, 0⟩ : Cursor) }
    s.CursorInBounds ∧ s.status ≠ .error ∧ s.pc.index + 1 ≤ 8 * s.input.len ∧ s.pc.index + 16 ≤ 8 * s.input.len ∧
    s.pc.bit = 0 ∧ s.pc.byte + 2 ≤ s.input.len ∧ s.input.len < s.pc.byte + 3 ∧
    e.CursorInBounds ∧ e.status ≠ .error ∧ 8 * e.input.len < e.pc.index + 1 := by
  unfold State.CursorInBounds
  decide +kernel

theorem test_hyp_BuildCounts : ∀ len ∈ [15, 0, 1], len ≤ 15 := by decide

theorem test_hyp_BuildRejects : (build [1, 1, 15]).ok = false ∧ (build [1, 1]).ok = true ∧ ∀ len ∈ [1, 1, 15], len ≤ 15 := by
  decide

theorem test_hyp_CanonicalCodesDecode : (∀ len ∈ [15, 0, 1], len ≤ 15) ∧ (build [15, 0, 1]).ok = true ∧
    2 < [15, 0, 1].length ∧ [15, 0, 1].getD 0 0 ≠ 0 ∧ [15, 0, 1].getD 2 0 ≠ 0 ∧
    (stream [0]).holds ⟨0, 0⟩ (msbBits 1 (canonicalCode [15, 0, 1] 2)) := by
  refine ⟨by decide, by decide, by decide, by decide, by decide, ?_⟩
  unfold Input.holds
  decide +kernel

theorem test_hyp_BuiltTreeShape : (∀ len ∈ [15, 0, 1], len ≤ 15) ∧ (build [15, 0, 1]).ok = true ∧
    (build [15, 0, 1]).tree.codeOf 2 = some [false] ∧ [false] <+: [false] := by decide

theorem test_hyp_EmptyTreeWalk : (⟨0, 7⟩ : Cursor).index < 8 * (Input.ofBytes [1]).len ∧
    8 * (Input.ofBytes [1]).len ≤ (⟨1, 0⟩ : Cursor).index := by decide

theorem test_hyp_BlockHeaders : State.reset.status ≠ .error := by decide

/-- All four headers of HeaderStep, and the cut one of HeaderCutShort. -/
theorem test_hyp_HeaderStep :
    let s := running (Input.ofBytes [0xA8, 0x04]) .readHeader .symbol
    s.phase = .readHeader ∧ s.status = .running ∧
    (⟨0, 0⟩ : Cursor).index + 3 ≤ 8 * s.input.len ∧ s.input.streamBit 1 = false ∧ s.input.streamBit 2 = false ∧
    (⟨0, 2⟩ : Cursor).index + 3 ≤ 8 * s.input.len ∧ s.input.streamBit 3 = true ∧ s.input.streamBit 4 = false ∧
    (⟨1, 0⟩ : Cursor).index + 3 ≤ 8 * s.input.len ∧ s.input.streamBit 9 = false ∧ s.input.streamBit 10 = true ∧
    ((⟨1, 6⟩ : Cursor).index ≤ 8 * s.input.len ∧ 8 * s.input.len < (⟨1, 6⟩ : Cursor).index + 3) ∧
    (let r := running (Input.ofBytes [0x07]) .readHeader .symbol;
      r.pc.index + 3 ≤ 8 * r.input.len ∧ r.input.streamBit 1 = true ∧ r.input.streamBit 2 = true) := by decide +kernel

/-- A stored block that fits exactly, LEN = 0, one cut short, one that overfills the sink, one that is not a
complement. -/
theorem test_hyp_StoredBlock :
    let s := running (Input.ofBytes [7, 8]) .stored .symbol
    let f := { s with params := { s.params with outCap := some 1 } }
    (0xFFFD : Half) = ~~~2 ∧ s.pc.bit = 0 ∧ s.cursor < s.capacity ∧ s.pc.byte + (2 : Half).toNat ≤ s.input.len ∧
    Room s (2 : Half).toNat ∧ (0xFFFF : Half) = ~~~0 ∧ Room s (0 : Half).toNat ∧ s.status ≠ .error ∧ (0 : Half) ≠ ~~~2 ∧
    s.pc.byte ≤ s.input.len ∧ (0xFFFC : Half) = ~~~3 ∧ s.input.len < s.pc.byte + (3 : Half).toNat ∧
    Room s (s.input.len - s.pc.byte) ∧
    (f.params.outCap = some 1 ∧ f.outPos ≤ 1 ∧ 1 < f.outPos + (2 : Half).toNat ∧ f.pc.byte + (1 - f.outPos) < f.input.len) := by
  refine ⟨by decide, by decide, by decide, by decide, ?_, by decide, ?_, by decide, by decide, by decide, by decide,
    by decide, ?_, by decide⟩ <;> (intro cap h; cases h)

theorem test_hyp_UnalignedReadBytesRefused : (⟨0, 1⟩ : Cursor).bit ≠ 0 ∧ (1 : Half) ≠ 0 := by decide

theorem test_hyp_DynamicCountsFromStream :
    let s := running (Input.ofBytes [0xFF, 0x3F]) .dynamicHuffman .hlit
    s.phase = .dynamicHuffman ∧ s.pos = .hlit ∧ s.pc.index + 14 ≤ 8 * s.input.len := by decide +kernel

/-- The last field of a code-length code that `build` accepts, one it rejects (V45), and a field that is not the last. -/
theorem test_hyp_CodeLengthCodeLength :
    let s := { State.reset with hclen := 4, i := 3, clLen := List.replicate 16 0 ++ [1, 1, 0] }
    let r := { s with clLen := List.replicate 16 0 ++ [1, 1, 1] }
    (2 : Nat) + 1 < s.hclen ∧ s.hclen ≤ s.i + 1 ∧ (build (s.clLen.set (orderTable.getD s.i 0) 0)).ok = true ∧
    (build (r.clLen.set (orderTable.getD r.i 0) 0)).ok = false ∧ r.status ≠ .error := by decide +kernel

/-- One field and nineteen. -/
theorem test_hyp_CodeLengthTable :
    let s := { running (Input.ofBytes (List.replicate 8 0)) .dynamicHuffman .cllen with hclen := 19 }
    s.phase = .dynamicHuffman ∧ s.pos = .cllen ∧ s.status = .running ∧ s.i = 0 ∧ s.clLen = List.replicate 19 0 ∧
    1 ≤ s.hclen ∧ s.hclen ≤ 19 ∧ s.pc.index + 3 * s.hclen ≤ 8 * s.input.len ∧
    1 ≤ ({ s with hclen := 1 } : State).hclen := by decide +kernel

/-- Runs that stop before `hlit + hdist`, that end there, and that pass it. -/
theorem test_hyp_CodeLengthSymbols :
    let s := { State.reset with hlit := 257, hdist := 1, i := 120 }
    s.status ≠ .error ∧ s.i ≠ 0 ∧ s.i + 1 < s.hlit + s.hdist ∧ s.i + (3 + (3 : BitVec 2).toNat) < s.hlit + s.hdist ∧
    s.i + (11 + (127 : BitVec 7).toNat) = s.hlit + s.hdist ∧ 257 + 1 = s.hlit + s.hdist ∧
    255 + (3 + (0 : BitVec 2).toNat) = s.hlit + s.hdist ∧ 248 + (3 + (7 : BitVec 3).toNat) = s.hlit + s.hdist := by
  decide +kernel

theorem test_hyp_CodeLengthRunsMalformed :
    let s := { State.reset with hlit := 257, hdist := 1, i := 256 }
    s.status ≠ .error ∧ State.reset.i = 0 ∧ s.hlit + s.hdist < s.i + (3 + (0 : BitVec 2).toNat) ∧
    s.hlit + s.hdist < s.i + (3 + (0 : BitVec 3).toNat) ∧ s.hlit + s.hdist < s.i + (11 + (0 : BitVec 7).toNat) := by
  decide +kernel

theorem test_hyp_EngineTurn :
    let s := { State.reset with phase := .done }
    s.phase = .done ∧ s.bfinal = false ∧ s.frame = .raw ∧ ({ s with frame := .body } : State).frame = .body ∧
    ({ s with bfinal := true } : State).bfinal = true := by decide +kernel

theorem test_hyp_LiteralAppends : State.reset.cursor < State.reset.capacity ∧ Room State.reset 1 := by
  refine ⟨by decide, ?_⟩
  intro cap h
  cases h

theorem test_hyp_IllegalSymbolsRaise : State.reset.status ≠ .error := by decide

/-- Every distance of every row is copied in one state: 1 (DIST0) to 32768 (DIST29 with all bits set). -/
theorem test_hyp_MatchDistancesCopy : ∀ d, 1 ≤ d → d ≤ 32768 →
    farState.cursor < farState.capacity ∧ d ≤ farState.emitted ∧ d ≤ farState.capacity ∧ Room farState farState.length := by
  intro d _ hd
  refine ⟨by decide, Nat.le_trans hd (by decide), hd, ?_⟩
  intro cap h
  cases h

/-- Distance 0 (V24), distance one more than `emitted` (V57), and one more than the window (V27). -/
theorem test_hyp_InvalidDistanceStops :
    let s := emittedState 259 8 []
    s.status ≠ .error ∧ (0 = 0 ∨ s.emitted < 0 ∨ s.capacity < 0) ∧ s.emitted < 260 ∧ s.capacity < 257 ∧
    (Instr.dist1).form = .coded .distance 1 0 0 ∧ (1 : Nat) ≤ 29 ∧ (emittedState 1 15 []).status ≠ .error ∧
    (emittedState 1 15 []).emitted < dbase 1 + 0 ∧
    (Instr.dist16 0).form = .coded .distance 16 7 0 ∧ (16 : Nat) ≤ 29 ∧ s.capacity < dbase 16 + 0 ∧
    dbase 16 + 0 ≤ s.emitted := by decide +kernel

theorem test_hyp_SinkFullStops :
    let s := { emittedState 1 15 [0x41] with length := 3, params := ⟨⟨[], 0⟩, 15, some 2, 0, false⟩ }
    s.status ≠ .error ∧ s.params.outCap = some 2 ∧ 2 ≤ ({ s with outPos := 2 } : State).outPos ∧
    (Instr.dist0).form = .coded .distance 0 0 0 ∧ (0 : Nat) ≤ 29 ∧ s.cursor < s.capacity ∧ dbase 0 + 0 ≤ s.emitted ∧
    dbase 0 + 0 ≤ s.capacity ∧ s.outPos ≤ 2 ∧ 2 < s.outPos + s.length := by decide +kernel

/-- Distance 1, equal to `emitted`, longest match. -/
theorem test_hyp_BackReferenceLaw :
    let s := emittedState 1 15 [0x41]
    s.WindowInBounds ∧ s.SinkInOrder ∧ s.WindowHoldsHistory ∧ s.errorKind ≠ some .bufferFull ∧ 1 ≤ 1 ∧ 1 ≤ s.emitted ∧
    1 ≤ s.capacity ∧ Room s 258 := by
  refine ⟨⟨by decide, by decide, by decide, ?_⟩, ⟨by (intro n h; cases h), by decide⟩, ?_, by decide, by decide, by decide,
    by decide, by intro cap h; cases h⟩
  · intro a
    rcases a with - | a
    · decide
    · refine ⟨fun h => ?_, fun h => absurd h.1 (by simp [emittedState])⟩
      simp [emittedState, Memory.ofBytes, Memory.read] at h
  · intro _
    refine ⟨rfl, fun d h1 h2 _ => ?_⟩
    obtain rfl : d = 1 := Nat.le_antisymm h2 h1
    decide +kernel

theorem test_hyp_StepRunsDecodedInstruction :
    let s := running (stream [1]) .fixedHuffman .distance
    let e := running (Input.ofBytes []) .stored .symbol
    freshRun.phase = .readHeader ∧ decode freshRun.input freshRun.ctx freshRun.pc = .ok (.fixed true) ⟨0, 3⟩ ∧
    s.phase = .fixedHuffman ∧ decode s.input s.ctx s.pc = .ok (.dist16 0) ⟨1, 4⟩ ∧
    e.phase = .stored ∧ e.status = .running ∧ decode e.input e.ctx e.pc = .raises .streamExhausted ⟨0, 0⟩ := by
  decide +kernel

/-- One witness for the obligations about a step of a run: RunningStepAnswersNext, the StepKeeps statements, RunEnds,
CursorNeverMovesBack, RunKeepsParameters, MemoriesWrittenInOrder, TraceHasNoEffect. -/
theorem test_hyp_run : freshRun.Inv ∧ freshRun.StatusAgrees ∧ freshRun.CursorInBounds ∧ freshRun.SinkInOrder ∧
    freshRun.WindowInBounds ∧ freshRun.status = .running ∧ freshRun.phase ≠ .done ∧ freshRun.cursor < freshRun.capacity ∧
    ∃ t, step freshRun = .next t ∧ t.phase = .fixedHuffman ∧ t.status ≠ .error :=
  ⟨freshRun_inv, freshRun_inv.status, freshRun_inv.cursor, freshRun_inv.sink, freshRun_inv.window, rfl, by decide, by decide,
    freshRun_step⟩

theorem test_hyp_OtherInstructionsKeepMemories : appends .eob = false ∧ ∃ t, exec .eob State.reset = .next t :=
  ⟨by decide, _, rfl⟩

/-- A step of a run that errs: V92's header `07`, V43's first data bit on a bare root. -/
theorem test_hyp_CoreErrorKinds :
    (let s := running (Input.ofBytes [0x07]) .readHeader .symbol;
      s.StatusAgrees ∧ s.status = .running ∧ after (step s) (·.status) = some .error) ∧
    (let s := running (Input.ofBytes [0x07]) .dynamicHuffman .symbol;
      s.StatusAgrees ∧ s.status = .running ∧ after (step s) (·.errorKind) = some (some .malformedTree)) := by
  unfold State.StatusAgrees
  decide +kernel

theorem test_hyp_RaiseFreezes : State.reset.status ≠ .error ∧ (raise .bufferFull State.reset).status = .error := by
  decide

theorem test_hyp_FinishedOnlyAfterFinalBlock :
    let s := { running ⟨[], 0⟩ .done .symbol with bfinal := true }
    s.StatusAgrees ∧ s.status = .running ∧ after (step s) (·.status) = some .finished := by
  unfold State.StatusAgrees
  decide +kernel

/-- Start from Idle, Finished and Error with the smallest window and the largest start byte, one during a run; the same
places for `inflate_zlib`; and no command. -/
theorem test_hyp_StartState :
    let p : Params := ⟨Input.ofBytes [3, 0], 8, none, 2, false⟩
    let s := { State.reset with inbox := [.start p] }
    s.inbox = .start p :: [] ∧ 8 ≤ p.wbits ∧ p.wbits ≤ 15 ∧ p.startByte ≤ p.input.len ∧ s.status ≠ .running ∧
    (s.phase = .idle ∧ s.frame ≠ .header) ∧
    (let f := s.setFinished;
      f.status ≠ .running ∧ f.phase = .finished ∧ f.frame ≠ .trailer) ∧
    (let e := raise .bufferFull s;
      e.status ≠ .running ∧ e.phase = .error) ∧
    ({ s with status := .running } : State).status = .running ∧
    (let z := { s with inbox := [.inflateZlib (Input.ofBytes []) (some 0) true] };
      z.inbox = .inflateZlib (Input.ofBytes []) (some 0) true :: [] ∧ z.status ≠ .running ∧ z.phase = .idle ∧
        z.frame ≠ .header ∧ z.setFinished.frame ≠ .trailer ∧ (raise .bufferFull z).phase = .error) ∧
    (State.reset.phase = .idle ∧ State.reset.frame ≠ .header ∧ State.reset.inbox = []) := by decide +kernel

/-- V84, V85, V86, V89, CINFO = 8 with a valid check (`88 1C`), and a header cut short (V90). -/
theorem test_hyp_ZlibHeaderStep :
    let s := zlibState (Input.ofBytes [0x78, 0x9C]) none false []
    s.phase = .idle ∧ s.status = .idle ∧ s.frame = .header ∧ s.pc = ⟨0, 0⟩ ∧ 2 ≤ s.input.len ∧
    0x79 % 16 ≠ 8 ∧ (0x78 % 16 = 8 ∧ (0x78 * 256 + 0x9D) % 31 ≠ 0) ∧
    ((0x78 * 256 + 0xBB) % 31 = 0 ∧ 0xBB / 32 % 2 = 1) ∧
    (0x88 % 16 = 8 ∧ (0x88 * 256 + 0x1C) % 31 = 0 ∧ 0x1C / 32 % 2 = 0 ∧ 7 < 0x88 / 16) ∧
    ((s.input.byte 0).toNat % 16 = 8 ∧ ((s.input.byte 0).toNat * 256 + (s.input.byte 1).toNat) % 31 = 0 ∧
      (s.input.byte 1).toNat / 32 % 2 = 0 ∧ (s.input.byte 0).toNat / 16 ≤ 7) ∧
    (zlibState (Input.ofBytes [0x78]) none false []).input.len < 2 := by decide +kernel

/-- The trailer of the empty output, whole, wrong and cut short, at an unaligned cursor. -/
theorem test_hyp_ZlibTrailerStep :
    let z := zlibState (Input.ofBytes [3, 0, 0, 0, 1]) none false []
    let s := { z with phase := .finished, status := .finished, frame := .trailer, pc := (⟨0, 3⟩ : Cursor) }
    let w := { s with params := { s.params with input := Input.ofBytes [3, 0, 0, 0, 2] } }
    let c := { s with params := { s.params with input := Input.ofBytes [3, 0, 0, 0] } }
    s.phase = .finished ∧ s.status = .finished ∧ s.frame = .trailer ∧ s.CursorInBounds ∧
    after (step s) (·.frame) = some .complete ∧ after (step w) (·.errorKind) = some (some .checksumMismatch) ∧
    w.CursorInBounds ∧ after (step c) (·.errorKind) = some (some .streamExhausted) ∧ c.CursorInBounds := by
  unfold State.CursorInBounds
  decide +kernel

end Sys2Proof.Tests
end

section
/-! PROOFS. The host's side of a run: a step of a run changes no parameter and takes no command (00_scope.md R5, R7;
20_memory.md R41; 70_reset_and_hazards.md R233). -/

namespace Sys2Proof.Machine

/-! ### The phases of a run -/

/-- R25: the running machine reads an element or turns the engine loop. -/
theorem Phase.reads_or_done {p : Phase} (h : statusOf p = .running) : p.Reads = true ∨ p = .done := by
  cases p with
  | readHeader | stored | fixedHuffman | dynamicHuffman => exact .inl rfl
  | done => exact .inr rfl
  | idle | finished | error => cases h

/-! ### What belongs to the host -/

/-- The parameters and the commands not yet taken are those of `s`. -/
structure SameHost (s t : State) : Prop where
  params : t.params = s.params
  inbox : t.inbox = s.inbox

theorem SameHost.trans {s t u : State} (h : SameHost s t) (h' : SameHost t u) : SameHost s u :=
  ⟨h'.params.trans h.params, h'.inbox.trans h.inbox⟩

theorem SameHost.raise {s t : State} (h : SameHost s t) (k : ErrorKind) : SameHost s (raise k t) :=
  h.trans ⟨raise_params k t, raise_inbox k t⟩

theorem append_sameHost (b : Byte) {s t : State} (h : SameHost s t) :
    (append b t).Ensures (SameHost s) (SameHost s) := by
  have hwin : SameHost s (t.pushWin b) := h.trans ⟨rfl, rfl⟩
  rw [append_eq]
  split
  · exact hwin.raise .bufferFull
  · exact hwin.trans ⟨rfl, rfl⟩

theorem callReadByte_sameHost {s t : State} (ha : t.pc.bit = 0) (h : SameHost s t) :
    (callReadBytes 1 t).Ensures (SameHost s) (SameHost s) := by
  by_cases hl : t.pc.byte < t.input.len
  · rw [callReadByte_ok ha hl]
    exact h.trans ⟨rfl, rfl⟩
  · rw [callReadByte_raises ha (by omega)]
    exact h.raise .streamExhausted

/-- Every instruction keeps what belongs to the host, errors included. -/
theorem kept_sameHost (s : State) : Kept (SameHost s) (SameHost s) where
  same _ _ hd h := h.trans ⟨hd.params, hd.inbox⟩
  append b _ h := append_sameHost b h
  read _ ha h := callReadByte_sameHost ha h
  raise k _ h := h.raise k

theorem latchCutHeader_sameHost (s : State) : SameHost s (latchCutHeader s) := by
  obtain ⟨f, hf⟩ := latchCutHeader_writes s
  rw [hf]
  exact ⟨rfl, rfl⟩

/-! ### A step of a run -/

theorem runElement_sameHost {s t : State} (h : runElement s = .next t) : SameHost s t := by
  obtain ⟨u, hu, hsame⟩ := runElement_ensures (kept_sameHost s) (fun _ _ _ => ⟨rfl, rfl⟩)
    fun k c _ => ((latchCutHeader_sameHost s).trans (u := (latchCutHeader s).setPc c) ⟨rfl, rfl⟩).raise k
  obtain rfl : u = t := Host.Outcome.next.inj (hu.symm.trans h)
  exact hsame.elim id id

theorem endBlock_sameHost {s t : State} (h : endBlock s = .next t) : SameHost s t := by
  obtain rfl := Host.Outcome.next.inj h
  split
  · exact ⟨rfl, rfl⟩
  · exact ⟨rfl, rfl⟩

theorem step_sameHost {s t : State} (hs : s.StatusAgrees) (hr : s.status = .running) (h : step s = .next t) :
    SameHost s t := by
  obtain ⟨hphase, -⟩ := hs
  rcases Phase.reads_or_done (hphase.symm.trans hr) with hp | hp
  · exact runElement_sameHost ((step_reads hp).symm.trans h)
  · exact endBlock_sameHost ((step_done hp).symm.trans h)

/-- Settles O50: a step of a run is an element or the turn of the engine loop, and neither writes what belongs to the
host. -/
theorem runKeepsParameters : Obligations.RunKeepsParameters := by
  intro s t hs hr h
  have hsame := step_sameHost hs hr h
  exact ⟨hsame.params, hsame.inbox⟩

end Sys2Proof.Machine
end

section
/-! PROOFS. What every step keeps of the data (10_state.md R13, R14, R16, R25; 42_sliding_window.md R130): one `Kept` for
each invariant, what a step outside the elements can do, and the four invariants assembled from the two. -/

namespace Sys2Proof.Machine

/-! ### Reads, and pairs of invariants -/

theorem Op.Ensures.and {α : Type} {o : Op α} {P Q P' Q' : State → Prop} (h : o.Ensures P Q) (h' : o.Ensures P' Q') :
    o.Ensures (fun s => P s ∧ P' s) fun s => Q s ∧ Q' s := by
  cases o with
  | ok v s => exact ⟨h, h'⟩
  | raised s => exact ⟨h, h'⟩
  | refused r => exact h

/-- Two invariants that an instruction keeps are kept together. -/
theorem Kept.and {P R P' R' : State → Prop} (h : Kept P R) (h' : Kept P' R') :
    Kept (fun s => P s ∧ P' s) fun s => R s ∧ R' s where
  same s t hd hs := ⟨h.same s t hd hs.1, h'.same s t hd hs.2⟩
  append b s hs := (h.append b s hs.1).and (h'.append b s hs.2)
  read s ha hs := (h.read s ha hs.1).and (h'.read s ha hs.2)
  raise k s hs := ⟨h.raise k s hs.1, h'.raise k s hs.2⟩

/-- R97: a byte read at an aligned cursor moves past the byte or raises with the cursor where it was. -/
theorem callReadByte_ensures {P R : State → Prop} {s : State} (ha : s.pc.bit = 0)
    (hok : s.pc.byte < s.input.len → P (s.setPc ⟨s.pc.byte + 1, s.pc.bit⟩)) (hraise : R (raise .streamExhausted s)) :
    (callReadBytes 1 s).Ensures P R := by
  by_cases hl : s.pc.byte < s.input.len
  · rw [callReadByte_ok ha hl]
    exact hok hl
  · rw [callReadByte_raises ha (by omega)]
    exact hraise

/-! ### The cursor -/

/-- R13 on the stream bit. -/
theorem State.cursorInBounds_iff (s : State) : s.CursorInBounds ↔ s.pc.index ≤ 8 * s.input.len :=
  s.pc.inBounds_iff s.input.len

theorem State.CursorInBounds.congr {s t : State} (h : s.CursorInBounds) (hp : t.params = s.params) (hc : t.pc = s.pc) :
    t.CursorInBounds := by
  rw [State.CursorInBounds, State.input, hp, hc]
  exact h

/-- R13: every instruction keeps the cursor in bounds. -/
theorem kept_cursorInBounds : Kept State.CursorInBounds State.CursorInBounds where
  same _ _ hd h := h.congr hd.params hd.pc
  append b s h := by
    rw [append_eq]
    split
    · exact h.congr (raise_params _ _) (raise_pc _ _)
    · exact h.congr rfl rfl
  read s ha h := callReadByte_ensures ha
    (fun hl => ⟨hl, fun hb => absurd ha hb⟩) (h.congr (raise_params _ _) (raise_pc _ _))
  raise k s h := h.congr (raise_params k s) (raise_pc k s)

/-- R13, R100 (a): whatever trees are in force, an element never moves the cursor back or past the end. -/
theorem decode_moves_forward {m : Input} (ctx : Ctx) {c : Cursor} (h : c.index ≤ 8 * m.len) :
    (decode m ctx c).Moves m c 0 := by
  cases ctx with
  | codeLength t => exact (Tree.walk_moves t h).bind fun _ _ _ hd => codeLengthRest_moves hd _
  | symbol t => exact (Tree.walk_moves t h).bind fun _ _ _ hd => symbolRest_moves hd _
  | distTree t => exact (Tree.walk_moves t h).bind fun _ _ _ hd => distanceRest_moves hd _
  | header | stored | hlit | hdist | hclen | cllen | distFixed => exact (decode_moves (by trivial) h).weaken (by omega)

/-! ### The sink -/

theorem State.SinkInOrder.congr {s t : State} (h : s.SinkInOrder) (hp : t.params = s.params) (ho : t.out = s.out)
    (hn : t.outPos = s.outPos) : t.SinkInOrder := by
  rw [State.SinkInOrder, hp, ho, hn]
  exact h

/-- R14: every instruction keeps the sink in order. -/
theorem kept_sinkInOrder : Kept State.SinkInOrder State.SinkInOrder where
  same _ _ hd h := h.congr hd.params hd.out hd.outPos
  append b _ h := append_sinkInOrder b h
  read _ ha h := callReadByte_ensures ha (fun _ => h.congr rfl rfl rfl)
    (h.congr (raise_params _ _) (raise_out _ _) (raise_outPos _ _))
  raise k s h := h.congr (raise_params k s) (raise_out k s) (raise_outPos k s)

/-! ### The window -/

theorem State.WindowInBounds.congr {s t : State} (h : s.WindowInBounds) (hp : t.params = s.params) (hw : t.win = s.win)
    (hc : t.cursor = s.cursor) (he : t.emitted = s.emitted) : t.WindowInBounds := by
  rw [State.WindowInBounds, State.capacity, hp, hw, hc, he]
  exact h

theorem State.WindowInBounds.raise {s : State} (h : s.WindowInBounds) (k : ErrorKind) :
    (raise k s).WindowInBounds :=
  h.congr (raise_params k s) (raise_win k s) (raise_cursor k s) (raise_emitted k s)

/-- R16 (a), (b), R130: every instruction keeps the window in bounds. -/
theorem kept_windowInBounds : Kept State.WindowInBounds State.WindowInBounds where
  same _ _ hd h := h.congr hd.params hd.win hd.cursor hd.emitted
  append b _ h := append_windowInBounds b h
  read _ ha h := callReadByte_ensures ha (fun _ => h.congr rfl rfl rfl rfl) (h.raise _)
  raise k _ h := h.raise k

/-! ### Status and phase -/

theorem State.StatusAgrees.raise {s : State} (h : s.StatusAgrees) (k : ErrorKind) : (raise k s).StatusAgrees := by
  by_cases hs : s.status = .error
  · rw [raise_of_error hs]
    exact h
  · rw [raise_of_running hs]
    exact ⟨rfl, iff_of_true rfl rfl⟩

theorem State.StatusAgrees.congr {s t : State} (h : s.StatusAgrees) (hp : t.phase = s.phase) (hs : t.status = s.status)
    (he : t.errorKind = s.errorKind) : t.StatusAgrees := by
  rw [State.StatusAgrees, hp, hs, he]
  exact h

/-- R25: while the machine runs no error is recorded. -/
theorem State.StatusAgrees.errorKind_of_not_error {s : State} (h : s.StatusAgrees) (hs : s.phase ≠ .error) :
    s.errorKind = none := by
  obtain ⟨-, he⟩ := h
  simpa [hs] using he

/-- The machine runs and its status agrees with its phase. -/
def State.RunsInPhase (s : State) : Prop := s.StatusAgrees ∧ s.status = .running

theorem State.RunsInPhase.phase_ne_error {s : State} (h : s.RunsInPhase) : s.phase ≠ .error := by
  obtain ⟨⟨hs, -⟩, hr⟩ := h
  rintro hp
  rw [hr, hp] at hs
  cases hs

theorem State.RunsInPhase.errorKind_eq_none {s : State} (h : s.RunsInPhase) : s.errorKind = none :=
  h.1.errorKind_of_not_error h.phase_ne_error

theorem State.RunsInPhase.of_reads {s : State} (h : s.StatusAgrees) (hp : s.phase.Reads = true) : s.RunsInPhase := by
  refine ⟨h, h.1.trans ?_⟩
  cases hph : s.phase with
  | readHeader | stored | fixedHuffman | dynamicHuffman => rfl
  | idle | done | finished | error => rw [hph] at hp; cases hp

/-- An update of the running machine that leaves it in a phase of the running machine keeps the agreement. -/
theorem State.RunsInPhase.congr {s t : State} (h : s.RunsInPhase) (hs : t.status = s.status)
    (he : t.errorKind = s.errorKind) (hp : t.phase = s.phase ∨ statusOf t.phase = .running) : t.RunsInPhase := by
  have hrun : t.status = .running := hs.trans h.2
  rcases hp with hp | hp
  · exact ⟨h.1.congr hp hs he, hrun⟩
  · have hne : t.phase ≠ .error := fun hpe => by rw [hpe] at hp; cases hp
    refine ⟨⟨hrun.trans hp.symm, ?_⟩, hrun⟩
    rw [he, h.errorKind_eq_none]
    exact iff_of_false (by simp) hne

/-- R25: every instruction of a run keeps the agreement of status and phase. -/
theorem kept_statusAgrees : Kept State.RunsInPhase State.StatusAgrees where
  same _ _ hd h := h.congr hd.status hd.errorKind hd.phase
  append b s h := by
    rw [append_eq]
    split
    · exact State.StatusAgrees.raise (h.congr (t := s.pushWin b) rfl rfl (.inl rfl)).1 _
    · exact h.congr rfl rfl (.inl rfl)
  read _ ha h := callReadByte_ensures ha (fun _ => h.congr rfl rfl (.inl rfl)) (h.1.raise _)
  raise k _ h := h.1.raise k

/-! ### An element -/

/-- Moving the cursor to `c` keeps it in bounds. -/
def State.MovesInBounds (s : State) (c : Cursor) : Prop := s.CursorInBounds → (s.setPc c).CursorInBounds

/-- R13: wherever the reads of an element leave the cursor, it is in bounds. -/
theorem decode_movesInBounds {s : State} {c : Cursor}
    (h : (∃ i, decode s.input s.ctx s.pc = .ok i c) ∨ ∃ k, decode s.input s.ctx s.pc = .raises k c) :
    s.MovesInBounds c := by
  intro hs
  have hm := decode_moves_forward s.ctx (s.cursorInBounds_iff.1 hs)
  rw [State.cursorInBounds_iff]
  rcases h with ⟨i, h⟩ | ⟨k, h⟩ <;> rw [h] at hm <;> exact hm.2

/-- Everything an element can do to an invariant that instructions keep and that moves of the cursor keep. -/
theorem runElement_keeps {P R : State → Prop} (hk : Kept P R) {s t : State} (h : runElement s = .next t)
    (hpc : ∀ c, s.MovesInBounds c → P (s.setPc c)) : P t ∨ R t := by
  obtain ⟨u, hu, hkept⟩ := runElement_ensures hk (fun i c hd => hpc c (decode_movesInBounds (.inl ⟨i, hd⟩)))
    fun k c hd => by
      obtain ⟨f, hf⟩ := latchCutHeader_writes s
      rw [hf]
      exact hk.raise k _ (hk.same (s.setPc c) _ ⟨rfl, rfl, rfl, rfl, rfl, rfl, rfl, rfl, rfl, rfl, rfl, .inl rfl⟩
        (hpc c (decode_movesInBounds (.inr ⟨k, hd⟩))))
  obtain rfl : u = t := Host.Outcome.next.inj (hu.symm.trans h)
  exact hkept

/-! ### The steps outside the elements -/

/-- `t` begins a run, or the wrapper's header, from `s` (70_reset_and_hazards.md R230; 46_zlib_frame.md R190, R193): the
parameters, the inbox, the cursor, the phase, the status and the wrapper are written, everything else is as at reset. -/
structure Begins (s t : State) : Prop where
  data : t = { State.reset with params := t.params, inbox := t.inbox, pc := t.pc, phase := t.phase, status := t.status,
                                frame := t.frame }
  phase : t.phase = .readHeader ∨ t.phase = .idle
  status : t.status = statusOf t.phase
  cursor : t.CursorInBounds
  params : s.ParamsInRange → s.InboxWellFormed → t.ParamsInRange
  inbox : ∀ c ∈ t.inbox, c ∈ s.inbox

theorem zlibWbits_range {cmf : Byte} (h : (zlibCinfo cmf).toNat ≤ 7) : 8 ≤ zlibWbits cmf ∧ zlibWbits cmf ≤ 15 := by
  rw [zlibWbits]
  omega

/-- R230, R190: what a command of the host leaves begins a run or the wrapper's header. -/
theorem Begins.of_awaitHost {s t : State} (h : awaitHost s = .next t) : Begins s t := by
  obtain ⟨-, ⟨p, rest, hi, h₈, h₁₅, hstart, rfl⟩ | ⟨m, cap, tr, rest, hi, rfl⟩⟩ := awaitHost_next h
  · exact {
      data := rfl, phase := .inl rfl, status := rfl
      cursor := ⟨hstart, fun hb => absurd rfl hb⟩
      params := fun _ hw => ⟨hw (.start p) (by simp [hi]), h₈, h₁₅⟩
      inbox := fun c hc => by rw [hi]; exact List.mem_cons_of_mem _ hc }
  · exact {
      data := rfl, phase := .inr rfl, status := rfl
      cursor := ⟨Nat.zero_le _, fun hb => absurd rfl hb⟩
      params := fun _ hw => ⟨hw (.inflateZlib m cap tr) (by simp [hi]), by simp, by simp⟩
      inbox := fun c hc => by rw [hi]; exact List.mem_cons_of_mem _ hc }

theorem AfterByteReads.movesInBounds {s : State} {c : Cursor} (h : AfterByteReads s.input s.pc c) :
    s.MovesInBounds c := by
  intro hs
  rcases h with rfl | ⟨hbit, hbyte, -⟩
  · exact hs
  · exact ⟨hbyte, fun hb => absurd hbit hb⟩

theorem align_movesInBounds (s : State) : s.MovesInBounds s.pc.align := by
  intro hs
  have := s.cursorInBounds_iff.1 hs
  rw [State.cursorInBounds_iff, State.setPc_pc, Cursor.index_align, State.setPc_input]
  omega

/-- What the wrapper's own reads leave (46_zlib_frame.md R192, R194, R195): the cursor moved, then an error or the
decode complete. -/
inductive WrapperReads (s : State) : State → Prop
  | raises (k : ErrorKind) (c : Cursor) (h : s.MovesInBounds c) : WrapperReads s (raise k (s.setPc c))
  | completes (c : Cursor) (h : s.MovesInBounds c) : WrapperReads s ((s.setPc c).setFrame .complete)

theorem zlibHeader_cases {s t : State} (h : zlibHeader s = .next t) : WrapperReads s t ∨ Begins s t := by
  rcases zlibHeader_next h with ⟨k, c, rfl, hc⟩ | ⟨cmf, hcinfo, hlen, rfl⟩
  · exact .inl (.raises k c hc.movesInBounds)
  · exact .inr {
      data := rfl, phase := .inl rfl, status := rfl
      cursor := ⟨hlen, fun hb => absurd rfl hb⟩
      params := fun hp _ => ⟨hp.1, zlibWbits_range hcinfo⟩
      inbox := fun _ hc => hc }

theorem zlibTrailer_cases {s t : State} (h : zlibTrailer s = .next t) : WrapperReads s t := by
  obtain ⟨c, hc, ht⟩ := zlibTrailer_next h
  have hin : s.MovesInBounds c := fun hs =>
    (AfterByteReads.movesInBounds (s := s.setPc s.pc.align) hc) (align_movesInBounds s hs)
  rcases ht with ⟨k, rfl⟩ | rfl
  · exact .raises k c hin
  · exact .completes c hin

/-- What the turn of the engine loop leaves (45_inflate_engine.md R180, R181). -/
inductive BlockEnds (s : State) : State → Prop
  | finishes : BlockEnds s (s.setFinished.setFrame (frameAfterBody s.frame))
  | next : BlockEnds s (s.setPhase .readHeader)

/-- Everything a step that answers a next state can be, sorted by what it does to the data. -/
theorem step_cases {s t : State} (h : step s = .next t) :
    (s.phase.Reads = true ∧ runElement s = .next t) ∨ (s.phase = .done ∧ BlockEnds s t) ∨
      ((s.phase = .idle ∨ s.phase = .finished) ∧ WrapperReads s t) ∨ Begins s t := by
  rcases step_next h with h | ⟨hp, rfl⟩ | ⟨hp, -, h⟩ | ⟨hp, -, h⟩ | ⟨-, h⟩
  · exact .inl h
  · refine .inr (.inl ⟨hp, ?_⟩)
    split
    · exact .finishes
    · exact .next
  · rcases zlibHeader_cases h with h | h
    · exact .inr (.inr (.inl ⟨.inl hp, h⟩))
    · exact .inr (.inr (.inr h))
  · exact .inr (.inr (.inl ⟨.inr hp, zlibTrailer_cases h⟩))
  · exact .inr (.inr (.inr (Begins.of_awaitHost h)))

/-! ### A step -/

/-- R13: a step leaves the cursor in bounds. -/
theorem step_cursorInBounds {s t : State} (hs : s.CursorInBounds) (h : step s = .next t) : t.CursorInBounds := by
  rcases step_cases h with ⟨-, h⟩ | ⟨-, h⟩ | ⟨-, h⟩ | h
  · exact (runElement_keeps kept_cursorInBounds h fun _ hc => hc hs).elim id id
  · cases h with
    | finishes | next => exact hs.congr rfl rfl
  · cases h with
    | raises k c hc => exact (hc hs).congr (raise_params _ _) (raise_pc _ _)
    | completes c hc => exact (hc hs).congr rfl rfl
  · exact h.cursor

theorem Begins.sinkInOrder {s t : State} (h : Begins s t) : t.SinkInOrder := by
  rw [h.data]
  exact ⟨fun _ _ => Nat.zero_le _, rfl⟩

/-- R14: a step leaves the sink in order. -/
theorem step_sinkInOrder {s t : State} (hs : s.SinkInOrder) (h : step s = .next t) : t.SinkInOrder := by
  rcases step_cases h with ⟨-, h⟩ | ⟨-, h⟩ | ⟨-, h⟩ | h
  · exact (runElement_keeps kept_sinkInOrder h fun c _ => hs.congr (t := s.setPc c) rfl rfl rfl).elim id id
  · cases h with
    | finishes | next => exact hs.congr rfl rfl rfl
  · cases h with
    | raises k c _ => exact hs.congr (raise_params k (s.setPc c)) (raise_out k (s.setPc c)) (raise_outPos k (s.setPc c))
    | completes c _ => exact hs.congr rfl rfl rfl
  · exact h.sinkInOrder

theorem Begins.windowInBounds {s t : State} (h : Begins s t) : t.WindowInBounds := by
  rw [h.data]
  refine ⟨State.capacity_pos _, (Nat.zero_mod _).symm, List.Pairwise.nil, fun a => ?_⟩
  exact iff_of_false Bool.false_ne_true fun ha => absurd ha.1 (Nat.not_lt_zero a)

/-- R16 (a), (b), R130: a step leaves the window in bounds. -/
theorem step_windowInBounds {s t : State} (hs : s.WindowInBounds) (h : step s = .next t) : t.WindowInBounds := by
  rcases step_cases h with ⟨-, h⟩ | ⟨-, h⟩ | ⟨-, h⟩ | h
  · exact (runElement_keeps kept_windowInBounds h fun c _ => hs.congr (t := s.setPc c) rfl rfl rfl rfl).elim id id
  · cases h with
    | finishes | next => exact hs.congr rfl rfl rfl rfl
  · cases h with
    | raises k c _ => exact State.WindowInBounds.raise (hs.congr (t := s.setPc c) rfl rfl rfl rfl) k
    | completes c _ => exact hs.congr rfl rfl rfl rfl
  · exact h.windowInBounds

theorem Begins.statusAgrees {s t : State} (h : Begins s t) : t.StatusAgrees := by
  refine ⟨h.status, ?_⟩
  rw [h.data]
  exact iff_of_false Bool.false_ne_true (by rcases h.phase with hp | hp <;> simp [hp])

/-- R25: a step leaves status and phase in agreement. -/
theorem step_statusAgrees {s t : State} (hs : s.StatusAgrees) (h : step s = .next t) : t.StatusAgrees := by
  rcases step_cases h with ⟨hp, h⟩ | ⟨hp, h⟩ | ⟨hp, h⟩ | h
  · have hrun := State.RunsInPhase.of_reads hs hp
    exact (runElement_keeps kept_statusAgrees h fun c _ => hrun.congr (t := s.setPc c) rfl rfl (.inl rfl)).elim And.left id
  · have hno := hs.errorKind_of_not_error (by simp [hp])
    obtain ⟨hstatus, -⟩ := hs
    cases h with
    | finishes => exact ⟨rfl, iff_of_false (by simp [hno]) (by simp)⟩
    | next => exact ⟨by simp [hstatus, hp, statusOf], iff_of_false (by simp [hno]) (by simp)⟩
  · cases h with
    | raises k c _ => exact State.StatusAgrees.raise (hs.congr (t := s.setPc c) rfl rfl rfl) k
    | completes c _ => exact hs.congr rfl rfl rfl
  · exact h.statusAgrees

/-- Settles O44: `step_cursorInBounds` is the statement. -/
theorem stepKeepsCursorInBounds : Obligations.StepKeepsCursorInBounds := fun _ _ => step_cursorInBounds

/-- Settles O45: `step_sinkInOrder` is the statement. -/
theorem stepKeepsSinkInOrder : Obligations.StepKeepsSinkInOrder := fun _ _ => step_sinkInOrder

/-- Settles O46: `step_windowInBounds` is the statement. -/
theorem stepKeepsWindowInBounds : Obligations.StepKeepsWindowInBounds := fun _ _ => step_windowInBounds

/-- Settles O47: `step_statusAgrees` is the statement. -/
theorem stepKeepsStatusAgrees : Obligations.StepKeepsStatusAgrees := fun _ _ => step_statusAgrees

end Sys2Proof.Machine
end

section
/-! PROOFS. The place inside a block (10_state.md R17 to R24; 70_reset_and_hazards.md R239): what every instruction leaves
there, and with it the whole invariant of the machine. -/

namespace Sys2Proof.Machine

/-! ### The arrays -/

theorem State.ArraysInRange.putClLen {s : State} (h : s.ArraysInRange) {v : Nat} (hv : v ≤ 7) :
    (s.putClLen v).ArraysInRange := by
  obtain ⟨hcl, hclv, hl, hlv, hbl, hnc⟩ := h
  refine ⟨by simp [hcl], fun w hw => ?_, hl, hlv, hbl, hnc⟩
  rcases List.mem_or_eq_of_mem_set hw with hw | rfl
  · exact hclv w hw
  · exact hv

theorem State.ArraysInRange.putLen {s : State} (h : s.ArraysInRange) {v : Nat} (hv : v ≤ 15) :
    (s.putLen v).ArraysInRange := by
  obtain ⟨hcl, hclv, hl, hlv, hbl, hnc⟩ := h
  refine ⟨hcl, hclv, by simp [hl], fun w hw => ?_, hbl, hnc⟩
  rcases List.mem_or_eq_of_mem_set hw with hw | rfl
  · exact hlv w hw
  · exact hv

theorem State.ArraysInRange.fillLens {v : Nat} (hv : v ≤ 15) : ∀ (n : Nat) {s : State}, s.ArraysInRange →
    (fillLens n v s).ArraysInRange
  | 0, _, h => h
  | n + 1, _, h => State.ArraysInRange.fillLens hv n (h.putLen hv)

theorem State.ArraysInRange.clearClLen {s : State} (h : s.ArraysInRange) : s.clearClLen.ArraysInRange := by
  obtain ⟨-, -, hl, hlv, hbl, hnc⟩ := h
  exact ⟨List.length_replicate, fun w hw => (List.eq_of_mem_replicate hw).trans_le (Nat.zero_le 7), hl, hlv, hbl, hnc⟩

/-- R23: what a `build` leaves in the scratch registers fits, whichever tree it was for. -/
theorem State.ArraysInRange.afterBuild {s t : State} (h : s.ArraysInRange) (lengths : List Nat)
    (hcl : t.clLen = s.clLen) (hl : t.lens = s.lens) (hbl : t.blCount = (build lengths).blCount)
    (hnc : t.nextCode = (build lengths).nextCode) : t.ArraysInRange := by
  obtain ⟨hcl', hclv, hl', hlv, -, -⟩ := h
  obtain ⟨hb, hn⟩ := build_scratch lengths
  rw [State.ArraysInRange, hcl, hl, hbl, hnc]
  exact ⟨hcl', hclv, hl', hlv, hb, hn⟩

theorem State.ArraysInRange.previousLen {s : State} (h : s.ArraysInRange) : s.previousLen ≤ 15 := by
  obtain ⟨-, -, -, hlv, -, -⟩ := h
  rw [State.previousLen, List.getD_eq_getElem?_getD]
  cases hg : s.lens[s.i - 1]? with
  | none => simp
  | some v => exact hlv v (List.mem_of_getElem? hg)

/-! ### The places of a dynamic block -/

section
variable {s : State} (hp : s.phase = .dynamicHuffman)
include hp

theorem State.blockInOrder_hlit (hq : s.pos = .hlit) : s.BlockInOrder := by
  simp only [State.BlockInOrder, hp, hq]

theorem State.blockInOrder_hdist (hq : s.pos = .hdist) : s.BlockInOrder ↔ s.HlitInRange := by
  simp only [State.BlockInOrder, hp, hq]

theorem State.blockInOrder_hclen (hq : s.pos = .hclen) : s.BlockInOrder ↔ s.HlitInRange ∧ s.HdistInRange := by
  simp only [State.BlockInOrder, hp, hq]

theorem State.blockInOrder_cllen (hq : s.pos = .cllen) :
    s.BlockInOrder ↔ s.HlitInRange ∧ s.HdistInRange ∧ s.i < s.hclen ∧ s.hclen ≤ 19 := by
  simp only [State.BlockInOrder, hp, hq]

theorem State.blockInOrder_codeLength (hq : s.pos = .codeLength) :
    s.BlockInOrder ↔ s.HlitInRange ∧ s.HdistInRange ∧ s.i < s.total ∧ s.clTree.Over 19 := by
  simp only [State.BlockInOrder, hp, hq]

theorem State.blockInOrder_symbol (hq : s.pos = .symbol) : s.BlockInOrder ↔ s.llTree.Over 288 ∧ s.dTree.Over 32 := by
  simp only [State.BlockInOrder, hp, hq]

end

/-! ### What is in order inside a block -/

/-- The part of the invariant that the data does not determine: the arrays, and what holds at the place. -/
structure State.Arranged (s : State) : Prop where
  arrays : s.ArraysInRange
  block : s.BlockInOrder

/-- The outcome is a next state that is arranged. -/
def Arranges (o : Host.Outcome State Fault Refusal) : Prop := ∃ t, o = .next t ∧ t.Arranged

/-- R210: nothing is left to hold in `Error` but the arrays. -/
theorem raise_arranged {s : State} (h : s.ArraysInRange) (hs : s.status ≠ .error) (k : ErrorKind) :
    (raise k s).Arranged := by
  rw [raise_of_running hs]
  exact ⟨h, trivial⟩

theorem State.Arranged.sameButMemories {s t : State} (h : s.Arranged) (hst : SameButMemories s t) : t.Arranged := by
  rw [SameButMemories] at hst
  rw [hst]
  exact ⟨h.arrays, h.block⟩

theorem SameButMemories.status {s t : State} (h : SameButMemories s t) : t.status = s.status := by
  rw [SameButMemories] at h
  rw [h]

/-- An operation that writes only the memories, then a register update that leaves its place in order. -/
theorem arranges_after_memories {o : Op Unit} {s : State} (hs : s.Arranged) (hrun : s.status = .running)
    (ho : o.Ensures (SameButMemories s) fun t => ∃ k u, SameButMemories s u ∧ t = raise k u) (f : State → State)
    (hf : ∀ t : State, SameButMemories s t → (f t).Arranged) :
    Arranges (o.bind fun _ t => .ok () (f t)).outcome := by
  obtain ⟨t, ht, harr | ⟨k, u, hu, rfl⟩⟩ :=
    (ho.bind (Q := State.Arranged) (f := fun _ t => .ok () (f t)) fun _ t h => hf t h).outcome
  · exact ⟨t, ht, harr⟩
  · exact ⟨_, ht, raise_arranged (hs.sameButMemories hu).arrays (by rw [hu.status, hrun]; decide) k⟩

/-! ### The instructions of each place -/

section
variable {s : State} (hs : s.Arranged) (hrun : s.status = .running)
include hs hrun

theorem raises_arranges (k : ErrorKind) : Arranges (.next (raise k s)) :=
  ⟨_, rfl, raise_arranged hs.arrays (by rw [hrun]; decide) k⟩

/-- R137: a block header selects a phase in which nothing is required yet. -/
theorem blockHeader_arranges (final : Bool) : ∀ {t : Nat}, t < 4 → Arranges (execForm (.blockHeader final t) s)
  | 0, _ => ⟨_, rfl, hs.arrays, trivial⟩
  | 1, _ => ⟨_, rfl, hs.arrays, .inl rfl⟩
  | 2, _ => ⟨_, rfl, hs.arrays, trivial⟩
  | 3, _ => ⟨_, rfl, raise_arranged (s := s.setHeader final 3) hs.arrays
      (by rw [State.setHeader_status, hrun]; decide) _⟩
  | _ + 4, ht => absurd ht (by omega)

/-- R138: a stored block ends in `Done` or in an error. -/
theorem execLen_arranges (ha : s.pc.bit = 0) (l n : Half) : Arranges (execLen l n s) := by
  rw [execLen]
  split
  · exact arranges_after_memories (s := s.setRemaining l.toNat) ⟨hs.arrays, hs.block⟩ hrun
      (copyStored_sameButMemories _ _ ha) (·.setPhase .done) fun t h => ⟨(State.Arranged.sameButMemories
        (s := s.setRemaining l.toNat) ⟨hs.arrays, hs.block⟩ h).arrays, trivial⟩
  · exact raises_arranges hs hrun _

omit hs hrun in
/-- R75: a match length is 3 to 258. -/
theorem matchLengthOf_range {sym x : Nat} (h₁ : 257 ≤ sym) (h₂ : sym ≤ 285) (hx : x < 2 ^ lextra sym) :
    3 ≤ matchLengthOf sym x ∧ matchLengthOf sym x ≤ 258 := by
  obtain ⟨k, hk, rfl⟩ : ∃ k, k < 29 ∧ sym = 257 + k := ⟨sym - 257, by omega, by omega⟩
  have := lbase_range k hk
  rw [matchLengthOf]
  omega

omit hrun in
/-- R163: with a length in range the distance symbol may follow. -/
theorem toDistance_blockInOrder (hq : s.pos = .symbol) {n : Nat} (hn : 3 ≤ n ∧ n ≤ 258) :
    ((s.setLength n).setPos .distance).BlockInOrder := by
  have hb := hs.block
  cases hp : s.phase with
  | fixedHuffman => simp [State.BlockInOrder, State.LengthInRange, hp, hn]
  | dynamicHuffman =>
    obtain ⟨hll, hd⟩ := (State.blockInOrder_symbol hp hq).1 hb
    simp [State.BlockInOrder, State.LengthInRange, hp, hn, hll, hd]
  | idle | readHeader | stored | done | finished | error => simp [State.BlockInOrder, hp]

omit hrun in
/-- R167: after the copy the next symbol follows, under the same trees. -/
theorem toSymbol_blockInOrder (hq : s.pos = .distance) : (s.setPos .symbol).BlockInOrder := by
  have hb := hs.block
  cases hp : s.phase with
  | fixedHuffman => simp [State.BlockInOrder, hp]
  | dynamicHuffman =>
    simp only [State.BlockInOrder, hp, hq] at hb
    obtain ⟨hll, hd, -⟩ := hb
    simp [State.BlockInOrder, hp, hll, hd]
  | idle | readHeader | stored | done | finished | error => simp [State.BlockInOrder, hp]

theorem append_arranges (b : Byte) : Arranges (append b s).outcome := by
  obtain ⟨t, ht, h | ⟨k, u, hu, rfl⟩⟩ := (append_sameButMemories b s).outcome
  · exact ⟨t, ht, hs.sameButMemories h⟩
  · exact ⟨_, ht, raise_arranged (hs.sameButMemories hu).arrays (by rw [hu.status, hrun]; decide) k⟩

/-- R161 to R163, R168: the literal/length symbols. -/
theorem literalLength_arranges (hq : s.pos = .symbol) {sym w x : Nat}
    (hx : 257 ≤ sym → sym ≤ 285 → x < 2 ^ lextra sym) : Arranges (execForm (.coded .literalLength sym w x) s) := by
  rw [execForm]
  split
  · exact append_arranges hs hrun _
  split
  · exact ⟨_, rfl, hs.arrays, trivial⟩
  split
  · next h₂ h₃ h₄ =>
    have hn := matchLengthOf_range (by omega) h₄ (hx (by omega) h₄)
    exact ⟨_, rfl, hs.arrays, toDistance_blockInOrder hs hq hn⟩
  · exact raises_arranges hs hrun _

/-- R166, R167, R169: the distance symbols. -/
theorem distance_arranges (hq : s.pos = .distance) (sym w y : Nat) :
    Arranges (execForm (.coded .distance sym w y) s) := by
  rw [execForm]
  split
  · have hset : (s.setDistance (matchDistanceOf sym y)).Arranged := ⟨hs.arrays, hs.block⟩
    refine arranges_after_memories hset hrun (copyBack_sameButMemories _ _ _) (·.setPos .symbol) fun t h => ?_
    have ht := hset.sameButMemories h
    have htq : t.pos = .distance := by
      rw [SameButMemories] at h
      rw [h]
      exact hq
    exact ⟨ht.arrays, toSymbol_blockInOrder ht htq⟩
  · exact raises_arranges hs hrun _

end

/-- R142: `CL_TREE` is built over the 19 code-length symbols, and the code-length loop begins. -/
theorem buildClTree_arranged {s : State} (hs : s.ArraysInRange) (hrun : s.status = .running)
    (hp : s.phase = .dynamicHuffman) (hl : s.HlitInRange) (hd : s.HdistInRange) : (buildClTree s).Arranged := by
  have harr : (s.setClTree (build s.clLen)).ArraysInRange := hs.afterBuild s.clLen rfl rfl rfl rfl
  have hlen : s.clLen.length ≤ 19 := hs.1.le
  rw [buildClTree]
  split
  · refine ⟨harr, Iff.mpr (State.blockInOrder_codeLength hp rfl) ⟨hl, hd, ?_, build_over s.clLen hlen⟩⟩
    exact Nat.add_pos_left (Nat.lt_of_lt_of_le (by decide) hl.1) _
  · exact raise_arranged harr (by rw [State.setClTree_status, hrun]; decide) _

section
variable {s : State} (hs : s.Arranged) (hp : s.phase = .dynamicHuffman)
include hs hp

/-- R140. -/
theorem execHlit_arranges (a : BitVec 5) : Arranges (execHlit a s) := by
  refine ⟨_, rfl, hs.arrays, Iff.mpr (State.blockInOrder_hdist hp rfl) ?_⟩
  have := a.isLt
  simp only [State.HlitInRange, State.setPos_hlit, State.setHlit_hlit, hlitCount]
  omega

/-- R140. -/
theorem execHdist_arranges (hq : s.pos = .hdist) (b : BitVec 5) : Arranges (execHdist b s) := by
  have hl := (State.blockInOrder_hdist hp hq).1 hs.block
  refine ⟨_, rfl, hs.arrays, Iff.mpr (State.blockInOrder_hclen hp rfl) ⟨hl, ?_⟩⟩
  have := b.isLt
  simp only [State.HdistInRange, State.setPos_hdist, State.setHdist_hdist, hdistCount]
  omega

/-- R140, R141. -/
theorem execHclen_arranges (hq : s.pos = .hclen) (c : BitVec 4) : Arranges (execHclen c s) := by
  obtain ⟨hl, hd⟩ := (State.blockInOrder_hclen hp hq).1 hs.block
  refine ⟨_, rfl, State.ArraysInRange.clearClLen (s := s.setHclen (hclenCount c)) hs.arrays,
    Iff.mpr (State.blockInOrder_cllen hp rfl) ⟨hl, hd, ?_, ?_⟩⟩
  · exact Nat.succ_pos _
  · show c.toNat + 4 ≤ 19
    have := c.isLt
    omega

/-- R141, R142. -/
theorem execCllen_arranges (hrun : s.status = .running) (hq : s.pos = .cllen) (v : BitVec 3) : Arranges (execCllen v s) := by
  obtain ⟨hl, hd, -, h₁₉⟩ := (State.blockInOrder_cllen hp hq).1 hs.block
  have hv : v.toNat ≤ 7 := by have := v.isLt; omega
  have harr := hs.arrays.putClLen hv
  refine ⟨_, rfl, ?_⟩
  split
  · next hi => exact ⟨harr, Iff.mpr (State.blockInOrder_cllen hp hq) ⟨hl, hd, hi, h₁₉⟩⟩
  · exact buildClTree_arranged (s := s.putClLen v.toNat) harr hrun hp hl hd

end

/-! ### The code-length loop -/

/-- R144 to R147: a run of code lengths writes those and the counter. -/
theorem fillLens_writes (v : Nat) : ∀ (n : Nat) (s : State),
    fillLens n v s = { s with lens := (fillLens n v s).lens, i := s.i + n }
  | 0, _ => rfl
  | n + 1, s => by
    rw [fillLens, fillLens_writes v n (s.putLen v)]
    simp [State.putLen, Nat.add_assoc, Nat.add_comm 1 n]

/-- What holds in the code-length loop, the counter apart. -/
structure State.InLens (s : State) : Prop where
  arrays : s.ArraysInRange
  running : s.status = .running
  phase : s.phase = .dynamicHuffman
  pos : s.pos = .codeLength
  hlit : s.HlitInRange
  hdist : s.HdistInRange
  clTree : s.clTree.Over 19

/-- R148: both trees are built over their alphabets, and the decode loop begins. -/
theorem State.InLens.buildBlockTrees {s : State} (h : s.InLens) : (buildBlockTrees s).Arranged := by
  have hll : (s.lens.take s.hlit).length ≤ 288 := (List.length_take_le _ _).trans h.hlit.2
  have hd : ((s.lens.drop s.hlit).take s.hdist).length ≤ 32 := (List.length_take_le _ _).trans h.hdist.2
  have harr : (s.setLlTree (build (s.lens.take s.hlit))).ArraysInRange := h.arrays.afterBuild _ rfl rfl rfl rfl
  have harr' := harr.afterBuild (t := (s.setLlTree (build (s.lens.take s.hlit))).setDTree
    (build ((s.lens.drop s.hlit).take s.hdist))) _ rfl rfl rfl rfl
  have hne : s.status ≠ .error := by rw [h.running]; decide
  rw [Machine.buildBlockTrees]
  dsimp only
  split
  · split
    · exact ⟨harr', Iff.mpr (State.blockInOrder_symbol h.phase rfl) ⟨build_over _ hll, build_over _ hd⟩⟩
    · exact raise_arranged harr' hne _
  · exact raise_arranged harr hne _

theorem State.InLens.endLens {s : State} (h : s.InLens) : (endLens s).Arranged := by
  rw [Machine.endLens]
  split
  · next hi => exact ⟨h.arrays, (State.blockInOrder_codeLength h.phase h.pos).2 ⟨h.hlit, h.hdist, hi, h.clTree⟩⟩
  · exact h.buildBlockTrees

theorem State.InLens.fillLens {s : State} (h : s.InLens) {v : Nat} (hv : v ≤ 15) (n : Nat) :
    (fillLens n v s).InLens := by
  have harr := State.ArraysInRange.fillLens hv n h.arrays
  rw [fillLens_writes] at harr ⊢
  exact ⟨harr, h.running, h.phase, h.pos, h.hlit, h.hdist, h.clTree⟩

theorem State.InLens.raise {s : State} (h : s.InLens) (k : ErrorKind) : (raise k s).Arranged :=
  raise_arranged h.arrays (by rw [h.running]; decide) k

theorem State.InLens.runLens {s : State} (h : s.InLens) {v : Nat} (hv : v ≤ 15) (n : Nat) :
    (runLens n v s).Arranged := by
  rw [Machine.runLens]
  split
  · exact h.raise _
  · exact (h.fillLens hv n).endLens

/-- R143 to R148: the code-length symbols. -/
theorem State.InLens.codeLength_arranges {s : State} (h : s.InLens) (sym w x : Nat) :
    Arranges (execForm (.coded .codeLength sym w x) s) := by
  rw [execForm]
  split
  · have hv : (BitVec.ofNat 4 sym).toNat ≤ 15 := by have := (BitVec.ofNat 4 sym).isLt; omega
    exact ⟨_, rfl, (h.fillLens hv 1).endLens⟩
  split
  · refine ⟨_, rfl, ?_⟩
    split
    · exact h.raise _
    · exact h.runLens h.arrays.previousLen _
  split
  · exact ⟨_, rfl, h.runLens (Nat.zero_le 15) _⟩
  · exact ⟨_, rfl, h.runLens (Nat.zero_le 15) _⟩

/-! ### An element -/

/-- R239: every instruction of a place leaves what holds at the next. -/
theorem exec_arranges {s : State} {i : Instr} (hs : s.Arranged) (hrun : s.status = .running)
    (hreads : s.phase.Reads = true) (ha : s.phase = .stored → s.pc.bit = 0) (hadm : s.ctx.Admits i.form) :
    Arranges (exec i s) := by
  rw [exec_eq_execForm]
  rw [State.ctx] at hadm
  cases hp : s.phase with
  | idle | done | finished | error => rw [hp] at hreads; cases hreads
  | readHeader =>
    rw [hp] at hadm
    obtain ⟨final, t, hf, ht⟩ := hadm
    rw [hf]
    exact blockHeader_arranges hs hrun final ht
  | stored =>
    rw [hp] at hadm
    obtain ⟨l, n, hf⟩ := hadm
    rw [hf]
    exact execLen_arranges hs hrun (ha hp) _ _
  | fixedHuffman =>
    have hb := hs.block
    simp only [State.BlockInOrder, hp] at hb
    rcases hb with hq | ⟨hq, -⟩ <;> rw [hp, hq] at hadm
    · obtain ⟨sym, w, x, hf, -, hx⟩ := hadm
      rw [hf]
      exact literalLength_arranges hs hrun hq hx
    · obtain ⟨sym, w, x, hf, -, -⟩ := hadm
      rw [hf]
      exact distance_arranges hs hrun hq sym w x
  | dynamicHuffman =>
    cases hq : s.pos <;> rw [hp, hq] at hadm
    case hlit => obtain ⟨v, hf, -⟩ := hadm; rw [hf]; exact execHlit_arranges hs hp _
    case hdist => obtain ⟨v, hf, -⟩ := hadm; rw [hf]; exact execHdist_arranges hs hp hq _
    case hclen => obtain ⟨v, hf, -⟩ := hadm; rw [hf]; exact execHclen_arranges hs hp hq _
    case cllen => obtain ⟨v, hf, -⟩ := hadm; rw [hf]; exact execCllen_arranges hs hp hrun hq _
    case codeLength =>
      obtain ⟨sym, w, x, hf, -⟩ := hadm
      obtain ⟨hl, hd, -, ht⟩ := (State.blockInOrder_codeLength hp hq).1 hs.block
      rw [hf]
      exact State.InLens.codeLength_arranges ⟨hs.arrays, hrun, hp, hq, hl, hd, ht⟩ sym w x
    case symbol =>
      obtain ⟨sym, w, x, hf, -, hx⟩ := hadm
      rw [hf]
      exact literalLength_arranges hs hrun hq hx
    case distance =>
      obtain ⟨sym, w, x, hf, -, -⟩ := hadm
      rw [hf]
      exact distance_arranges hs hrun hq sym w x

theorem runElement_arranges {s : State} (hs : s.Arranged) (hrun : s.status = .running)
    (hreads : s.phase.Reads = true) : Arranges (runElement s) := by
  cases hd : decode s.input s.ctx s.pc with
  | ok i c =>
    rw [runElement_ok hd]
    refine exec_arranges ⟨hs.arrays, hs.block⟩ hrun hreads (fun hp => ?_) (decode_admits hd)
    have hctx : s.ctx = .stored := by rw [State.ctx, show s.phase = .stored from hp]
    rw [hctx] at hd
    exact decode_stored_aligned hd
  | raises k c =>
    obtain ⟨f, hf⟩ := latchCutHeader_writes s
    rw [runElement_raises hd, hf]
    exact ⟨_, rfl, raise_arranged (s := (s.setBfinal f).setPc c) hs.arrays
      (by rw [State.setPc_status, State.setBfinal_status, hrun]; decide) k⟩

/-! ### The history of the window -/

theorem State.WindowHoldsHistory.congr {s t : State} (h : s.WindowHoldsHistory)
    (he : t.errorKind ≠ some .bufferFull → s.errorKind ≠ some .bufferFull) (hp : t.params = s.params)
    (ho : t.out = s.out) (hn : t.outPos = s.outPos) (hw : t.win = s.win) (hc : t.cursor = s.cursor)
    (hm : t.emitted = s.emitted) : t.WindowHoldsHistory := by
  rw [State.WindowHoldsHistory, State.capacity, hp, ho, hn, hw, hc, hm]
  exact fun hne => h (he hne)

/-- An error raised where none was recorded leaves the history as it is. -/
theorem State.WindowHoldsHistory.raise {s : State} (h : s.WindowHoldsHistory) (he : s.errorKind = none)
    (k : ErrorKind) : (raise k s).WindowHoldsHistory :=
  h.congr (fun _ => by simp [he]) (raise_params k s) (raise_out k s) (raise_outPos k s) (raise_win k s)
    (raise_cursor k s) (raise_emitted k s)

/-- R16 (c), (d): every instruction of a run keeps the history, with the window in bounds and the status in agreement. -/
theorem kept_windowHoldsHistory :
    Kept (fun s => (s.WindowInBounds ∧ s.RunsInPhase) ∧ s.WindowHoldsHistory)
      fun s => (s.WindowInBounds ∧ s.StatusAgrees) ∧ s.WindowHoldsHistory where
  same s t hd := fun ⟨hdata, hh⟩ => ⟨(kept_windowInBounds.and kept_statusAgrees).same s t hd hdata,
    hh.congr (by rw [hd.errorKind]; exact id) hd.params hd.out hd.outPos hd.win hd.cursor hd.emitted⟩
  append b s := fun ⟨⟨hw, hr⟩, hh⟩ => ((kept_windowInBounds.and kept_statusAgrees).append b s ⟨hw, hr⟩).and
    (append_history b hw hr.2 hr.errorKind_eq_none hh)
  read s ha := fun ⟨⟨hw, hr⟩, hh⟩ => ((kept_windowInBounds.and kept_statusAgrees).read s ha ⟨hw, hr⟩).and
    (callReadByte_ensures ha (fun _ => hh.congr id rfl rfl rfl rfl rfl rfl) (hh.raise hr.errorKind_eq_none _))
  raise k s := fun ⟨⟨hw, hr⟩, hh⟩ => ⟨(kept_windowInBounds.and kept_statusAgrees).raise k s ⟨hw, hr⟩,
    hh.raise hr.errorKind_eq_none k⟩

/-! ### A step -/

/-- R16 (c), (d): a step keeps the history of the window. -/
theorem step_windowHoldsHistory {s t : State} (hw : s.WindowInBounds) (hs : s.StatusAgrees)
    (hh : s.WindowHoldsHistory) (h : step s = .next t) : t.WindowHoldsHistory := by
  rcases step_cases h with ⟨hp, h⟩ | ⟨-, h⟩ | ⟨hp, h⟩ | h
  · have hrun := State.RunsInPhase.of_reads hs hp
    exact (runElement_keeps kept_windowHoldsHistory h fun c _ =>
      ⟨⟨hw.congr (t := s.setPc c) rfl rfl rfl rfl, hrun.congr (t := s.setPc c) rfl rfl (.inl rfl)⟩,
        hh.congr (t := s.setPc c) id rfl rfl rfl rfl rfl rfl⟩).elim And.right And.right
  · cases h with
    | finishes | next => exact hh.congr id rfl rfl rfl rfl rfl rfl
  · have hno := hs.errorKind_of_not_error (by rcases hp with hp | hp <;> simp [hp])
    cases h with
    | raises k c _ =>
      exact State.WindowHoldsHistory.raise (hh.congr (t := s.setPc c) id rfl rfl rfl rfl rfl rfl) hno k
    | completes c _ => exact hh.congr id rfl rfl rfl rfl rfl rfl
  · rw [h.data]
    exact fun _ => ⟨rfl, fun d h₁ h₂ => absurd (h₁.trans h₂) (Nat.not_succ_le_zero 0)⟩

theorem Begins.arranged {s t : State} (h : Begins s t) : t.Arranged := by
  have hp := h.phase
  rw [h.data]
  constructor
  · exact ⟨List.length_replicate, fun v hv => (List.eq_of_mem_replicate hv).trans_le (Nat.zero_le 7),
      List.length_replicate, fun v hv => (List.eq_of_mem_replicate hv).trans_le (Nat.zero_le 15),
      List.length_replicate, List.length_replicate⟩
  · rcases hp with hp | hp <;> simp only [State.BlockInOrder, hp]

/-- R20 to R24, R239: a step leaves the arrays in range and what holds at the next place. -/
theorem step_arranged {s t : State} (hst : s.StatusAgrees) (hs : s.Arranged) (h : step s = .next t) : t.Arranged := by
  rcases step_cases h with ⟨hp, h⟩ | ⟨-, h⟩ | ⟨hp, h⟩ | h
  · obtain ⟨-, hrun⟩ := State.RunsInPhase.of_reads hst hp
    obtain ⟨u, hu, harr⟩ := runElement_arranges hs hrun hp
    obtain rfl : u = t := Host.Outcome.next.inj (hu.symm.trans h)
    exact harr
  · cases h with
    | finishes | next => exact ⟨hs.arrays, trivial⟩
  · cases h with
    | raises k c _ =>
      have hne : s.status ≠ .error := by rw [hst.1]; rcases hp with hp | hp <;> rw [hp] <;> decide
      exact raise_arranged (s := s.setPc c) hs.arrays hne k
    | completes c _ => exact ⟨hs.arrays, hs.block⟩
  · exact h.arranged

/-- A step changes what belongs to the host only where it begins a run. -/
theorem step_sameHost_or_begins {s t : State} (h : step s = .next t) : SameHost s t ∨ Begins s t := by
  rcases step_cases h with ⟨-, h⟩ | ⟨-, h⟩ | ⟨-, h⟩ | h
  · exact .inl (runElement_sameHost h)
  · cases h with
    | finishes | next => exact .inl ⟨rfl, rfl⟩
  · cases h with
    | raises k c _ => exact .inl (SameHost.raise (s := s) (t := s.setPc c) ⟨rfl, rfl⟩ k)
    | completes c _ => exact .inl ⟨rfl, rfl⟩
  · exact .inr h

theorem step_paramsInRange {s t : State} (hp : s.ParamsInRange) (hi : s.InboxWellFormed) (h : step s = .next t) :
    t.ParamsInRange := by
  rcases step_sameHost_or_begins h with h | h
  · rw [State.ParamsInRange, State.input, h.params]
    exact hp
  · exact h.params hp hi

theorem step_inboxWellFormed {s t : State} (hi : s.InboxWellFormed) (h : step s = .next t) : t.InboxWellFormed := by
  rcases step_sameHost_or_begins h with h | h
  · rw [State.InboxWellFormed, h.inbox]
    exact hi
  · exact fun c hc => hi c (h.inbox c hc)

theorem step_inv {s t : State} (hs : s.Inv) (h : step s = .next t) : t.Inv :=
  have harr : t.Arranged := step_arranged hs.status ⟨hs.arrays, hs.block⟩ h
  { params := step_paramsInRange hs.params hs.inbox h
    inbox := step_inboxWellFormed hs.inbox h
    cursor := step_cursorInBounds hs.cursor h
    sink := step_sinkInOrder hs.sink h
    window := step_windowInBounds hs.window h
    history := step_windowHoldsHistory hs.window hs.status hs.history h
    status := step_statusAgrees hs.status h
    arrays := harr.arrays
    block := harr.block }

/-- Settles O42: each part of the invariant is kept by a step lemma of its own, assembled in `step_inv`. -/
theorem stepKeepsInv : Obligations.StepKeepsInv := fun _ _ => step_inv

/-! ### The cursor of a run -/

/-- R18, R239: the trees in force at the place of the stream have internal roots. -/
theorem State.BlockInOrder.rootsInternal {s : State} (h : s.BlockInOrder) : s.ctx.RootsInternal := by
  rw [State.ctx]
  cases hp : s.phase with
  | idle | readHeader | stored | done | finished | error => trivial
  | fixedHuffman =>
    cases s.pos with
    | distance => trivial
    | hlit | hdist | hclen | cllen | codeLength | symbol => exact fixedLlTree_rootInternal
  | dynamicHuffman =>
    cases hq : s.pos with
    | hlit | hdist | hclen | cllen => trivial
    | codeLength =>
      obtain ⟨-, -, -, ht⟩ := (State.blockInOrder_codeLength hp hq).1 h
      exact ht.1
    | symbol =>
      obtain ⟨ht, -⟩ := (State.blockInOrder_symbol hp hq).1 h
      exact ht.1
    | distance =>
      simp only [State.BlockInOrder, hp, hq] at h
      obtain ⟨-, ht, -⟩ := h
      exact ht.1

/-- R12: no instruction moves the cursor back over stream bit `p`. -/
theorem kept_cursorPast (p : Nat) :
    Kept (fun s => p < s.pc.index) fun s => p ≤ s.pc.index ∧ s.status = .error where
  same _ _ hd h := by rw [hd.pc]; exact h
  append b s h := by
    rw [append_eq]
    split
    · exact ⟨by rw [raise_pc]; exact h.le, raise_status _ _⟩
    · exact h
  read s ha h := callReadByte_ensures ha (fun _ => by simp only [Cursor.index, State.setPc_pc] at h ⊢; omega)
    ⟨by rw [raise_pc]; exact h.le, raise_status _ _⟩
  raise k s h := ⟨by rw [raise_pc]; exact h.le, raise_status k s⟩

/-- R12, R184: an element moves the cursor forward, unless it raises an error; then not back. -/
theorem runElement_cursor {s t : State} (hc : s.CursorInBounds) (hb : s.BlockInOrder) (h : runElement s = .next t) :
    s.pc.index < t.pc.index ∨ (s.pc.index ≤ t.pc.index ∧ t.status = .error) := by
  have hm := decode_moves hb.rootsInternal (s.cursorInBounds_iff.1 hc)
  obtain ⟨u, hu, hkept⟩ := runElement_ensures (kept_cursorPast s.pc.index) (s := s)
    (fun i c hd => by rw [hd] at hm; exact hm.1)
    fun k c hd => by rw [hd] at hm; exact ⟨by rw [raise_pc]; exact hm.1, raise_status _ _⟩
  obtain rfl : u = t := Host.Outcome.next.inj (hu.symm.trans h)
  exact hkept

/-- Settles O49: an element moves the cursor as `runElement_cursor` says, the turn of the engine loop leaves it alone. -/
theorem cursorNeverMovesBack : Obligations.CursorNeverMovesBack := by
  intro s t hs hrun h
  rcases Phase.reads_or_done (hs.status.1.symm.trans hrun) with hp | hp
  · rcases runElement_cursor hs.cursor hs.block ((step_reads hp).symm.trans h) with hlt | ⟨hle, herr⟩
    · exact ⟨hlt.le, fun _ _ => hlt⟩
    · exact ⟨hle, fun _ hne => absurd herr hne⟩
  · rw [step_done hp, endBlock] at h
    obtain rfl := Host.Outcome.next.inj h
    refine ⟨?_, fun hne => absurd hp hne⟩
    split
    · exact le_refl s.pc.index
    · exact le_refl s.pc.index

end Sys2Proof.Machine
end

section
/-! PROOFS. The shape of a built tree (10_state.md R19; 41_huffman_tree.md R111 to R118). The key fact is that the codes
which `build` assigns never begin with one another, so that an insertion never meets a leaf or ends inside the tree:
what is inserted stays, and each insertion adds exactly one leaf. -/

namespace Sys2Proof

open Claims

/-! ### The children of a node -/

/-- The node is no leaf: it is absent or internal. -/
def Tree.NoLeaf (t : Tree) : Prop := ∀ s c len, t ≠ .leaf s c len

/-- The child on the side of a bit (R115). -/
def Tree.child (t : Tree) (b : Bool) : Tree := if b then t.right else t.left

theorem Tree.child_absent (b : Bool) : Tree.absent.child b = .absent := by cases b <;> rfl

theorem Tree.child_bareRoot (b : Bool) : Tree.bareRoot.child b = .absent := by cases b <;> rfl

theorem Tree.RootInternal.noLeaf {t : Tree} (h : t.RootInternal) : t.NoLeaf := by
  obtain ⟨l, r, rfl⟩ := h
  exact fun _ _ _ => Tree.noConfusion

/-- R115: an insertion goes on in the child of the code's next bit and leaves the other child alone. -/
theorem Tree.child_insert (s c len i : Nat) (t : Tree) (b : Bool) : (t.insert s c len (i + 1)).child b =
    if c.testBit i = b then (t.child b).insert s c len i else t.child b := by
  rw [Tree.insert]
  cases c.testBit i <;> cases b <;> rfl

theorem Tree.child_insert_same (s c len i : Nat) (t : Tree) :
    (t.insert s c len (i + 1)).child (c.testBit i) = (t.child (c.testBit i)).insert s c len i := by
  rw [Tree.child_insert, if_pos rfl]

theorem Tree.child_insert_other (s c len i : Nat) (t : Tree) :
    (t.insert s c len (i + 1)).child (!c.testBit i) = t.child (!c.testBit i) := by
  rw [Tree.child_insert, if_neg (by simp)]

/-- A node that is no leaf has the leaves of its two children. -/
theorem Tree.NoLeaf.leaves {t : Tree} (h : t.NoLeaf) (b : Bool) :
    t.leaves = (t.child b).leaves + (t.child !b).leaves := by
  cases t with
  | leaf s c len => exact absurd rfl (h s c len)
  | absent => rw [Tree.child_absent, Tree.child_absent]; rfl
  | node l r =>
    cases b with
    | false => rfl
    | true => exact Nat.add_comm _ _

/-- A symbol has a code in a node that is no leaf when it has one in a child. -/
theorem Tree.NoLeaf.codeOf_isSome {t : Tree} (h : t.NoLeaf) (b : Bool) (sym : Nat) : (t.codeOf sym).isSome = true ↔
    ((t.child b).codeOf sym).isSome = true ∨ ((t.child !b).codeOf sym).isSome = true := by
  cases t with
  | leaf s c len => exact absurd rfl (h s c len)
  | absent => simp [Tree.child_absent, Tree.codeOf]
  | node l r =>
    have hnode : ((Tree.node l r).codeOf sym).isSome = true ↔
        (l.codeOf sym).isSome = true ∨ (r.codeOf sym).isSome = true := by
      rw [Tree.codeOf]
      cases l.codeOf sym <;> simp
    cases b with
    | false => exact hnode
    | true => exact hnode.trans or_comm

/-! ### The path of a code -/

/-- The path of the bits `i-1` down to 0 of `code` from this node meets no leaf and ends where nothing stands. -/
def Tree.Free (code : Nat) : Nat → Tree → Prop
  | 0, t => t = .absent
  | i + 1, t => t.NoLeaf ∧ Tree.Free code i (t.child (code.testBit i))

theorem Tree.free_absent (code : Nat) : ∀ i, Tree.Free code i .absent
  | 0 => rfl
  | i + 1 => ⟨fun _ _ _ => Tree.noConfusion, by rw [Tree.child_absent]; exact Tree.free_absent code i⟩

theorem Tree.free_bareRoot (code i : Nat) : Tree.Free code (i + 1) Tree.bareRoot :=
  ⟨fun _ _ _ => Tree.noConfusion, by rw [Tree.child_bareRoot]; exact Tree.free_absent code i⟩

/-- The `i` bits of `c` and the `j` bits of `d` differ at a place that both have: neither code begins with the other. -/
def Apart (c i d j : Nat) : Prop := ∃ k, k < i ∧ k < j ∧ c.testBit (i - 1 - k) ≠ d.testBit (j - 1 - k)

theorem Apart.symm {c i d j : Nat} (h : Apart c i d j) : Apart d j c i := by
  obtain ⟨k, hi, hj, hne⟩ := h
  exact ⟨k, hj, hi, hne.symm⟩

/-- Codes that are apart but begin with the same bit are apart behind it. -/
theorem Apart.tail {c i d j : Nat} (h : Apart c (i + 1) d (j + 1)) (hb : c.testBit i = d.testBit j) :
    Apart c i d j := by
  obtain ⟨k, hi, hj, hne⟩ := h
  obtain _ | k := k
  · exact absurd hb hne
  · refine ⟨k, by omega, by omega, ?_⟩
    rwa [show i + 1 - 1 - (k + 1) = i - 1 - k by omega, show j + 1 - 1 - (k + 1) = j - 1 - k by omega] at hne

/-- R115: an insertion leaves the path free of a code that is apart from the inserted one. -/
theorem Tree.Free.insert {s c len d : Nat} : ∀ {i j : Nat} {t : Tree}, t.Free d j → Apart c i d j →
    (t.insert s c len i).Free d j
  | 0, _, _, _, ⟨_, hi, _, _⟩ => absurd hi (Nat.not_lt_zero _)
  | _ + 1, 0, _, _, ⟨_, _, hj, _⟩ => absurd hj (Nat.not_lt_zero _)
  | i + 1, j + 1, t, ⟨_, hfree⟩, hapart => by
    refine ⟨(Tree.insert_rootInternal s c len i t).noLeaf, ?_⟩
    rw [Tree.child_insert]
    split
    · next hb => exact hfree.insert (hapart.tail hb)
    · exact hfree

/-! ### What an insertion does to a tree -/

/-- R115: an insertion along a free path adds one leaf. -/
theorem Tree.leaves_insert {s c len : Nat} : ∀ {i : Nat} {t : Tree}, t.Free c i →
    (t.insert s c len i).leaves = t.leaves + 1
  | 0, _, rfl => rfl
  | i + 1, t, ⟨hleaf, hfree⟩ => by
    rw [(Tree.insert_rootInternal s c len i t).noLeaf.leaves (c.testBit i), Tree.child_insert_same,
      Tree.child_insert_other, Tree.leaves_insert hfree, hleaf.leaves (c.testBit i), Nat.add_right_comm]

/-- R115: an insertion along a free path gives the symbol a code and takes none away. -/
theorem Tree.codeOf_insert_isSome {s c len : Nat} (sym : Nat) : ∀ {i : Nat} {t : Tree}, t.Free c i →
    (((t.insert s c len i).codeOf sym).isSome = true ↔ s = sym ∨ (t.codeOf sym).isSome = true)
  | 0, _, rfl => by
    by_cases hs : s = sym
    · simp [Tree.insert, Tree.codeOf, hs]
    · simp [Tree.insert, Tree.codeOf, hs]
  | i + 1, t, ⟨hleaf, hfree⟩ => by
    rw [(Tree.insert_rootInternal s c len i t).noLeaf.codeOf_isSome (c.testBit i), Tree.child_insert_same,
      Tree.child_insert_other, Tree.codeOf_insert_isSome sym hfree, hleaf.codeOf_isSome (c.testBit i), or_assoc]

theorem leavesAtDepth_left {d : Nat} {t : Tree} (h : LeavesAtDepth d t) : LeavesAtDepth (d + 1) t.left := by
  cases t with
  | absent | leaf => trivial
  | node l r => exact h.1

theorem leavesAtDepth_right {d : Nat} {t : Tree} (h : LeavesAtDepth d t) : LeavesAtDepth (d + 1) t.right := by
  cases t with
  | absent | leaf => trivial
  | node l r => exact h.2

/-- R19: an insertion puts its leaf at the depth of its length. -/
theorem leavesAtDepth_insert {s c len : Nat} (h₁ : 1 ≤ len) (h₁₅ : len ≤ 15) : ∀ (i : Nat) {d : Nat} {t : Tree},
    d + i = len → LeavesAtDepth d t → LeavesAtDepth d (t.insert s c len i)
  | 0, _, _, hd, _ => ⟨hd.symm, h₁, h₁₅⟩
  | i + 1, d, t, hd, h => by
    rw [Tree.insert]
    split
    · exact ⟨leavesAtDepth_left h, leavesAtDepth_insert h₁ h₁₅ i (by omega) (leavesAtDepth_right h)⟩
    · exact ⟨leavesAtDepth_insert h₁ h₁₅ i (by omega) (leavesAtDepth_left h), leavesAtDepth_right h⟩

theorem Tree.nodes_children_le (t : Tree) : t.left.nodes + t.right.nodes ≤ t.nodes := by
  cases t with
  | absent | leaf => simp [Tree.left, Tree.right, Tree.nodes]
  | node l r => simp [Tree.left, Tree.right, Tree.nodes]

/-- An insertion of `i` more bits at a node, or where none stands, makes at most `i + 1` nodes more. -/
theorem Tree.nodes_insert_le (s c len : Nat) : ∀ (i : Nat) (t : Tree),
    (t.insert s c len i).nodes ≤ t.nodes + i + 1
  | 0, t => by simp [Tree.insert, Tree.nodes]
  | i + 1, t => by
    have hchildren := t.nodes_children_le
    rw [Tree.insert]
    split
    · have := Tree.nodes_insert_le s c len i t.right
      rw [Tree.nodes]
      omega
    · have := Tree.nodes_insert_le s c len i t.left
      rw [Tree.nodes]
      omega

/-- R19: an insertion of a code of `i` bits at the root makes at most `i` nodes more. -/
theorem Tree.nodes_insert_root_le {t : Tree} (ht : t.RootInternal) (s c len i : Nat) :
    (t.insert s c len (i + 1)).nodes ≤ t.nodes + (i + 1) := by
  obtain ⟨l, r, rfl⟩ := ht
  rw [Tree.insert]
  split
  · have := Tree.nodes_insert_le s c len i r
    simp only [Tree.nodes, Tree.left, Tree.right]
    omega
  · have := Tree.nodes_insert_le s c len i l
    simp only [Tree.nodes, Tree.left, Tree.right]
    omega

/-- R118: the code of a symbol ends in a leaf, so no other symbol's code begins with it. -/
theorem Tree.eq_of_codeOf_prefix {a b : Nat} : ∀ {t : Tree} {p q : List Bool}, t.codeOf a = some p →
    t.codeOf b = some q → p <+: q → a = b
  | .absent, _, _, h, _, _ => by simp [Tree.codeOf] at h
  | .leaf s _ _, _, _, ha, hb, _ => by
    simp only [Tree.codeOf, Option.ite_none_right_eq_some] at ha hb
    exact ha.1.symm.trans hb.1
  | .node l r, p, q, ha, hb, hpq => by
    have child : ∀ {sym : Nat} {p : List Bool}, (Tree.node l r).codeOf sym = some p →
        (∃ p', p = false :: p' ∧ l.codeOf sym = some p') ∨ ∃ p', p = true :: p' ∧ r.codeOf sym = some p' := by
      intro sym p h
      rw [Tree.codeOf] at h
      cases hl : l.codeOf sym with
      | some p' => rw [hl] at h; exact .inl ⟨p', (Option.some.inj h).symm, rfl⟩
      | none =>
        rw [hl] at h
        obtain ⟨p', hr, hp⟩ := Option.map_eq_some_iff.1 h
        exact .inr ⟨p', hp.symm, hr⟩
    rcases child ha with ⟨p', rfl, ha'⟩ | ⟨p', rfl, ha'⟩ <;> rcases child hb with ⟨q', rfl, hb'⟩ | ⟨q', rfl, hb'⟩
    · exact Tree.eq_of_codeOf_prefix ha' hb' (List.cons_prefix_cons.1 hpq).2
    · cases (List.cons_prefix_cons.1 hpq).1
    · cases (List.cons_prefix_cons.1 hpq).1
    · exact Tree.eq_of_codeOf_prefix ha' hb' (List.cons_prefix_cons.1 hpq).2

/-! ### The first codes -/

/-- R111: entry `len` of the counts is the number of symbols of that length. -/
theorem countLengths_getD (lengths : List Nat) {l : Nat} (h₁ : 1 ≤ l) (h₁₅ : l ≤ 15) :
    (countLengths lengths).getD l 0 = lengths.count l := by
  have step : ∀ (ls bl : List Nat), bl.length = 16 →
      (ls.foldl (fun bl len => if len = 0 then bl else bl.set len (bl.getD len 0 + 1)) bl).getD l 0 =
        bl.getD l 0 + ls.count l := by
    intro ls
    induction ls with
    | nil => intro bl _; rfl
    | cons len ls ih =>
      intro bl hbl
      rw [List.foldl_cons, List.count_cons]
      by_cases h0 : len = 0
      · rw [if_pos h0, ih bl hbl, if_neg (by simp; omega), Nat.add_zero]
      · rw [if_neg h0, ih _ (by rw [List.length_set, hbl])]
        by_cases hl : len = l
        · subst hl
          simp [List.getD_eq_getElem?_getD, hbl, show len < 16 by omega]
          omega
        · simp [List.getD_eq_getElem?_getD, List.getElem?_set_ne hl, hl]
  rw [countLengths, step lengths _ List.length_replicate]
  rw [List.getD_eq_getElem?_getD, List.getElem?_replicate, if_pos (by omega), Option.getD_some, Nat.zero_add]

theorem firstCodesFrom_getD : ∀ (bl : List Nat) (code l : Nat), l < bl.length →
    (firstCodesFrom code bl).getD l 0 = ((code :: firstCodesFrom code bl).getD l 0 + bl.getD l 0) * 2
  | [], _, _, h => absurd h (Nat.not_lt_zero _)
  | _ :: _, _, 0, _ => rfl
  | b :: bs, code, l + 1, h => firstCodesFrom_getD bs ((code + b) * 2) l (Nat.lt_of_succ_lt_succ h)

/-- R112: `next_code[len] = (next_code[len - 1] + bl_count[len - 1]) << 1`. -/
theorem firstCodes_succ {bl : List Nat} (hbl : bl.length = 16) {l : Nat} (h : l < 15) :
    (firstCodes bl).getD (l + 1) 0 = ((firstCodes bl).getD l 0 + bl.getD l 0) * 2 := by
  have := firstCodesFrom_getD (bl.take 15) 0 l (by simp [hbl]; omega)
  rw [firstCodes]
  simpa [List.getD_eq_getElem?_getD, List.getElem?_take, h] using this

/-- The first code of length `l` (R112). -/
def firstCode (lengths : List Nat) (l : Nat) : Nat := (firstCodes (countLengths lengths)).getD l 0

/-- The code after the last code of length `l` (R113). -/
def endCode (lengths : List Nat) (l : Nat) : Nat := firstCode lengths l + lengths.count l

/-- R112: the codes of a greater length begin behind all codes of a smaller one. -/
theorem endCode_mul_le_firstCode (lengths : List Nat) {l : Nat} (h₁ : 1 ≤ l) : ∀ n, l + n + 1 ≤ 15 →
    endCode lengths l * 2 ^ (n + 1) ≤ firstCode lengths (l + n + 1) := by
  have hsucc : ∀ k, 1 ≤ k → k < 15 → firstCode lengths (k + 1) = endCode lengths k * 2 := fun k hk hk' => by
    rw [firstCode, firstCodes_succ (countLengths_length lengths) hk', countLengths_getD lengths hk (by omega)]
    rfl
  intro n
  induction n with
  | zero => intro h; rw [Nat.add_zero, hsucc l h₁ (by omega)]; omega
  | succ n ih =>
    intro h
    have hle : firstCode lengths (l + n + 1) ≤ endCode lengths (l + n + 1) := Nat.le_add_right _ _
    have := ih (by omega)
    rw [show l + (n + 1) + 1 = l + n + 1 + 1 by omega, hsucc _ (by omega) (by omega), Nat.pow_succ, ← Nat.mul_assoc]
    omega

/-! ### The codes that are assigned are apart -/

/-- Codes that agree on all common places agree as numbers, cut to the shorter length. -/
theorem apart_of_div_ne {c d i j : Nat} (hij : i ≤ j) (hc : c < 2 ^ i) (hd : d < 2 ^ j) (hne : c ≠ d / 2 ^ (j - i)) :
    Apart c i d j := by
  by_contra hno
  refine hne (Nat.eq_of_testBit_eq fun n => ?_)
  rw [Nat.testBit_div_two_pow]
  by_cases hn : n < i
  · by_contra hb
    refine hno ⟨i - 1 - n, by omega, by omega, ?_⟩
    rw [show i - 1 - (i - 1 - n) = n by omega, show j - 1 - (i - 1 - n) = n + (j - i) by omega]
    exact hb
  · rw [Nat.testBit_lt_two_pow (hc.trans_le (Nat.pow_le_pow_right (by omega) (by omega))),
      Nat.testBit_lt_two_pow (hd.trans_le (Nat.pow_le_pow_right (by omega) (by omega)))]

/-- `c` is a code of length `l` that `build(lengths)` assigns, and it fits. -/
structure IsCode (lengths : List Nat) (c l : Nat) : Prop where
  pos : 1 ≤ l
  le : l ≤ 15
  first : firstCode lengths l ≤ c
  lt_end : c < endCode lengths l
  fits : c < 2 ^ l

theorem IsCode.apart_of_lt {lengths : List Nat} {c l d m : Nat} (hc : IsCode lengths c l) (hd : IsCode lengths d m)
    (h : l < m) : Apart c l d m := by
  refine apart_of_div_ne h.le hc.fits hd.fits (Nat.ne_of_lt ?_)
  have hend := endCode_mul_le_firstCode lengths hc.pos (m - l - 1) (by have := hd.le; omega)
  rw [show l + (m - l - 1) + 1 = m by omega, show m - l - 1 + 1 = m - l by omega] at hend
  exact hc.lt_end.trans_le ((Nat.le_div_iff_mul_le (Nat.two_pow_pos _)).2 (hend.trans hd.first))

/-- R113, R118: of two different assigned codes neither begins with the other. -/
theorem IsCode.apart {lengths : List Nat} {c l d m : Nat} (hc : IsCode lengths c l) (hd : IsCode lengths d m)
    (hne : l = m → c ≠ d) : Apart c l d m := by
  rcases Nat.lt_trichotomy l m with h | rfl | h
  · exact hc.apart_of_lt hd h
  · refine apart_of_div_ne (le_refl l) hc.fits hd.fits ?_
    rw [Nat.sub_self, Nat.pow_zero, Nat.div_one]
    exact hne rfl
  · exact (hd.apart_of_lt hc h).symm

/-! ### The assignment of the codes -/

/-- What holds while the codes of the symbols `rest` are still to be assigned (R113 to R115): of each length the codes
from `next_code` up to the end are left, one for each symbol of `rest`, and their paths are free. -/
structure Build.Assigning (lengths rest : List Nat) (b : Build) : Prop where
  scratch : b.nextCode.length = 16
  first : ∀ l, 1 ≤ l → l ≤ 15 → firstCode lengths l ≤ b.nextCode.getD l 0
  left : ∀ l, 1 ≤ l → l ≤ 15 → b.nextCode.getD l 0 + rest.count l = endCode lengths l
  free : ∀ c l, IsCode lengths c l → b.nextCode.getD l 0 ≤ c → b.tree.Free c l

/-- The step of the assignment to symbol `s`: its code is taken and its leaf put. -/
def Build.assign (b : Build) (s len : Nat) : Build :=
  ⟨b.tree.insert s (b.nextCode.getD len 0) len len, b.blCount, b.nextCode.set len (b.nextCode.getD len 0 + 1), b.ok⟩

theorem assignCodes_zero (rest : List Nat) (s : Nat) (b : Build) :
    assignCodes (0 :: rest) s b = assignCodes rest (s + 1) b := by
  rw [assignCodes, if_pos rfl]

/-- R113, R114: an assignment that succeeds found a code that fits. -/
theorem assignCodes_cons_ok {len s : Nat} {rest : List Nat} {b : Build} (h0 : len ≠ 0)
    (hok : (assignCodes (len :: rest) s b).ok = true) :
    b.nextCode.getD len 0 < 2 ^ len ∧ assignCodes (len :: rest) s b = assignCodes rest (s + 1) (b.assign s len) := by
  rw [assignCodes, if_neg h0] at hok ⊢
  dsimp only at hok ⊢
  split at hok
  · exact absurd hok Bool.false_ne_true
  · next hfits =>
    rw [if_neg hfits]
    exact ⟨by omega, rfl⟩

theorem Build.Assigning.initial (lengths : List Nat) : Build.Assigning lengths lengths
    ⟨.bareRoot, countLengths lengths, firstCodes (countLengths lengths), true⟩ where
  scratch := firstCodes_length (countLengths_length lengths)
  first _ _ _ := le_refl _
  left _ _ _ := rfl
  free c l hc _ := by
    obtain ⟨n, rfl⟩ := Nat.exists_eq_succ_of_ne_zero (Nat.pos_iff_ne_zero.1 hc.pos)
    exact Tree.free_bareRoot c n

theorem Build.Assigning.skip {lengths rest : List Nat} {b : Build} (h : b.Assigning lengths (0 :: rest)) :
    b.Assigning lengths rest where
  scratch := h.scratch
  first := h.first
  left l h₁ h₁₅ := by
    have := h.left l h₁ h₁₅
    rwa [List.count_cons_of_ne (by omega)] at this
  free := h.free

/-- The code that comes next is one of those left. -/
theorem Build.Assigning.isCode {lengths rest : List Nat} {len : Nat} {b : Build} (h : b.Assigning lengths (len :: rest))
    (h₁ : 1 ≤ len) (h₁₅ : len ≤ 15) (hfits : b.nextCode.getD len 0 < 2 ^ len) :
    IsCode lengths (b.nextCode.getD len 0) len where
  pos := h₁
  le := h₁₅
  first := h.first len h₁ h₁₅
  lt_end := by
    have := h.left len h₁ h₁₅
    rw [List.count_cons_self] at this
    omega
  fits := hfits

theorem Build.assign_nextCode {b : Build} (hb : b.nextCode.length = 16) (s : Nat) {len l : Nat} (h₁₅ : len ≤ 15) :
    (b.assign s len).nextCode.getD l 0 = b.nextCode.getD l 0 + if len = l then 1 else 0 := by
  rw [Build.assign, List.getD_eq_getElem?_getD, List.getD_eq_getElem?_getD]
  split
  · next h =>
    subst h
    simp [hb, show len < 16 by omega]
  · next h => simp [List.getElem?_set_ne h]

theorem Build.Assigning.assign {lengths rest : List Nat} {len : Nat} {b : Build}
    (h : b.Assigning lengths (len :: rest)) (s : Nat) (h₁ : 1 ≤ len) (h₁₅ : len ≤ 15)
    (hfits : b.nextCode.getD len 0 < 2 ^ len) : (b.assign s len).Assigning lengths rest where
  scratch := by rw [Build.assign, List.length_set]; exact h.scratch
  first l hl hl' := by
    rw [Build.assign_nextCode h.scratch s h₁₅]
    exact (h.first l hl hl').trans (Nat.le_add_right _ _)
  left l hl hl' := by
    have := h.left l hl hl'
    rw [List.count_cons] at this
    rw [Build.assign_nextCode h.scratch s h₁₅]
    simp only [beq_iff_eq] at this
    omega
  free c l hc hle := by
    rw [Build.assign_nextCode h.scratch s h₁₅] at hle
    have hfree := h.free c l hc (by omega)
    refine hfree.insert ((h.isCode h₁ h₁₅ hfits).apart hc fun hll => ?_)
    rw [if_pos hll, ← hll] at hle
    omega

/-! ### A built tree -/

/-- What the assignment makes of the tree (R19, R118 (a)): a leaf and a code for each symbol with a length, the leaves at
their depths, and a bounded number of nodes. -/
structure Tree.Grows (rest : List Nat) (s : Nat) (t u : Tree) : Prop where
  leaves : u.leaves = t.leaves + rest.countP (· ≠ 0)
  codes : ∀ sym, (u.codeOf sym).isSome = true ↔ (t.codeOf sym).isSome = true ∨ (s ≤ sym ∧ rest.getD (sym - s) 0 ≠ 0)
  depth : LeavesAtDepth 0 t → LeavesAtDepth 0 u
  nodes : u.nodes ≤ t.nodes + 15 * rest.length

theorem Tree.Grows.skip {rest : List Nat} {s : Nat} {t u : Tree} (h : Tree.Grows rest (s + 1) t u) :
    Tree.Grows (0 :: rest) s t u where
  leaves := by simpa using h.leaves
  codes sym := by
    rw [h.codes sym]
    rcases Nat.lt_trichotomy s sym with hlt | rfl | hlt
    · rw [show sym - s = sym - (s + 1) + 1 by omega, List.getD_cons_succ]
      simp [hlt, hlt.le]
    · simp
    · simp [show ¬ s ≤ sym by omega, show ¬ s + 1 ≤ sym by omega]
  depth := h.depth
  nodes := h.nodes.trans (by rw [List.length_cons]; omega)

theorem Tree.Grows.insert {rest : List Nat} {s c len : Nat} {t u : Tree}
    (h : Tree.Grows rest (s + 1) (t.insert s c len len) u) (h₁ : 1 ≤ len) (h₁₅ : len ≤ 15) (hfree : t.Free c len)
    (ht : t.RootInternal) : Tree.Grows (len :: rest) s t u where
  leaves := by
    rw [h.leaves, Tree.leaves_insert hfree, List.countP_cons_of_pos (by simp; omega)]
    omega
  codes sym := by
    rw [h.codes sym, Tree.codeOf_insert_isSome sym hfree]
    rcases Nat.lt_trichotomy s sym with hlt | rfl | hlt
    · rw [show sym - s = sym - (s + 1) + 1 by omega, List.getD_cons_succ]
      simp [hlt, hlt.le, hlt.ne]
    · simp [show len ≠ 0 by omega]
    · simp [show ¬ s ≤ sym by omega, show ¬ s + 1 ≤ sym by omega, hlt.ne']
  depth hd := h.depth (leavesAtDepth_insert h₁ h₁₅ len (Nat.zero_add len) hd)
  nodes := by
    obtain ⟨n, rfl⟩ : ∃ n, len = n + 1 := ⟨len - 1, by omega⟩
    have := Tree.nodes_insert_root_le ht s c (n + 1) n
    have := h.nodes
    rw [List.length_cons]
    omega

/-- R113 to R115: an assignment that succeeds makes the tree grow by the symbols that have a length. -/
theorem assignCodes_grows {lengths : List Nat} : ∀ {rest : List Nat} {s : Nat} {b : Build}, (∀ len ∈ rest, len ≤ 15) →
    b.Assigning lengths rest → b.tree.RootInternal → (assignCodes rest s b).ok = true →
    Tree.Grows rest s b.tree (assignCodes rest s b).tree
  | [], s, b, _, _, _, _ => ⟨rfl, by simp [assignCodes], id, Nat.le_add_right _ _⟩
  | 0 :: rest, s, b, hle, h, ht, hok => by
    rw [assignCodes_zero] at hok ⊢
    exact (assignCodes_grows (fun len hl => hle len (List.mem_cons_of_mem _ hl)) h.skip ht hok).skip
  | (n + 1) :: rest, s, b, hle, h, ht, hok => by
    have h₁ : 1 ≤ n + 1 := Nat.succ_pos n
    have h₁₅ : n + 1 ≤ 15 := hle (n + 1) (List.mem_cons_self ..)
    obtain ⟨hfits, he⟩ := assignCodes_cons_ok (Nat.succ_ne_zero n) hok
    rw [he] at hok ⊢
    have hgrows := assignCodes_grows (fun len hl => hle len (List.mem_cons_of_mem _ hl)) (h.assign s h₁ h₁₅ hfits)
      (Tree.insert_rootInternal ..) hok
    exact hgrows.insert h₁ h₁₅ (h.free _ _ (h.isCode h₁ h₁₅ hfits) (le_refl _)) ht

theorem build_grows {lengths : List Nat} (hle : ∀ len ∈ lengths, len ≤ 15) (hok : (build lengths).ok = true) :
    Tree.Grows lengths 0 .bareRoot (build lengths).tree :=
  assignCodes_grows hle (Build.Assigning.initial lengths) ⟨_, _, rfl⟩ hok

end Sys2Proof

namespace Sys2Proof.Machine

open Claims

/-- Settles O17: what `build_grows` says of a tree grown from the bare root, with `Tree.eq_of_codeOf_prefix` for
codes that begin with one another; the two constant trees are counted. -/
theorem builtTreeShape : Obligations.BuiltTreeShape := by
  refine ⟨fun lengths hle hok => ?_, by decide, by decide, by decide, by decide⟩
  have h := build_grows hle hok
  refine ⟨?_, h.depth ⟨trivial, trivial⟩, fun sym => ?_, fun a b p q => Tree.eq_of_codeOf_prefix, h.nodes⟩
  · simpa [Tree.bareRoot, Tree.leaves] using h.leaves
  · simpa [Tree.bareRoot, Tree.codeOf] using h.codes sym

end Sys2Proof.Machine
end

section
/-! PROOFS. The memories of a run (20_memory.md R42, R43, R48; 42_sliding_window.md R125, R126): an instruction writes the
sink from `out_pos` on and the window from the cursor on, one byte after the other; a read of bytes needs an aligned
cursor. -/

namespace Sys2Proof.Machine

open Claims

/-! ### Unaligned reads of bytes -/

/-- R138: `LEN` and its complement are accepted. -/
theorem lenComplement_not (len : Half) : lenComplement len (~~~len) = true := by
  have h : len ^^^ ~~~len = BitVec.allOnes 16 := by
    rw [BitVec.not_def, BitVec.xor_comm (BitVec.allOnes 16), ← BitVec.xor_assoc, BitVec.xor_self, BitVec.zero_xor]
  rw [lenComplement, h]
  decide

/-- R48: a stored body with data to copy is refused at an unaligned cursor, before any byte. -/
theorem copyStored_unaligned {s : State} (ha : s.pc.bit ≠ 0) {n : Nat} (hn : n ≠ 0) :
    copyStored n s = .refused .unalignedReadBytes := by
  obtain ⟨n, rfl⟩ := Nat.exists_eq_succ_of_ne_zero hn
  rw [copyStored, callReadBytes_unaligned ha, Op.bind_refused]

/-- Settles O24: `read_bytes` by `callReadBytes_unaligned`; a stored block begins with a byte read by it. -/
theorem unalignedReadBytesRefused : Obligations.UnalignedReadBytesRefused := by
  refine fun s ha => ⟨callReadBytes_unaligned ha, fun len hlen => ?_⟩
  have hn : len.toNat ≠ 0 := fun h => hlen (BitVec.eq_of_toNat_eq h)
  rw [exec, execLen, if_pos (lenComplement_not len), copyStored_unaligned (s := s.setRemaining len.toNat) ha hn,
    Op.bind_refused, Op.outcome_refused]

/-! ### What has been written since a state -/

/-- From `s` to `t` the sink was written only between the two values of `out_pos`, and the window only in the slots from
the cursor of `s` on that the new `emitted` counts. -/
structure WritesInOrder (s t : State) : Prop where
  capacity : t.capacity = s.capacity
  outPos : s.outPos ≤ t.outPos
  emitted : s.emitted ≤ t.emitted
  cursor : t.cursor = (s.cursor + (t.emitted - s.emitted)) % s.capacity
  out : ∀ a, a < s.outPos ∨ t.outPos ≤ a → t.out.read a = s.out.read a
  win : ∀ a, (∀ k < t.emitted - s.emitted, a ≠ (s.cursor + k) % s.capacity) → t.win.read a = s.win.read a

/-- Nothing is written yet. R16 (a) is what makes the cursor its own remainder. -/
theorem WritesInOrder.refl {s : State} (hc : s.cursor < s.capacity) : WritesInOrder s s where
  capacity := rfl
  outPos := le_refl _
  emitted := le_refl _
  cursor := by rw [Nat.sub_self, Nat.add_zero, Nat.mod_eq_of_lt hc]
  out _ _ := rfl
  win _ _ := rfl

/-- Only the memories, their counters and the parameters of the later state matter. -/
theorem WritesInOrder.congr {s t u : State} (h : WritesInOrder s t) (hp : u.params = t.params) (ho : u.out = t.out)
    (hn : u.outPos = t.outPos) (hw : u.win = t.win) (hc : u.cursor = t.cursor) (he : u.emitted = t.emitted) :
    WritesInOrder s u where
  capacity := (congrArg (fun p : Params => 2 ^ p.wbits) hp).trans h.capacity
  outPos := by rw [hn]; exact h.outPos
  emitted := by rw [he]; exact h.emitted
  cursor := by rw [hc, he]; exact h.cursor
  out := by rw [ho, hn]; exact h.out
  win := by rw [hw, he]; exact h.win

theorem WritesInOrder.raise {s t : State} (h : WritesInOrder s t) (k : ErrorKind) : WritesInOrder s (raise k t) :=
  h.congr (raise_params k t) (raise_out k t) (raise_outPos k t) (raise_win k t) (raise_cursor k t) (raise_emitted k t)

/-- R126: the window byte goes to the next slot in order. -/
theorem WritesInOrder.pushWin {s t : State} (h : WritesInOrder s t) (b : Byte) : WritesInOrder s (t.pushWin b) where
  capacity := h.capacity
  outPos := h.outPos
  emitted := Nat.le_succ_of_le h.emitted
  cursor := by
    rw [State.pushWin_cursor, State.pushWin_emitted, h.capacity, h.cursor, Nat.mod_add_mod, Nat.succ_sub h.emitted]
    rfl
  out := h.out
  win a ha := by
    rw [State.pushWin_emitted, Nat.succ_sub h.emitted] at ha
    have hlast : a ≠ t.cursor := by rw [h.cursor]; exact ha _ (Nat.lt_succ_self _)
    rw [State.pushWin_win, Memory.read_write_other _ _ hlast, h.win a fun k hk => ha k (Nat.lt_succ_of_lt hk)]

/-- R99: the sink byte goes to `out_pos`. -/
theorem WritesInOrder.pushOut {s t : State} (h : WritesInOrder s t) (b : Byte) : WritesInOrder s (t.pushOut b) where
  capacity := h.capacity
  outPos := Nat.le_succ_of_le h.outPos
  emitted := h.emitted
  cursor := h.cursor
  out a ha := by
    rw [State.pushOut_outPos] at ha
    have hle := h.outPos
    rw [State.pushOut_out, Memory.read_write_other _ _ (by omega), h.out a (by omega)]
  win := h.win

/-- R125, R126: every instruction writes the two memories in order, errors included. -/
theorem kept_writesInOrder (s : State) : Kept (WritesInOrder s) (WritesInOrder s) where
  same _ _ hd h := h.congr hd.params hd.out hd.outPos hd.win hd.cursor hd.emitted
  append b t h := by
    rw [append_eq]
    split
    · exact (h.pushWin b).raise .bufferFull
    · exact (h.pushWin b).pushOut b
  read _ ha h := callReadByte_ensures ha (fun _ => h.congr rfl rfl rfl rfl rfl rfl) (h.raise _)
  raise k _ h := h.raise k

theorem step_writesInOrder {s t : State} (hs : s.StatusAgrees) (hr : s.status = .running) (hc : s.cursor < s.capacity)
    (h : step s = .next t) : WritesInOrder s t := by
  obtain ⟨hphase, -⟩ := hs
  have hrefl := WritesInOrder.refl hc
  rcases Phase.reads_or_done (hphase.symm.trans hr) with hp | hp
  · exact (runElement_keeps (kept_writesInOrder s) ((step_reads hp).symm.trans h) fun c _ =>
      hrefl.congr (u := s.setPc c) rfl rfl rfl rfl rfl rfl).elim id id
  · obtain rfl := Host.Outcome.next.inj ((step_done hp).symm.trans h)
    split
    · exact hrefl.congr rfl rfl rfl rfl rfl rfl
    · exact hrefl.congr rfl rfl rfl rfl rfl rfl

/-- Settles O51: `step_writesInOrder` is the statement, the capacity aside. -/
theorem memoriesWrittenInOrder : Obligations.MemoriesWrittenInOrder := by
  intro s t hs hr hc h
  have hw := step_writesInOrder hs hr hc h
  exact ⟨hw.outPos, hw.emitted, hw.cursor, hw.out, hw.win⟩

end Sys2Proof.Machine
end

section
/-! PROOFS. What the reads of the BitReader answer, in terms of the bits the stream holds (30_encoding.md R60;
40_bit_reader.md R91 to R97): each read answers exactly the value whose bits stand at the cursor, and moves past
them. -/

namespace Sys2Proof

open Claims

/-! ### The bits of a number -/

@[simp] theorem lsbBits_length : ∀ n v : Nat, (lsbBits n v).length = n
  | 0, _ => rfl
  | n + 1, v => congrArg (· + 1) (lsbBits_length n (v / 2))

@[simp] theorem msbBits_length (n v : Nat) : (msbBits n v).length = n := by
  rw [msbBits, List.length_reverse, lsbBits_length]

theorem lsbBits_succ_eq_append : ∀ n v : Nat, lsbBits (n + 1) v = lsbBits n v ++ [v.testBit n]
  | 0, _ => rfl
  | n + 1, v => by
    rw [lsbBits, lsbBits_succ_eq_append n (v / 2), ← Nat.testBit_add_one, lsbBits, List.cons_append]

/-- R60: an MSB-first field begins with its highest bit. -/
theorem msbBits_succ (n v : Nat) : msbBits (n + 1) v = v.testBit n :: msbBits n v := by
  rw [msbBits, lsbBits_succ_eq_append, List.reverse_append]
  rfl

theorem msbBits_mod_two_pow {n k : Nat} (v : Nat) (h : n ≤ k) : msbBits n (v % 2 ^ k) = msbBits n v := by
  induction n with
  | zero => rfl
  | succ n ih =>
    rw [msbBits_succ, msbBits_succ, ih (by omega), Nat.testBit_mod_two_pow, decide_eq_true (by omega : n < k),
      Bool.true_and]

/-- A number of `n + 1` bits is its highest bit and the others. -/
theorem highBit_add_mod {n v : Nat} (h : v < 2 ^ (n + 1)) : 2 ^ n * (v.testBit n).toNat + v % 2 ^ n = v := by
  rw [Nat.toNat_testBit, Nat.mod_eq_of_lt (Nat.div_lt_of_lt_mul (by rwa [← Nat.pow_succ])), Nat.div_add_mod]

/-! ### The bits the stream holds -/

theorem Input.holds_nil {m : Input} {c : Cursor} : m.holds c [] ↔ c.index ≤ 8 * m.len := by simp [Input.holds]

theorem Input.holds.index_le {m : Input} {c : Cursor} {bs : List Bool} (h : m.holds c bs) : c.index ≤ 8 * m.len := by
  obtain ⟨hle, -⟩ := h
  omega

theorem Input.holds_cons {m : Input} {c : Cursor} {b : Bool} {bs : List Bool} :
    m.holds c (b :: bs) ↔ c.index < 8 * m.len ∧ m.streamBit c.index = b ∧ m.holds (c.advance 1) bs := by
  simp only [Input.holds, List.length_cons, Cursor.index_advance]
  constructor
  · rintro ⟨hle, hbit⟩
    refine ⟨by omega, hbit 0 (Nat.succ_pos _), by omega, fun k hk => ?_⟩
    rw [Nat.add_assoc, Nat.add_comm 1 k]
    exact hbit (k + 1) (Nat.succ_lt_succ hk)
  · rintro ⟨-, hb, hle, hbit⟩
    refine ⟨by omega, fun k hk => ?_⟩
    cases k with
    | zero => exact hb
    | succ k =>
      have := hbit k (Nat.lt_of_succ_lt_succ hk)
      rwa [Nat.add_assoc, Nat.add_comm 1 k] at this

theorem Input.holds_append {m : Input} : ∀ {bs bs' : List Bool} {c : Cursor},
    m.holds c (bs ++ bs') ↔ m.holds c bs ∧ m.holds (c.advance bs.length) bs'
  | [], bs', c => by
    rw [List.nil_append, Input.holds_nil, List.length_nil, Cursor.advance_zero]
    exact ⟨fun h => ⟨h.index_le, h⟩, fun h => h.2⟩
  | b :: bs, bs', c => by
    rw [List.cons_append, Input.holds_cons, Input.holds_cons, Input.holds_append, Cursor.advance_advance,
      List.length_cons, Nat.add_comm 1]
    tauto

/-! ### Reads of bits -/

theorem readBitLsb_eq_ok_iff {m : Input} {c d : Cursor} {b : Bool} :
    readBitLsb m c = .ok b d ↔ c.index < 8 * m.len ∧ m.streamBit c.index = b ∧ d = c.advance 1 := by
  rw [readBitLsb_eq]
  split
  · next h => simp [Nat.not_lt.2 h]
  · next h => simp [Nat.not_le.1 h, eq_comm]

/-- R94: `read_bits_lsb(n)` answers exactly the number whose bits the stream holds, LSB-first. -/
theorem readBitsLsb_eq_ok_iff {m : Input} {n : Nat} : ∀ {c d : Cursor} {v : Nat}, (n = 0 → c.index ≤ 8 * m.len) →
    (readBitsLsb m n c = .ok v d ↔ v < 2 ^ n ∧ m.holds c (lsbBits n v) ∧ d = c.advance n) := by
  induction n with
  | zero =>
    intro c d v hc
    simp [readBitsLsb, lsbBits, Input.holds_nil, hc rfl, eq_comm]
  | succ n ih =>
    intro c d v _
    simp only [readBitsLsb, Read.bind_eq_ok, readBitLsb_eq_ok_iff, Read.ok.injEq, lsbBits, Input.holds_cons]
    constructor
    · rintro ⟨b, c₁, ⟨hlt, hb, rfl⟩, w, e, hw, rfl, rfl⟩
      obtain ⟨hw, hbits, rfl⟩ := (ih (fun _ => by rw [Cursor.index_advance]; omega)).1 hw
      have := Bool.toNat_le b
      have hdiv : (b.toNat + 2 * w) / 2 = w := by omega
      refine ⟨by rw [Nat.pow_succ]; omega, ⟨hlt, ?_, by rwa [hdiv]⟩, by rw [Cursor.advance_advance, Nat.add_comm 1]⟩
      rw [hb]
      cases b <;> simp [Nat.testBit_zero]
    · rintro ⟨hv, ⟨hlt, hb, hbits⟩, rfl⟩
      refine ⟨_, _, ⟨hlt, hb, rfl⟩, v / 2, _, (ih fun _ => hbits.index_le).2 ⟨?_, hbits, rfl⟩, ?_, ?_⟩
      · rw [Nat.pow_succ] at hv; omega
      · rw [Nat.testBit_zero]
        rcases Nat.mod_two_eq_zero_or_one v with h | h <;> simp [h] <;> omega
      · rw [Cursor.advance_advance, Nat.add_comm 1]

/-- R95: the loop of `read_bits_msb(n)` puts behind the bits so far exactly the number whose bits the stream holds,
MSB-first. -/
theorem readBitsMsbFrom_eq_ok_iff {m : Input} {n : Nat} : ∀ {acc w : Nat} {c d : Cursor},
    (n = 0 → c.index ≤ 8 * m.len) → (readBitsMsbFrom m n acc c = .ok w d ↔
      ∃ v, v < 2 ^ n ∧ w = acc * 2 ^ n + v ∧ m.holds c (msbBits n v) ∧ d = c.advance n) := by
  induction n with
  | zero =>
    intro acc w c d hc
    simp [readBitsMsbFrom, msbBits, lsbBits, Input.holds_nil, hc rfl, eq_comm]
  | succ n ih =>
    intro acc w c d _
    simp only [readBitsMsbFrom, Read.bind_eq_ok, readBitLsb_eq_ok_iff]
    constructor
    · rintro ⟨b, c₁, ⟨hlt, hb, rfl⟩, hw⟩
      obtain ⟨v, hv, rfl, hbits, rfl⟩ := (ih (fun _ => by rw [Cursor.index_advance]; omega)).1 hw
      have hmod : (2 ^ n * b.toNat + v) % 2 ^ n = v := by rw [Nat.mul_add_mod, Nat.mod_eq_of_lt hv]
      refine ⟨2 ^ n * b.toNat + v, ?_, by ring, ?_, by rw [Cursor.advance_advance, Nat.add_comm 1]⟩
      · rw [Nat.pow_succ]
        have := Nat.mul_le_mul_left (2 ^ n) (Bool.toNat_le b)
        omega
      · rw [msbBits_succ, Input.holds_cons, ← msbBits_mod_two_pow (2 ^ n * b.toNat + v) (le_refl n), hmod]
        refine ⟨hlt, ?_, hbits⟩
        rw [hb, Nat.testBit_two_pow_mul_add _ hv, if_neg (lt_irrefl n), Nat.sub_self]
        cases b <;> rfl
    · rintro ⟨v, hv, rfl, hbits, rfl⟩
      rw [msbBits_succ, Input.holds_cons] at hbits
      obtain ⟨hlt, hb, hbits⟩ := hbits
      refine ⟨_, _, ⟨hlt, hb, rfl⟩, (ih fun _ => hbits.index_le).2
        ⟨v % 2 ^ n, Nat.mod_lt _ (Nat.two_pow_pos n), ?_, ?_, ?_⟩⟩
      · rw [Nat.pow_succ]
        linarith [highBit_add_mod hv]
      · rwa [msbBits_mod_two_pow _ (le_refl n)]
      · rw [Cursor.advance_advance, Nat.add_comm 1]

theorem readBitsMsb_eq_ok_iff {m : Input} {n v : Nat} {c d : Cursor} (hn : n ≠ 0) :
    readBitsMsb m n c = .ok v d ↔ v < 2 ^ n ∧ m.holds c (msbBits n v) ∧ d = c.advance n := by
  rw [readBitsMsb, readBitsMsbFrom_eq_ok_iff (fun h => absurd h hn)]
  simp

/-! ### The buffer as a number -/

theorem Input.testBit_fieldLsb (m : Input) : ∀ n p k : Nat,
    (m.fieldLsb p n).testBit k = (decide (k < n) && m.streamBit (p + k))
  | 0, _, _ => by simp [Input.fieldLsb]
  | n + 1, p, 0 => by
    rw [Input.fieldLsb, Nat.testBit_zero]
    cases m.streamBit p <;> simp [Nat.add_mod]
  | n + 1, p, k + 1 => by
    have hdiv : ((m.streamBit p).toNat + 2 * m.fieldLsb (p + 1) n) / 2 = m.fieldLsb (p + 1) n := by
      have := Bool.toNat_le (m.streamBit p)
      omega
    rw [Input.fieldLsb, Nat.testBit_add_one, hdiv, m.testBit_fieldLsb n, Nat.add_assoc, Nat.add_comm 1 k]
    simp

/-- R91, R97: the little-endian number of `n` bytes is the field of their bits. -/
theorem bytesLe_eq_fieldLsb (m : Input) : ∀ n a : Nat, bytesLe m a n = m.fieldLsb (8 * a) (8 * n)
  | 0, _ => rfl
  | n + 1, a => by
    refine Nat.eq_of_testBit_eq fun k => ?_
    rw [bytesLe, bytesLe_eq_fieldLsb m n, Nat.add_comm, show 256 = 2 ^ 8 from rfl,
      Nat.testBit_two_pow_mul_add _ (m.byte a).isLt, m.testBit_fieldLsb, m.testBit_fieldLsb]
    split
    · next h =>
      rw [Input.streamBit, show (8 * a + k) / 8 = a by omega, show (8 * a + k) % 8 = k by omega,
        decide_eq_true (by omega : k < 8 * (n + 1)), Bool.true_and, BitVec.testBit_toNat]
    · next h =>
      rw [show 8 * (a + 1) + (k - 8) = 8 * a + k by omega]
      congr 1
      rw [decide_eq_decide]
      omega

/-- R94: a field inside the buffer, cut out of the whole buffer as one number. -/
theorem fieldLsb_eq_field {m : Input} {p n : Nat} (h : p + n ≤ 8 * m.len) : m.fieldLsb p n = field m p n := by
  refine Nat.eq_of_testBit_eq fun k => ?_
  rw [field, bytesLe_eq_fieldLsb, Nat.testBit_mod_two_pow, Nat.testBit_div_two_pow, m.testBit_fieldLsb,
    m.testBit_fieldLsb, Nat.mul_zero, Nat.zero_add, Nat.add_comm k p]
  by_cases hk : k < n
  · simp [hk, show p + k < 8 * m.len by omega]
  · simp [hk]

/-- R97: `read_bytes(count)` on an aligned cursor answers exactly the number whose bits the stream holds. -/
theorem readBytes_eq_ok_iff {m : Input} {n v : Nat} {c d : Cursor} (hc : c.bit = 0) :
    readBytes m n c = .ok v d ↔
      v < 2 ^ (8 * n) ∧ m.holds c (lsbBits (8 * n) v) ∧ d = c.advance (8 * n) := by
  have hi := Cursor.index_of_aligned hc
  by_cases hle : c.byte + n ≤ m.len
  · have hend : (⟨c.byte + n, c.bit⟩ : Cursor) = c.advance (8 * n) :=
      Cursor.ext_index (by rw [Cursor.index_advance, hi]; simp only [Cursor.index, hc, Fin.val_zero]; omega)
    rw [readBytes_ok hle, bytesLe_eq_fieldLsb, hend, ← hi, ← readBitsLsb_ok (n := 8 * n) (by omega)]
    exact readBitsLsb_eq_ok_iff fun _ => by omega
  · rw [readBytes_raises (by omega)]
    refine ⟨nofun, fun ⟨_, ⟨hbits, _⟩, _⟩ => ?_⟩
    rw [lsbBits_length] at hbits
    omega

end Sys2Proof
end

section
/-! PROOFS. A walk of a tree and the codes of its symbols (41_huffman_tree.md R117, R118): a walk along the bits of a
code ends at the symbol; where every symbol has one leaf, as in a built tree, a walk ends nowhere else. -/

namespace Sys2Proof

open Claims

/-! ### The symbols of a tree -/

/-- The symbols of the leaves, from left to right. -/
def Tree.symbols : Tree → List Nat
  | .absent => []
  | .leaf s _ _ => [s]
  | .node l r => l.symbols ++ r.symbols

theorem Tree.symbols_length : ∀ t : Tree, t.symbols.length = t.leaves
  | .absent => rfl
  | .leaf _ _ _ => rfl
  | .node l r => by rw [Tree.symbols, List.length_append, l.symbols_length, r.symbols_length, Tree.leaves]

/-- A code in an internal node is a turn to a child and a code there; the left child is asked first. -/
theorem Tree.codeOf_node_eq_some {l r : Tree} {s : Nat} {p : List Bool} : (Tree.node l r).codeOf s = some p ↔
    (∃ q, p = false :: q ∧ l.codeOf s = some q) ∨ ∃ q, p = true :: q ∧ l.codeOf s = none ∧ r.codeOf s = some q := by
  rw [Tree.codeOf]
  cases l.codeOf s with
  | some q => simp [eq_comm]
  | none =>
    simp only [Option.map_eq_some_iff, reduceCtorEq, and_false, exists_false, false_or, true_and]
    exact exists_congr fun q => and_comm.trans (and_congr_left' eq_comm)

/-- A symbol has a code exactly when it has a leaf. -/
theorem Tree.mem_symbols_iff (s : Nat) : ∀ t : Tree, s ∈ t.symbols ↔ (t.codeOf s).isSome = true
  | .absent => by simp [Tree.symbols, Tree.codeOf]
  | .leaf s' _ _ => by simp [Tree.symbols, Tree.codeOf, eq_comm (a := s)]
  | .node l r => by
    have hnode : (Tree.node l r).NoLeaf := fun _ _ _ => Tree.noConfusion
    rw [Tree.symbols, List.mem_append, l.mem_symbols_iff, r.mem_symbols_iff, hnode.codeOf_isSome false]
    rfl

/-- The symbols that have a length (41_huffman_tree.md R113). -/
def codedSymbols (lengths : List Nat) : List Nat :=
  (List.range lengths.length).filter fun s => lengths.getD s 0 ≠ 0

theorem codedSymbols_length (lengths : List Nat) : (codedSymbols lengths).length = lengths.countP (· ≠ 0) := by
  have hmap : (List.range lengths.length).map (lengths.getD · 0) = lengths :=
    List.ext_getElem (by simp) fun i _ hi => by simp [List.getD_eq_getElem?_getD, hi]
  conv_rhs => rw [← hmap, List.countP_map]
  rw [codedSymbols, ← List.countP_eq_length_filter]
  rfl

/-- R19: a built tree has one leaf for each symbol with a length, so no symbol has two. -/
theorem build_symbols_nodup {lengths : List Nat} (hle : ∀ len ∈ lengths, len ≤ 15) (hok : (build lengths).ok = true) :
    (build lengths).tree.symbols.Nodup := by
  obtain ⟨hleaves, -, hcodes, -⟩ := Machine.builtTreeShape.1 lengths hle hok
  have hnodup : (codedSymbols lengths).Nodup := List.nodup_range.filter _
  have hsub : codedSymbols lengths ⊆ (build lengths).tree.symbols := fun s hs =>
    (Tree.mem_symbols_iff s _).2 ((hcodes s).2 (by simpa using (List.mem_filter.1 hs).2))
  have hlen : (build lengths).tree.symbols.length ≤ (codedSymbols lengths).length := by
    rw [Tree.symbols_length, hleaves, codedSymbols_length]
  exact ((List.subperm_of_subset hnodup hsub).perm_of_length_le hlen).nodup_iff.1 hnodup

/-! ### Walks -/

/-- R118 (a): a walk along the bits of a symbol's code ends at the symbol. -/
theorem Tree.walk_of_codeOf {m : Input} {s : Nat} : ∀ {t : Tree} {p : List Bool} {c : Cursor}, t.codeOf s = some p →
    m.holds c p → t.walk m c = .ok s (c.advance p.length)
  | .absent, _, _, h, _ => by simp [Tree.codeOf] at h
  | .leaf s' _ _, p, c, h, _ => by
    obtain ⟨rfl, rfl⟩ : s' = s ∧ [] = p := by simpa [Tree.codeOf] using h
    rw [Tree.walk, List.length_nil, Cursor.advance_zero]
  | .node l r, p, c, h, hp => by
    rcases Tree.codeOf_node_eq_some.1 h with ⟨q, rfl, hq⟩ | ⟨q, rfl, -, hq⟩
    all_goals
      obtain ⟨hlt, hb, hq'⟩ := Input.holds_cons.1 hp
      rw [Tree.walk_node, if_neg (by omega), hb, List.length_cons, Nat.add_comm, ← Cursor.advance_advance]
      exact Tree.walk_of_codeOf hq hq'

/-- R118 (a): where no symbol has two leaves, a walk that ends at a symbol went along its code. -/
theorem Tree.codeOf_of_walk {m : Input} {s : Nat} {d : Cursor} : ∀ {t : Tree} {c : Cursor}, t.symbols.Nodup →
    c.index ≤ 8 * m.len → t.walk m c = .ok s d → ∃ p, t.codeOf s = some p ∧ m.holds c p ∧ d = c.advance p.length
  | .absent, _, _, _, h => by simp [Tree.walk] at h
  | .leaf s' _ _, c, _, hc, h => by
    obtain ⟨rfl, rfl⟩ : s' = s ∧ c = d := by simpa [Tree.walk] using h
    exact ⟨[], by simp [Tree.codeOf], Input.holds_nil.2 hc, by simp⟩
  | .node l r, c, hnd, _, h => by
    obtain ⟨hl, hr, hdisj⟩ := List.nodup_append'.1 hnd
    rw [Tree.walk_node] at h
    split at h
    · cases h
    · next hlt =>
      have hc₁ : (c.advance 1).index ≤ 8 * m.len := by rw [Cursor.index_advance]; omega
      cases hb : m.streamBit c.index <;> rw [hb] at h
      · obtain ⟨q, hq, hq', rfl⟩ := Tree.codeOf_of_walk hl hc₁ h
        exact ⟨false :: q, Tree.codeOf_node_eq_some.2 (.inl ⟨q, rfl, hq⟩), Input.holds_cons.2 ⟨by omega, hb, hq'⟩,
          by rw [Cursor.advance_advance, List.length_cons, Nat.add_comm]⟩
      · obtain ⟨q, hq, hq', rfl⟩ := Tree.codeOf_of_walk hr hc₁ h
        have hsr : s ∈ r.symbols := (r.mem_symbols_iff s).2 (by rw [hq]; rfl)
        have hsl : l.codeOf s = none := Option.not_isSome_iff_eq_none.1 fun hsl =>
          hdisj ((l.mem_symbols_iff s).2 hsl) hsr
        exact ⟨true :: q, Tree.codeOf_node_eq_some.2 (.inr ⟨q, rfl, hsl, hq⟩), Input.holds_cons.2 ⟨by omega, hb, hq'⟩,
          by rw [Cursor.advance_advance, List.length_cons, Nat.add_comm]⟩

/-- R117: a walk from an internal root reads a bit first, so it answers nothing past the end of the input. -/
theorem Tree.index_le_of_walk {m : Input} {t : Tree} (ht : t.RootInternal) {c d : Cursor} {s : Nat}
    (h : t.walk m c = .ok s d) : c.index ≤ 8 * m.len := by
  obtain ⟨l, r, rfl⟩ := ht
  rw [Tree.walk_node] at h
  split at h
  · cases h
  · omega

/-- R118 (a): in a built tree a walk that ends at a symbol of its alphabet went along its code. -/
theorem codeOf_of_walk_builtFor {m : Input} {n : Nat} {t : Tree} (ht : BuiltFor n t) {c d : Cursor} {s : Nat}
    (h : t.walk m c = .ok s d) : s < n ∧ ∃ p, t.codeOf s = some p ∧ m.holds c p ∧ d = c.advance p.length := by
  obtain ⟨lengths, hn, hle, hok, rfl⟩ := ht
  obtain ⟨hroot, hsyms⟩ := build_over lengths hn
  exact ⟨Tree.walk_symbol hsyms h, Tree.codeOf_of_walk (build_symbols_nodup hle hok) (Tree.index_le_of_walk hroot h) h⟩

end Sys2Proof
end

section
/-! PROOFS. An element, its format and its bits (30_encoding.md R60 to R69, R71 to R74, R77, R81). The decoder reads a
format and answers its row; the encoder writes the format. Both are said through one relation, `Ctx.Writes`, so that
each of the two round trips is one half of what a read answers. -/

namespace Sys2Proof

open Claims Laws

/-! ### The formats that have a row -/

/-- The number of symbols of an alphabet (30_encoding.md R66, R71, R77). -/
def Alphabet.size : Alphabet → Nat
  | .codeLength => 19
  | .literalLength => 288
  | .distance => 32

/-- The number of extra bits of a symbol (30_encoding.md R66, R73, R74; none for a symbol the tables do not list). -/
def Alphabet.extra : Alphabet → Nat → Nat
  | .codeLength, sym => if sym = 16 then 2 else if sym = 17 then 3 else if sym = 18 then 7 else 0
  | .literalLength, sym => Machine.lextra sym
  | .distance, sym => Machine.dextra sym

/-- The width of a field (30_encoding.md R64, R65). -/
def Field.width : Field → Nat
  | .hlit => 5
  | .hdist => 5
  | .hclen => 4
  | .cllen => 3

/-- Every number of the format fits the bits it has in the stream. -/
def Form.Fits : Form → Prop
  | .blockHeader _ t => t < 4
  | .storedHeader l n => l < 2 ^ 16 ∧ n < 2 ^ 16
  | .field f w v => w = f.width ∧ v < 2 ^ f.width
  | .coded a sym w x => sym < a.size ∧ w = a.extra sym ∧ x < 2 ^ a.extra sym

theorem Alphabet.extra_codeLength_of_le {sym : Nat} (h : sym ≤ 15) : Alphabet.codeLength.extra sym = 0 := by
  simp [Alphabet.extra, show sym ≠ 16 by omega, show sym ≠ 17 by omega, show sym ≠ 18 by omega]

/-- R67: a literal and the end of a block have no extra bits. -/
theorem Alphabet.extra_literalLength_of_le {sym : Nat} (h : sym ≤ 256) : Alphabet.literalLength.extra sym = 0 := by
  rw [Alphabet.extra, Machine.lextra, Nat.sub_eq_zero_of_le (by omega)]
  rfl

/-- R73: the row of a match length symbol, by the symbol. -/
theorem form_lenInstr {sym : Nat} (h₁ : 257 ≤ sym) (h₂ : sym ≤ 285) (x : Nat) : (lenInstr sym x).form =
    .coded .literalLength sym (Machine.lextra sym) (x % 2 ^ Machine.lextra sym) := by
  obtain ⟨k, rfl⟩ := Nat.exists_eq_add_of_le h₁
  exact lenInstr_form k (by omega) x

theorem wf_lenInstr {sym : Nat} (h₁ : 257 ≤ sym) (h₂ : sym ≤ 285) (x : Nat) : (lenInstr sym x).wf = true := by
  interval_cases sym <;> rfl

theorem wf_distInstr {sym : Nat} (h : sym ≤ 29) (y : Nat) : (distInstr sym y).wf = true := by
  interval_cases sym <;> rfl

/-- The row of a format keeps every bit of it. -/
theorem form_rowOf : ∀ {f : Form}, f.Fits → (rowOf f).form = f
  | .blockHeader final t, h => headerInstr_form final h
  | .storedHeader l n, ⟨hl, hn⟩ => by
    simp only [rowOf, Instr.form, BitVec.toNat_ofNat, Nat.mod_eq_of_lt hl, Nat.mod_eq_of_lt hn]
  | .field f w v, ⟨hw, hv⟩ => by
    rw [hw]
    cases f <;> exact congrArg _ (Nat.mod_eq_of_lt hv)
  | .coded .codeLength sym w x, ⟨hs, hw, hx⟩ => by
    rw [Alphabet.size] at hs
    rw [hw]
    rw [rowOf]
    split
    · next h =>
      rw [Alphabet.extra_codeLength_of_le h] at hx ⊢
      simp [Instr.form, Nat.mod_eq_of_lt (show sym < 16 by omega), show x = 0 by omega]
    split
    · next h => subst h; simp [Instr.form, Alphabet.extra, Nat.mod_eq_of_lt (show x < 4 from hx)]
    split
    · next h => subst h; simp [Instr.form, Alphabet.extra, Nat.mod_eq_of_lt (show x < 8 from hx)]
    · obtain rfl : sym = 18 := by omega
      simp [Instr.form, Alphabet.extra, Nat.mod_eq_of_lt (show x < 128 from hx)]
  | .coded .literalLength sym w x, ⟨hs, hw, hx⟩ => by
    rw [Alphabet.size] at hs
    rw [hw]
    rw [rowOf]
    split
    · next h =>
      rw [Alphabet.extra_literalLength_of_le (by omega)] at hx ⊢
      simp [Instr.form, Nat.mod_eq_of_lt (show sym < 256 by omega), show x = 0 by omega]
    split
    · next h =>
      rw [Alphabet.extra_literalLength_of_le (by omega)] at hx ⊢
      simp [Instr.form, Nat.mod_eq_of_lt (show sym < 256 by omega), show x = 0 by omega]
    split
    · next h =>
      rw [Alphabet.extra_literalLength_of_le (by omega)] at hx ⊢
      simp [Instr.form, h, show x = 0 by omega]
    split
    · rw [form_lenInstr (by omega) (by omega)]
      exact congrArg _ (Nat.mod_eq_of_lt hx)
    · obtain rfl | rfl : sym = 286 ∨ sym = 287 := by omega
      · obtain rfl : x = 0 := Nat.lt_one_iff.1 hx
        rfl
      · obtain rfl : x = 0 := Nat.lt_one_iff.1 hx
        rfl
  | .coded .distance sym w x, ⟨hs, hw, hx⟩ => by
    rw [Alphabet.size] at hs
    rw [hw]
    rw [rowOf]
    split
    · rw [distInstr_form sym (by omega)]
      exact congrArg _ (Nat.mod_eq_of_lt hx)
    · obtain rfl | rfl : sym = 30 ∨ sym = 31 := by omega
      · obtain rfl : x = 0 := Nat.lt_one_iff.1 hx
        rfl
      · obtain rfl : x = 0 := Nat.lt_one_iff.1 hx
        rfl

/-- Every row of a format that fits is well formed (30_encoding.md R71, R82). -/
theorem wf_rowOf : ∀ {f : Form}, f.Fits → (rowOf f).wf = true
  | .blockHeader _ 0, _ | .blockHeader _ 1, _ | .blockHeader _ 2, _ | .blockHeader _ (_ + 3), _ => rfl
  | .storedHeader _ _, _ => rfl
  | .field f _ _, _ => by cases f <;> rfl
  | .coded .codeLength sym _ x, _ => by
    rw [rowOf]
    split
    · rfl
    split
    · rfl
    split <;> rfl
  | .coded .literalLength sym _ x, ⟨hs, _⟩ => by
    rw [rowOf]
    split
    · next h => simpa [Instr.wf, Nat.mod_eq_of_lt (show sym < 256 by omega)] using h
    split
    · next h => simp [Instr.wf, Nat.mod_eq_of_lt h]; omega
    split
    · rfl
    split
    · exact wf_lenInstr (by omega) (by omega) x
    · rfl
  | .coded .distance sym _ y, _ => by
    rw [rowOf]
    split
    · exact wf_distInstr (by omega) y
    · rfl

/-- What stands in the format of a row fits. -/
theorem fits_form_rowOf : ∀ f : Form, (rowOf f).form.Fits
  | .blockHeader _ 0 => show 0 < 4 by decide
  | .blockHeader _ 1 => show 1 < 4 by decide
  | .blockHeader _ 2 => show 2 < 4 by decide
  | .blockHeader _ (_ + 3) => show 3 < 4 by decide
  | .storedHeader l n => ⟨(BitVec.ofNat 16 l).isLt, (BitVec.ofNat 16 n).isLt⟩
  | .field .hlit _ v => ⟨rfl, (BitVec.ofNat 5 v).isLt⟩
  | .field .hdist _ v => ⟨rfl, (BitVec.ofNat 5 v).isLt⟩
  | .field .hclen _ v => ⟨rfl, (BitVec.ofNat 4 v).isLt⟩
  | .field .cllen _ v => ⟨rfl, (BitVec.ofNat 3 v).isLt⟩
  | .coded .codeLength sym _ x => by
    rw [rowOf]
    split
    · have := (BitVec.ofNat 4 sym).isLt
      have hextra := Alphabet.extra_codeLength_of_le (sym := (BitVec.ofNat 4 sym).toNat) (by omega)
      exact ⟨show _ < 19 by omega, hextra.symm, by rw [hextra]; decide⟩
    split
    · exact ⟨by decide, rfl, (BitVec.ofNat 2 x).isLt⟩
    split
    · exact ⟨by decide, rfl, (BitVec.ofNat 3 x).isLt⟩
    · exact ⟨by decide, rfl, (BitVec.ofNat 7 x).isLt⟩
  | .coded .literalLength sym _ x => by
    have literal : ∀ b : Byte, (Form.coded .literalLength b.toNat 0 0).Fits := fun b => by
      have := b.isLt
      have hextra := Alphabet.extra_literalLength_of_le (sym := b.toNat) (by omega)
      exact ⟨show _ < 288 by omega, hextra.symm, by rw [hextra]; decide⟩
    rw [rowOf]
    split
    · exact literal _
    split
    · exact literal _
    split
    · exact ⟨by decide, rfl, by decide⟩
    split
    · rw [form_lenInstr (by omega) (by omega)]
      exact ⟨by rw [Alphabet.size]; omega, rfl, Nat.mod_lt _ (Nat.two_pow_pos _)⟩
    · cases sym == 287 <;> exact ⟨by decide, rfl, by decide⟩
  | .coded .distance sym _ y => by
    rw [rowOf]
    split
    · rw [distInstr_form sym (by omega)]
      exact ⟨show _ < 32 by omega, rfl, Nat.mod_lt _ (Nat.two_pow_pos _)⟩
    · cases sym == 31 <;> exact ⟨by decide, rfl, by decide⟩

/-- No bit of a well-formed instruction is lost in its format: the laws of the 77 rows together. -/
theorem rowOf_form (i : Instr) : FormRow.Statement i :=
  match i with
  | .stored final => FormRow.stored final
  | .fixed final => FormRow.fixed final
  | .dynamic final => FormRow.dynamic final
  | .reserved final => FormRow.reserved final
  | .len len nlen => FormRow.len len nlen
  | .hlit a => FormRow.hlit a
  | .hdist b => FormRow.hdist b
  | .hclen c => FormRow.hclen c
  | .cllen v => FormRow.cllen v
  | .cl n => FormRow.cl n
  | .clRep x => FormRow.clRep x
  | .clZero3 x => FormRow.clZero3 x
  | .clZero7 x => FormRow.clZero7 x
  | .lit0 b => FormRow.lit0 b
  | .lit144 b => FormRow.lit144 b
  | .eob => FormRow.eob
  | .len257 => FormRow.len257
  | .len258 => FormRow.len258
  | .len259 => FormRow.len259
  | .len260 => FormRow.len260
  | .len261 => FormRow.len261
  | .len262 => FormRow.len262
  | .len263 => FormRow.len263
  | .len264 => FormRow.len264
  | .len265 x => FormRow.len265 x
  | .len266 x => FormRow.len266 x
  | .len267 x => FormRow.len267 x
  | .len268 x => FormRow.len268 x
  | .len269 x => FormRow.len269 x
  | .len270 x => FormRow.len270 x
  | .len271 x => FormRow.len271 x
  | .len272 x => FormRow.len272 x
  | .len273 x => FormRow.len273 x
  | .len274 x => FormRow.len274 x
  | .len275 x => FormRow.len275 x
  | .len276 x => FormRow.len276 x
  | .len277 x => FormRow.len277 x
  | .len278 x => FormRow.len278 x
  | .len279 x => FormRow.len279 x
  | .len280 x => FormRow.len280 x
  | .len281 x => FormRow.len281 x
  | .len282 x => FormRow.len282 x
  | .len283 x => FormRow.len283 x
  | .len284 x => FormRow.len284 x
  | .len285 => FormRow.len285
  | .llinv s => FormRow.llinv s
  | .dist0 => FormRow.dist0
  | .dist1 => FormRow.dist1
  | .dist2 => FormRow.dist2
  | .dist3 => FormRow.dist3
  | .dist4 y => FormRow.dist4 y
  | .dist5 y => FormRow.dist5 y
  | .dist6 y => FormRow.dist6 y
  | .dist7 y => FormRow.dist7 y
  | .dist8 y => FormRow.dist8 y
  | .dist9 y => FormRow.dist9 y
  | .dist10 y => FormRow.dist10 y
  | .dist11 y => FormRow.dist11 y
  | .dist12 y => FormRow.dist12 y
  | .dist13 y => FormRow.dist13 y
  | .dist14 y => FormRow.dist14 y
  | .dist15 y => FormRow.dist15 y
  | .dist16 y => FormRow.dist16 y
  | .dist17 y => FormRow.dist17 y
  | .dist18 y => FormRow.dist18 y
  | .dist19 y => FormRow.dist19 y
  | .dist20 y => FormRow.dist20 y
  | .dist21 y => FormRow.dist21 y
  | .dist22 y => FormRow.dist22 y
  | .dist23 y => FormRow.dist23 y
  | .dist24 y => FormRow.dist24 y
  | .dist25 y => FormRow.dist25 y
  | .dist26 y => FormRow.dist26 y
  | .dist27 y => FormRow.dist27 y
  | .dist28 y => FormRow.dist28 y
  | .dist29 y => FormRow.dist29 y
  | .dinv d => FormRow.dinv d
/-- The format of a well-formed instruction fits. -/
theorem fits_form {i : Instr} (h : i.wf = true) : i.form.Fits := by
  rw [← rowOf_form i h]
  exact fits_form_rowOf i.form

/-! ### The bits of a format -/

/-- The format is a field of this kind, and these are its bits (R64, R65). -/
def Form.FieldBits (fl : Field) (f : Form) (bs : List Bool) : Prop := ∃ w v, f = .field fl w v ∧ bs = lsbBits w v

/-- The format is a symbol of the alphabet, and these are its bits: the symbol's code, then the extra bits (R66 to
R69). -/
def Form.CodedBits (a : Alphabet) (code : Nat → Option (List Bool)) (f : Form) (bs : List Bool) : Prop :=
  ∃ sym w x p, f = .coded a sym w x ∧ code sym = some p ∧ bs = p ++ lsbBits w x

/-- The code of the distance symbols of a fixed block (R72). -/
def rawDistanceCode (sym : Nat) : Option (List Bool) := some (msbBits 5 sym)

/-- An element of the format `f` has a place here, and `bs` are its bits (R60 to R69). -/
def Ctx.Writes (ctx : Ctx) (f : Form) (bs : List Bool) : Prop :=
  match ctx with
  | .header => ∃ final t, f = .blockHeader final t ∧ bs = final :: lsbBits 2 t
  | .stored => ∃ l n, f = .storedHeader l n ∧ bs = lsbBits 16 l ++ lsbBits 16 n
  | .hlit => f.FieldBits .hlit bs
  | .hdist => f.FieldBits .hdist bs
  | .hclen => f.FieldBits .hclen bs
  | .cllen => f.FieldBits .cllen bs
  | .codeLength t => f.CodedBits .codeLength t.codeOf bs
  | .symbol t => f.CodedBits .literalLength t.codeOf bs
  | .distFixed => f.CodedBits .distance rawDistanceCode bs
  | .distTree t => f.CodedBits .distance t.codeOf bs

theorem codedBits_of_map {a : Alphabet} {code : Nat → Option (List Bool)} {f : Form} {bs : List Bool} {sym w x : Nat}
    (hf : f = .coded a sym w x) (h : (code sym).map (· ++ lsbBits w x) = some bs) : f.CodedBits a code bs := by
  obtain ⟨p, hp, hbs⟩ := Option.map_eq_some_iff.1 h
  exact ⟨sym, w, x, p, hf, hp, hbs.symm⟩

/-- R81: what the encoder writes are the bits of the format. -/
theorem writes_of_encode {ctx : Ctx} {i : Instr} {bs : List Bool} (h : encode ctx i = some bs) :
    ctx.Writes i.form bs := by
  unfold encode at h
  split at h
  case h_1 final t hf => exact ⟨final, t, hf, (Option.some.inj h).symm⟩
  case h_2 l n hf => exact ⟨l, n, hf, (Option.some.inj h).symm⟩
  case h_3 w v hf => exact ⟨w, v, hf, (Option.some.inj h).symm⟩
  case h_4 w v hf => exact ⟨w, v, hf, (Option.some.inj h).symm⟩
  case h_5 w v hf => exact ⟨w, v, hf, (Option.some.inj h).symm⟩
  case h_6 w v hf => exact ⟨w, v, hf, (Option.some.inj h).symm⟩
  case h_7 t sym w x hf => exact codedBits_of_map hf h
  case h_8 t sym w x hf => exact codedBits_of_map hf h
  case h_9 sym w x hf => exact ⟨sym, w, x, _, hf, rfl, (Option.some.inj h).symm⟩
  case h_10 t sym w x hf => exact codedBits_of_map hf h
  case h_11 => cases h

/-- R81: the encoder writes every format that has a place here. -/
theorem encode_of_writes {i : Instr} {bs : List Bool} : ∀ {ctx : Ctx}, ctx.Writes i.form bs → encode ctx i = some bs
  | .header, ⟨_, _, hf, hbs⟩ | .stored, ⟨_, _, hf, hbs⟩ | .hlit, ⟨_, _, hf, hbs⟩ | .hdist, ⟨_, _, hf, hbs⟩
  | .hclen, ⟨_, _, hf, hbs⟩ | .cllen, ⟨_, _, hf, hbs⟩ => by simp only [encode, hf, hbs]
  | .codeLength _, ⟨_, _, _, _, hf, hp, hbs⟩ | .symbol _, ⟨_, _, _, _, hf, hp, hbs⟩
  | .distTree _, ⟨_, _, _, _, hf, hp, hbs⟩ => by simp only [encode, hf, hp, hbs, Option.map_some]
  | .distFixed, ⟨_, _, _, _, hf, hp, hbs⟩ => by
    obtain rfl := Option.some.inj hp
    simp only [encode, hf, hbs]

/-! ### Reading a symbol with its extra bits -/

/-- The rest of a coded element after its symbol: the extra bits, then the row of the format. -/
def Alphabet.rest (a : Alphabet) (m : Input) (sym : Nat) (c : Cursor) : Decoded :=
  (readBitsLsb m (a.extra sym) c).bind fun x c₁ => .ok (rowOf (.coded a sym (a.extra sym) x)) c₁

theorem codeLengthRest_eq_rest {m : Input} {sym : Nat} {c : Cursor} (h : sym < 19) :
    codeLengthRest m sym c = Alphabet.codeLength.rest m sym c := by
  rw [codeLengthRest]
  split
  · next h => simp [Alphabet.rest, Alphabet.extra_codeLength_of_le h, readBitsLsb, rowOf, h]
  split
  · next h => subst h; rfl
  split
  · next h => subst h; rfl
  · obtain rfl : sym = 18 := by omega
    rfl

theorem symbolRest_eq_rest {m : Input} {sym : Nat} {c : Cursor} (h : sym < 288) :
    symbolRest m sym c = Alphabet.literalLength.rest m sym c := by
  rw [symbolRest]
  split
  · next h =>
    simp [Alphabet.rest, Alphabet.extra_literalLength_of_le (show sym ≤ 256 by omega), readBitsLsb, rowOf, h]
  split
  · next h₁ h₂ =>
    simp [Alphabet.rest, Alphabet.extra_literalLength_of_le (show sym ≤ 256 by omega), readBitsLsb, rowOf, h₁, h₂]
  split
  · next h => subst h; rfl
  split
  · next h₁ h₂ h₃ h₄ => simp [Alphabet.rest, Alphabet.extra, rowOf, h₁, h₂, h₃, h₄]
  · obtain rfl | rfl : sym = 286 ∨ sym = 287 := by omega
    · rfl
    · rfl

theorem distanceRest_eq_rest {m : Input} {sym : Nat} {c : Cursor} (h : sym < 32) :
    distanceRest m sym c = Alphabet.distance.rest m sym c := by
  rw [distanceRest]
  split
  · next h => simp [Alphabet.rest, Alphabet.extra, rowOf, h]
  · obtain rfl | rfl : sym = 30 ∨ sym = 31 := by omega
    · rfl
    · rfl

section
variable {m : Input} {a : Alphabet} {code : Nat → Option (List Bool)} {r : Read Nat} {c : Cursor}
  {rest : Nat → Cursor → Decoded}

/-- A read that finds every coded symbol of the alphabet makes the decoder find every coded element. -/
theorem bind_of_codedBits {f : Form} {bs : List Bool} (hrest : ∀ sym c, sym < a.size → rest sym c = a.rest m sym c)
    (hr : ∀ sym p, sym < a.size → code sym = some p → m.holds c p → r = .ok sym (c.advance p.length))
    (hf : f.Fits) (hbs : f.CodedBits a code bs) (hm : m.holds c bs) :
    r.bind rest = .ok (rowOf f) (c.advance bs.length) := by
  obtain ⟨sym, w, x, p, rfl, hp, rfl⟩ := hbs
  obtain ⟨hs, rfl, hx⟩ := hf
  obtain ⟨hmp, hmx⟩ := Input.holds_append.1 hm
  rw [hr sym p hs hp hmp, Read.bind_ok, hrest _ _ hs, Alphabet.rest,
    (readBitsLsb_eq_ok_iff fun _ => hmx.index_le).2 ⟨hx, hmx, rfl⟩, Read.bind_ok, Cursor.advance_advance,
    List.length_append, lsbBits_length]

/-- A read that answers only coded symbols of the alphabet makes the decoder answer only coded elements. -/
theorem codedBits_of_bind {i : Instr} {d : Cursor} (hrest : ∀ sym c, sym < a.size → rest sym c = a.rest m sym c)
    (hr : ∀ sym d, r = .ok sym d → sym < a.size ∧ ∃ p, code sym = some p ∧ m.holds c p ∧ d = c.advance p.length)
    (h : r.bind rest = .ok i d) :
    ∃ f bs, f.Fits ∧ i = rowOf f ∧ f.CodedBits a code bs ∧ m.holds c bs ∧ d = c.advance bs.length := by
  obtain ⟨sym, e, hsym, hi⟩ := Read.bind_eq_ok.1 h
  obtain ⟨hs, p, hp, hmp, rfl⟩ := hr sym e hsym
  have hle : (c.advance p.length).index ≤ 8 * m.len := by rw [Cursor.index_advance]; exact hmp.1
  rw [hrest _ _ hs] at hi
  obtain ⟨x, e, hx, hi⟩ := Read.bind_eq_ok.1 hi
  obtain ⟨hlt, hmx, rfl⟩ := (readBitsLsb_eq_ok_iff fun _ => hle).1 hx
  obtain ⟨rfl, rfl⟩ := Read.ok.inj hi
  exact ⟨.coded a sym (a.extra sym) x, _, ⟨hs, rfl, hlt⟩, rfl, ⟨sym, _, x, p, rfl, hp, rfl⟩,
    Input.holds_append.2 ⟨hmp, hmx⟩, by rw [Cursor.advance_advance, List.length_append, lsbBits_length]⟩

end

/-! ### Reading an element -/

/-- R61: what the decoder answers at a block header. -/
theorem decode_header_eq_ok_iff {m : Input} {c d : Cursor} {i : Instr} : decode m .header c = .ok i d ↔
    ∃ final t, t < 4 ∧ i = headerInstr final t ∧ m.holds c (final :: lsbBits 2 t) ∧ d = c.advance 3 := by
  have bit : ∀ b : Bool, lsbBits 1 b.toNat = [b] := by decide
  have two : ∀ {c' e : Cursor} {t : Nat}, readBitsLsb m 2 c' = .ok t e ↔
      t < 4 ∧ m.holds c' (lsbBits 2 t) ∧ e = c'.advance 2 := readBitsLsb_eq_ok_iff nofun
  simp only [decode, Read.bind_eq_ok, readBitsLsb_eq_ok_iff (n := 1) nofun, two, Read.ok.injEq]
  constructor
  · rintro ⟨f, e, ⟨hf, hbit, rfl⟩, t, e, ⟨ht, hbits, rfl⟩, rfl, rfl⟩
    obtain ⟨final, rfl⟩ : ∃ final : Bool, f = final.toNat := ⟨f == 1, by interval_cases f <;> rfl⟩
    rw [bit] at hbit
    refine ⟨final, t, ht, by cases final <;> rfl, ?_, by rw [Cursor.advance_advance]⟩
    exact Input.holds_append (bs := [final]).2 ⟨hbit, hbits⟩
  · rintro ⟨final, t, ht, rfl, hbits, rfl⟩
    obtain ⟨hbit, hbits⟩ := Input.holds_append (bs := [final]).1 hbits
    refine ⟨final.toNat, _, ⟨by cases final <;> decide, by rwa [bit], rfl⟩, t, _, ⟨ht, hbits, rfl⟩,
      by cases final <;> rfl, by rw [Cursor.advance_advance]⟩

/-- R63: what the decoder answers at the header of a stored block. -/
theorem decode_stored_eq_ok_iff {m : Input} {c d : Cursor} {i : Instr} : decode m .stored c = .ok i d ↔
    ∃ l n, l < 2 ^ 16 ∧ n < 2 ^ 16 ∧ i = rowOf (.storedHeader l n) ∧
      m.holds c.align (lsbBits 16 l ++ lsbBits 16 n) ∧ d = c.align.advance 32 := by
  have haligned : (c.align.advance 16).bit = 0 := by
    have := Cursor.index_of_aligned (Cursor.align_bit c)
    rw [Cursor.advance, this]
    exact Fin.ext (by simp [Cursor.ofIndex])
  simp only [decode, Read.bind_eq_ok, readBytes_eq_ok_iff (Cursor.align_bit c), Read.ok.injEq, Input.holds_append,
    lsbBits_length]
  constructor
  · rintro ⟨l, e, ⟨hl, hbl, rfl⟩, n, e, hn, rfl, rfl⟩
    obtain ⟨hlt, hbn, rfl⟩ := (readBytes_eq_ok_iff haligned).1 hn
    exact ⟨l, n, hl, hlt, rfl, ⟨hbl, hbn⟩, by rw [Cursor.advance_advance]⟩
  · rintro ⟨l, n, hl, hn, rfl, ⟨hbl, hbn⟩, rfl⟩
    exact ⟨l, _, ⟨hl, hbl, rfl⟩, n, _, (readBytes_eq_ok_iff haligned).2 ⟨hn, hbn, rfl⟩, rfl,
      by rw [Cursor.advance_advance]⟩

/-- The place at which a field is read (R64, R65). -/
def Field.place : Field → Ctx
  | .hlit => .hlit
  | .hdist => .hdist
  | .hclen => .hclen
  | .cllen => .cllen

/-- R64, R65: what the decoder answers at a field of a dynamic header. -/
theorem decode_field_eq_ok_iff {m : Input} {c d : Cursor} {i : Instr} (fl : Field) : decode m fl.place c = .ok i d ↔
    ∃ v, v < 2 ^ fl.width ∧ i = rowOf (.field fl fl.width v) ∧ m.holds c (lsbBits fl.width v) ∧
      d = c.advance fl.width := by
  have hread : decode m fl.place c =
      (readBitsLsb m fl.width c).bind fun v c₁ => .ok (rowOf (.field fl fl.width v)) c₁ := by cases fl <;> rfl
  have hw : fl.width ≠ 0 := by cases fl <;> decide
  simp only [hread, Read.bind_eq_ok, readBitsLsb_eq_ok_iff (fun h => absurd h hw), Read.ok.injEq]
  constructor
  · rintro ⟨v, e, ⟨hv, hbits, rfl⟩, rfl, rfl⟩
    exact ⟨v, hv, rfl, hbits, rfl⟩
  · rintro ⟨v, hv, rfl, hbits, rfl⟩
    exact ⟨v, _, ⟨hv, hbits, rfl⟩, rfl, rfl⟩

/-! ### The two round trips -/

/-- The decoder reads every format that fits from its bits. -/
theorem decode_of_writes {m : Input} {ctx : Ctx} {c : Cursor} {f : Form} {bs : List Bool} (hf : f.Fits)
    (hw : ctx.Writes f bs) (hm : m.holds (ctx.start c) bs) :
    decode m ctx c = .ok (rowOf f) ((ctx.start c).advance bs.length) := by
  have field : ∀ fl : Field, f.FieldBits fl bs → m.holds c bs →
      decode m fl.place c = .ok (rowOf f) (c.advance bs.length) := by
    rintro fl ⟨w, v, rfl, rfl⟩ hm
    obtain ⟨rfl, hv⟩ := hf
    exact (decode_field_eq_ok_iff fl).2 ⟨v, hv, rfl, hm, by rw [lsbBits_length]⟩
  have walk : ∀ (t : Tree) (n sym : Nat) (p : List Bool), sym < n → t.codeOf sym = some p → m.holds c p →
      t.walk m c = .ok sym (c.advance p.length) := fun t n sym p _ hp hm => Tree.walk_of_codeOf hp hm
  cases ctx with
  | header =>
    obtain ⟨final, t, rfl, rfl⟩ := hw
    exact decode_header_eq_ok_iff.2 ⟨final, t, hf, rfl, hm, by rw [List.length_cons, lsbBits_length]; rfl⟩
  | stored =>
    obtain ⟨l, n, rfl, rfl⟩ := hw
    obtain ⟨hl, hn⟩ := hf
    exact decode_stored_eq_ok_iff.2
      ⟨l, n, hl, hn, rfl, hm, by rw [List.length_append, lsbBits_length, lsbBits_length]; rfl⟩
  | hlit => exact field .hlit hw hm
  | hdist => exact field .hdist hw hm
  | hclen => exact field .hclen hw hm
  | cllen => exact field .cllen hw hm
  | codeLength t => exact bind_of_codedBits (fun _ _ => codeLengthRest_eq_rest) (walk t _) hf hw hm
  | symbol t => exact bind_of_codedBits (fun _ _ => symbolRest_eq_rest) (walk t _) hf hw hm
  | distTree t => exact bind_of_codedBits (fun _ _ => distanceRest_eq_rest) (walk t _) hf hw hm
  | distFixed =>
    refine bind_of_codedBits (fun _ _ => distanceRest_eq_rest) (fun sym p hs hp hm => ?_) hf hw hm
    obtain rfl := Option.some.inj hp
    exact (readBitsMsb_eq_ok_iff (by decide)).2 ⟨hs, hm, by rw [msbBits_length]; rfl⟩

/-- The decoder answers only the row of a format that fits, from its bits. -/
theorem writes_of_decode {m : Input} {ctx : Ctx} {c d : Cursor} {i : Instr} (hctx : BuiltPlace ctx)
    (h : decode m ctx c = .ok i d) : ∃ f bs, f.Fits ∧ i = rowOf f ∧ ctx.Writes f bs ∧ m.holds (ctx.start c) bs ∧
      d = (ctx.start c).advance bs.length := by
  have field : ∀ fl : Field, decode m fl.place c = .ok i d → ∃ f bs, f.Fits ∧ i = rowOf f ∧ f.FieldBits fl bs ∧
      m.holds c bs ∧ d = c.advance bs.length := by
    intro fl h
    obtain ⟨v, hv, rfl, hm, rfl⟩ := (decode_field_eq_ok_iff fl).1 h
    exact ⟨.field fl fl.width v, _, ⟨rfl, hv⟩, rfl, ⟨_, v, rfl, rfl⟩, hm, by rw [lsbBits_length]⟩
  cases ctx with
  | header =>
    obtain ⟨final, t, ht, rfl, hm, rfl⟩ := decode_header_eq_ok_iff.1 h
    exact ⟨.blockHeader final t, _, ht, rfl, ⟨final, t, rfl, rfl⟩, hm, by rw [List.length_cons, lsbBits_length]; rfl⟩
  | stored =>
    obtain ⟨l, n, hl, hn, rfl, hm, rfl⟩ := decode_stored_eq_ok_iff.1 h
    exact ⟨.storedHeader l n, _, ⟨hl, hn⟩, rfl, ⟨l, n, rfl, rfl⟩, hm,
      by rw [List.length_append, lsbBits_length, lsbBits_length]; rfl⟩
  | hlit => exact field .hlit h
  | hdist => exact field .hdist h
  | hclen => exact field .hclen h
  | cllen => exact field .cllen h
  | codeLength t =>
    exact codedBits_of_bind (fun _ _ => codeLengthRest_eq_rest) (fun _ _ => codeOf_of_walk_builtFor hctx) h
  | symbol t => exact codedBits_of_bind (fun _ _ => symbolRest_eq_rest) (fun _ _ => codeOf_of_walk_builtFor hctx) h
  | distTree t => exact codedBits_of_bind (fun _ _ => distanceRest_eq_rest) (fun _ _ => codeOf_of_walk_builtFor hctx) h
  | distFixed =>
    refine codedBits_of_bind (fun _ _ => distanceRest_eq_rest) (fun sym e hsym => ?_) h
    obtain ⟨hs, hm, rfl⟩ := (readBitsMsb_eq_ok_iff (by decide)).1 hsym
    exact ⟨hs, _, rfl, hm, by rw [msbBits_length]; rfl⟩

/-- Settles O1: the format of the instruction fits, its bits are those the encoder writes, and its row is the
instruction. -/
theorem decodeAfterEncode : Obligations.DecodeAfterEncode := by
  intro m ctx c i bs hwf he hm
  rw [decode_of_writes (fits_form hwf) (writes_of_encode he) hm, rowOf_form i hwf]

/-- Settles O2: what is decoded is the row of a format that fits, and the encoder writes the bits of that format. -/
theorem encodeAfterDecode : Obligations.EncodeAfterDecode := by
  intro m ctx c d i hctx h
  obtain ⟨f, bs, hf, rfl, hw, hm, rfl⟩ := writes_of_decode hctx h
  refine ⟨wf_rowOf hf, bs, encode_of_writes ?_, hm, rfl⟩
  rwa [form_rowOf hf]

end Sys2Proof
end

section
/-! PROOFS. The constants of the encoding (30_encoding.md R70 to R74): the tables, words written out from them, and the
two fixed codes. A code table is a closed fact, one equation for each symbol, and is computed; what a read or a walk
does with the code is not. -/

namespace Sys2Proof

open Claims

/-! ### The tables and words -/

/-- Settles O6: each table is read off. -/
theorem constantTables : Obligations.ConstantTables := by
  unfold Obligations.ConstantTables
  decide

/-- Settles O3: the decoder is run on the eight words. -/
theorem wordsDecode : Obligations.WordsDecode := by
  unfold Obligations.WordsDecode
  decide

/-! ### The fixed literal/length code -/

/-- R71: the lengths, symbol by symbol. -/
theorem fixedLlLen_getD : ∀ sym < 288, Machine.fixedLlLen.getD sym 0 =
    if sym ≤ 143 then 8 else if sym ≤ 255 then 9 else if sym ≤ 279 then 7 else 8 := by decide +kernel

/-- R71: the code table, symbol by symbol. -/
theorem codeOf_fixedLlTree : ∀ sym < 288, fixedLlTree.codeOf sym = some
    (if sym ≤ 143 then msbBits 8 (48 + sym) else if sym ≤ 255 then msbBits 9 (400 + (sym - 144))
     else if sym ≤ 279 then msbBits 7 (sym - 256) else msbBits 8 (192 + (sym - 280))) := by decide +kernel

theorem build_fixedLlLen_ok : (build Machine.fixedLlLen).ok = true := by decide +kernel

/-- Settles O4: the table and its lengths by computation, the tree by `fixedLlTree_eq_build`, and a walk by the
completeness of the tree. -/
theorem fixedLiteralLengthCode : Obligations.FixedLiteralLengthCode :=
  ⟨by simp only [Machine.fixedLlLen, List.length_append, List.length_replicate], fixedLlLen_getD, build_fixedLlLen_ok,
    fixedLlTree_eq_build.symm, codeOf_fixedLlTree,
    fun _ _ _ _ => Tree.walk_complete fixedLlTree_complete⟩

/-! ### The fixed distance code -/

/-- R72: distance symbol `d` has the 5-bit code `d`. -/
theorem codeOf_fixedDTree : ∀ d < 30, fixedDTree.codeOf d = some (msbBits 5 d) := by decide

/-- R169: the decoder in a fixed block reads 5 bits and takes the distance symbol they are. -/
theorem decode_distFixed_of_read {m : Input} {c c' : Cursor} {v : Nat} (h : readBitsMsb m 5 c = .ok v c') :
    decode m .distFixed c = distanceRest m v c' := by
  rw [decode, h, Read.bind_ok]

/-- Settles O5: the raw read answers the number whose 5 bits the stream holds, and these are the code of the symbol. -/
theorem fixedDistanceCode : Obligations.FixedDistanceCode := by
  refine ⟨by decide, codeOf_fixedDTree, fun m c c' v h => ?_⟩
  obtain ⟨hv, hbits, rfl⟩ := (readBitsMsb_eq_ok_iff (by decide)).1 h
  refine ⟨hv, fun hlt => ?_, ?_, ?_⟩
  · rw [Tree.walk_of_codeOf (codeOf_fixedDTree v hlt) hbits, msbBits_length]
  · rintro rfl
    exact decode_distFixed_of_read h
  · rintro rfl
    exact decode_distFixed_of_read h

end Sys2Proof
end

section
/-! PROOFS. The header of a dynamic block (43_block_decoder.md R140 to R148; 30_encoding.md R64 to R66): the counts, the
list of code-length-code lengths, the runs of code lengths and the trees they give. -/

namespace Sys2Proof.Machine

open Claims

/-! ### The counts -/

/-- Settles O25: each meaning is these register updates. -/
theorem dynamicCounts : Obligations.DynamicCounts := fun _ => ⟨fun _ => rfl, fun _ => rfl, fun _ => rfl⟩

/-! ### Runs of code lengths -/

/-- R144 to R147: a run of code lengths, entry by entry. -/
theorem fillLens_lens_getElem? (v j : Nat) : ∀ (n : Nat) (s : State), (fillLens n v s).lens[j]? =
    if s.i ≤ j ∧ j < s.i + n ∧ j < s.lens.length then some v else s.lens[j]?
  | 0, s => by rw [fillLens, if_neg (by omega)]
  | n + 1, s => by
    rw [fillLens, fillLens_lens_getElem? v j n, State.putLen_i, State.putLen_lens, List.length_set, List.getElem?_set]
    by_cases hj : s.i = j
    · subst hj
      by_cases hl : s.i < s.lens.length
      · rw [if_neg (by omega), if_pos rfl, if_pos hl, if_pos (by omega)]
      · rw [if_neg (by omega), if_pos rfl, if_neg hl, if_neg (by omega), List.getElem?_eq_none (by omega)]
    · rw [if_neg hj]
      exact if_congr (by omega) rfl rfl

theorem fillLens_filled (n v : Nat) (s : State) : Filled s (fillLens n v s) n v :=
  ⟨fun j => fillLens_lens_getElem? v j n s, fillLens_writes v n s⟩

/-- R148: what the build of the block's trees leaves. -/
theorem buildBlockTrees_built {u : State} (hu : u.status ≠ .error) : TreesBuilt u (buildBlockTrees u) := by
  by_cases hll : (build (u.lens.take u.hlit)).ok = true
  · by_cases hd : (build ((u.lens.drop u.hlit).take u.hdist)).ok = true
    · have hb : buildBlockTrees u = ((u.setLlTree (build (u.lens.take u.hlit))).setDTree
          (build ((u.lens.drop u.hlit).take u.hdist))).setPos .symbol := (if_pos hll).trans (if_pos hd)
      rw [hb]
      exact (if_pos ⟨hll, hd⟩).mpr rfl
    · have hb : buildBlockTrees u = ((u.setLlTree (build (u.lens.take u.hlit))).setDTree
          (build ((u.lens.drop u.hlit).take u.hdist))).setError .malformedTree :=
        ((if_pos hll).trans (if_neg hd)).trans (raise_of_running (s := (u.setLlTree _).setDTree _) hu _)
      rw [hb]
      exact (if_neg fun h => hd h.2).mpr rfl
  · have hb : buildBlockTrees u = (u.setLlTree (build (u.lens.take u.hlit))).setError .malformedTree :=
      (if_neg hll).trans (raise_of_running (s := u.setLlTree _) hu _)
    rw [hb]
    exact (if_neg fun h => hll h.1).mpr rfl

/-- R143, R148: an instruction that writes a run inside the total goes on to the next symbol, or builds the trees. -/
theorem definesLengths_of_fillLens {i : Instr} {n v : Nat} {s : State} (hs : s.status ≠ .error)
    (h : s.i + n ≤ s.total → exec i s = .next (endLens (fillLens n v s))) : DefinesLengths i n v s := by
  have hfill := fillLens_filled n v s
  have hi : (fillLens n v s).i = s.i + n := by rw [fillLens_writes]
  have htotal : (fillLens n v s).total = s.total := by rw [fillLens_writes]; rfl
  have hstatus : (fillLens n v s).status = s.status := (fillLens_sameData v n s).status
  rw [endLens, hi, htotal] at h
  refine ⟨fun hlt => ⟨_, ?_, hfill⟩, fun heq => ⟨_, _, ?_, hfill, buildBlockTrees_built (hstatus ▸ hs)⟩⟩
  · exact (h hlt.le).trans (congrArg _ (if_pos hlt))
  · exact (h heq.le).trans (congrArg _ (if_neg heq.not_lt))

/-- D10: a run inside the total is written. -/
theorem runLens_of_le {n v : Nat} {s : State} (h : s.i + n ≤ s.total) : runLens n v s = endLens (fillLens n v s) := by
  rw [runLens, if_neg (Nat.not_lt.2 h)]

/-- Settles O29: each code-length symbol writes a run inside the total. -/
theorem codeLengthSymbols : Obligations.CodeLengthSymbols := by
  intro s hs
  refine ⟨fun n => definesLengths_of_fillLens hs fun _ => rfl, fun x hi => definesLengths_of_fillLens hs fun h => ?_,
    fun x => definesLengths_of_fillLens hs fun h => ?_, fun x => definesLengths_of_fillLens hs fun h => ?_⟩
  · rw [exec, execClRep, if_neg hi]
    exact congrArg _ (runLens_of_le h)
  · exact congrArg _ (runLens_of_le h)
  · exact congrArg _ (runLens_of_le h)

/-! ### The list of code-length-code lengths -/

/-- R141, R142: the end of one turn of the loop over the list: on while `i < hclen`, else `CL_TREE`. -/
def endClLens (s : State) : State := if s.i < s.hclen then s else buildClTree s

/-- R65, R141: one step of the loop reads a field of 3 bits and puts it. -/
theorem step_cllen {s : State} (hp : s.phase = .dynamicHuffman) (hq : s.pos = .cllen)
    (hroom : s.pc.index + 3 ≤ 8 * s.input.len) :
    step s = .next (endClLens ((s.setPc (s.pc.advance 3)).putClLen (field s.input s.pc.index 3))) := by
  have hctx : s.ctx = .cllen := by simp only [State.ctx, hp, hq]
  have hdecode : decode s.input s.ctx s.pc = .ok (.cllen (.ofNat 3 (field s.input s.pc.index 3))) (s.pc.advance 3) := by
    rw [hctx, decode, readBitsLsb_ok hroom, Read.bind_ok, fieldLsb_eq_field hroom]
  have hv : (BitVec.ofNat 3 (field s.input s.pc.index 3)).toNat = field s.input s.pc.index 3 :=
    Nat.mod_eq_of_lt (Nat.mod_lt _ (Nat.two_pow_pos 3))
  rw [step_reads (by rw [hp]; rfl), runElement_ok hdecode, exec, execCllen, hv, endClLens]

/-- The list holds the first `k` fields from the cursor of `s` on, each as the length of its symbol, and nothing
else. -/
structure ClFields (s : State) (k : Nat) (l : List Nat) : Prop where
  length : l.length = 19
  entries : ∀ j < 19, l.getD (order j) 0 = if j < k then field s.input (s.pc.index + 3 * j) 3 else 0

theorem order_lt : ∀ j < 19, order j < 19 := by decide

/-- R70: no symbol stands twice in ORDER. -/
theorem order_injective : ∀ j < 19, ∀ k < 19, order j = order k → j = k := by decide

theorem ClFields.initial (s : State) : ClFields s 0 (List.replicate 19 0) where
  length := List.length_replicate
  entries j hj := by
    rw [List.getD_eq_getElem?_getD, List.getElem?_replicate, if_pos (order_lt j hj), if_neg (Nat.not_lt_zero j),
      Option.getD_some]

theorem ClFields.set {s : State} {k : Nat} {l : List Nat} (h : ClFields s k l) (hk : k < 19) :
    ClFields s (k + 1) (l.set (order k) (field s.input (s.pc.index + 3 * k) 3)) where
  length := by rw [List.length_set, h.length]
  entries j hj := by
    have hl : order k < l.length := by rw [h.length]; exact order_lt k hk
    rw [List.getD_eq_getElem?_getD, List.getElem?_set]
    by_cases hjk : j = k
    · subst hjk
      rw [if_pos rfl, if_pos hl, if_pos (Nat.lt_succ_self j), Option.getD_some]
    · rw [if_neg fun ho => hjk (order_injective k hk j hj ho).symm, ← List.getD_eq_getElem?_getD, h.entries j hj]
      exact if_congr (by omega) rfl rfl

/-- The state after `k` fields of the list, before the tree is built. -/
structure ClFieldsRead (s : State) (k : Nat) (t : State) : Prop where
  writes : t = { s with pc := s.pc.advance (3 * k), clLen := t.clLen, i := k }
  fields : ClFields s k t.clLen

/-- One turn of the loop. -/
theorem ClFieldsRead.step {s t : State} {k : Nat} (h : ClFieldsRead s k t) (hp : s.phase = .dynamicHuffman)
    (hq : s.pos = .cllen) (hk : k < 19) (hroom : s.pc.index + 3 * (k + 1) ≤ 8 * s.input.len) :
    ∃ u, ClFieldsRead s (k + 1) u ∧ Machine.step t = .next (endClLens u) := by
  obtain ⟨hw, hf⟩ := h
  have hin : t.input = s.input := by rw [hw]; rfl
  have hpc : t.pc = s.pc.advance (3 * k) := by rw [hw]
  have hi : t.i = k := by rw [hw]
  have hstep := step_cllen (s := t) (by rw [hw]; exact hp) (by rw [hw]; exact hq)
    (by rw [hin, hpc, Cursor.index_advance]; omega)
  rw [hin, hpc, Cursor.index_advance, Cursor.advance_advance] at hstep
  refine ⟨_, ⟨?_, ?_⟩, hstep⟩
  · rw [hw]; rfl
  · rw [State.putClLen_clLen, State.setPc_clLen, State.setPc_i, hi]
    exact hf.set hk

/-- A run whose first step answers a next state goes on from there. -/
theorem run_succ_of_next {M : Host.Core} {s t : M.State} (h : M.step s = .next t) (n : Nat) :
    M.run (n + 1) s = M.run n t := by
  rw [Host.Core.run, h]

/-- R141: the loop from field `k` on reads the fields that are left and builds the tree. -/
theorem ClFieldsRead.run {s : State} (hp : s.phase = .dynamicHuffman) (hq : s.pos = .cllen) (h₁₉ : s.hclen ≤ 19)
    (hroom : s.pc.index + 3 * s.hclen ≤ 8 * s.input.len) : ∀ {n k : Nat} {t : State}, k + (n + 1) = s.hclen →
    ClFieldsRead s k t → ∃ u, ClFieldsRead s s.hclen u ∧ Sys2Proof.core.run (n + 1) t = .next (buildClTree u) := by
  intro n
  induction n with
  | zero =>
    intro k t hk h
    obtain ⟨u, hu, hstep⟩ := h.step hp hq (by omega) (by omega)
    have hi : u.i = k + 1 := by rw [hu.writes]
    have hh : u.hclen = s.hclen := by rw [hu.writes]
    rw [endClLens, if_neg (by omega)] at hstep
    exact ⟨u, hk ▸ hu, run_succ_of_next (M := Sys2Proof.core) hstep 0⟩
  | succ n ih =>
    intro k t hk h
    obtain ⟨u, hu, hstep⟩ := h.step hp hq (by omega) (by omega)
    have hi : u.i = k + 1 := by rw [hu.writes]
    have hh : u.hclen = s.hclen := by rw [hu.writes]
    rw [endClLens, if_pos (by omega)] at hstep
    obtain ⟨w, hw, hsteps⟩ := ih (by omega) hu
    exact ⟨w, hw, (run_succ_of_next (M := Sys2Proof.core) hstep (n + 1)).trans hsteps⟩

@[simp] theorem buildClTree_pc (s : State) : (buildClTree s).pc = s.pc := by
  rw [buildClTree]
  split <;> simp

@[simp] theorem buildClTree_clLen (s : State) : (buildClTree s).clLen = s.clLen := by
  rw [buildClTree]
  split <;> simp

/-- Settles O28: the loop reads the fields (`ClFieldsRead.run`), and the build of the tree succeeds or raises. -/
theorem codeLengthTable : Obligations.CodeLengthTable := by
  intro s hp hq hrun hi hcl h₁ h₁₉ hroom
  obtain ⟨n, hn⟩ := Nat.exists_eq_add_of_le' h₁
  have hbegin : ClFieldsRead s 0 s := ⟨by rw [Nat.mul_zero, Cursor.advance_zero, ← hi], hcl ▸ ClFields.initial s⟩
  obtain ⟨u, hu, hsteps⟩ := ClFieldsRead.run hp hq h₁₉ hroom (n := n) (by omega) hbegin
  have hstatus : u.status = .running := by rw [hu.writes]; exact hrun
  refine ⟨buildClTree u, by rw [hn]; exact hsteps, ?_, ?_, ?_, ?_, ?_⟩
  · rw [buildClTree_pc, hu.writes]
  · rw [buildClTree_clLen]
    exact hu.fields.length
  · rw [buildClTree_clLen]
    exact hu.fields.entries
  · rw [buildClTree_clLen]
    intro hok
    rw [buildClTree, if_pos hok]
    exact ⟨rfl, hstatus, by rw [hu.writes]; exact hp, by rw [hu.writes]; rfl⟩
  · rw [buildClTree_clLen]
    intro hok
    rw [buildClTree, hok, if_neg Bool.false_ne_true, raise_of_running (by rw [State.setClTree_status, hstatus]; decide)]
    exact ⟨rfl, rfl⟩

end Sys2Proof.Machine
end

section
/-! PROOFS. The running machine never stops (30_encoding.md R77; 00_scope.md R8; 20_memory.md R48): an element answers a
next state whatever the stream holds, and so does the turn of the engine loop. -/

namespace Sys2Proof.Machine

/-- An element answers a next state: every instruction keeps what belongs to the host (`kept_sameHost`), and none that
the decoder answers is refused. -/
theorem runElement_answers_next (s : State) : ∃ t, runElement s = .next t := by
  obtain ⟨t, ht, -⟩ := runElement_ensures (kept_sameHost s) (fun _ _ _ => ⟨rfl, rfl⟩)
    fun k c _ => ((latchCutHeader_sameHost s).trans (u := (latchCutHeader s).setPc c) ⟨rfl, rfl⟩).raise k
  exact ⟨t, ht⟩

/-- Settles O41: a running machine reads an element or turns the engine loop. -/
theorem runningStepAnswersNext : Obligations.RunningStepAnswersNext := by
  rintro s ⟨hphase, -⟩ hr
  rcases Phase.reads_or_done (hphase.symm.trans hr) with hp | hp
  · rw [step_reads hp]
    exact runElement_answers_next s
  · exact ⟨_, step_done hp⟩

end Sys2Proof.Machine
end

section
/-! PROOFS. The BitReader (40_bit_reader.md R92 to R100): what each read answers, the laws between the reads, and what a
read called on the state does to it. -/

namespace Sys2Proof

open Claims

/-! ### Alignment -/

theorem Cursor.align_of_aligned {c : Cursor} (h : c.bit = 0) : c.align = c := by
  rw [Cursor.align, h]
  rfl

theorem Cursor.align_of_unaligned {c : Cursor} (h : c.bit ≠ 0) : c.align = ⟨c.byte + 1, 0⟩ :=
  if_pos (Fin.pos_iff_ne_zero.2 h)

/-! ### Reading one bit -/

/-- R93: `read_bit_msb` ends as `read_bit_lsb` does, with the mirrored bit of the byte. -/
theorem readBitMsb_eq (m : Input) (c : Cursor) :
    readBitMsb m c =
      if 8 * m.len ≤ c.index then .raises .streamExhausted c
      else .ok ((m.byte c.byte).getLsbD (7 - c.bit.val)) (c.advance 1) := by
  simp only [readBitMsb, c.len_le_byte_iff, Cursor.next_eq]

/-- Settles O7: both reads test the end of the input first, and differ in the bit they take. -/
theorem readBitOrder : Obligations.ReadBitOrder := by
  refine fun m c => ⟨fun h => ?_, fun h => ?_⟩
  · have hidx : ¬ 8 * m.len ≤ c.index := fun hc => Nat.not_lt.2 ((c.len_le_byte_iff _).2 hc) h
    rw [readBitLsb_eq, readBitMsb_eq, if_neg hidx, if_neg hidx, Input.streamBit_index]
    exact ⟨rfl, rfl⟩
  · exact ⟨if_pos h, if_pos h⟩

/-! ### Reading several bits, LSB-first -/

theorem Read.bind_assoc {α β γ : Type} (r : Read α) (f : α → Cursor → Read β) (g : β → Cursor → Read γ) :
    (r.bind f).bind g = r.bind fun v c => (f v c).bind g := by
  cases r <;> rfl

/-- R94: a read of `n + b` bits is a read of `n` bits and then of `b` bits, which are the higher ones. -/
theorem readBitsLsb_add (m : Input) (b : Nat) : ∀ (n : Nat) (c : Cursor), readBitsLsb m (n + b) c =
    (readBitsLsb m n c).bind fun lo d => (readBitsLsb m b d).bind fun hi e => .ok (2 ^ n * hi + lo) e
  | 0, c => by
    rw [Nat.zero_add, readBitsLsb, Read.bind_ok]
    cases readBitsLsb m b c <;> simp
  | n + 1, c => by
    have hval : ∀ bit lo hi : Nat, bit + 2 * (2 ^ n * hi + lo) = 2 ^ (n + 1) * hi + (bit + 2 * lo) :=
      fun _ _ _ => by ring
    rw [Nat.add_right_comm, readBitsLsb, readBitsLsb]
    simp only [readBitsLsb_add m b n, Read.bind_assoc, Read.bind_ok, hval]

/-- Settles O8: the read inside the buffer is `fieldLsb_eq_field`, the split is `readBitsLsb_add` with the low bits below
the high ones. -/
theorem readBitsClosedForm : Obligations.ReadBitsClosedForm := by
  refine fun m n c => ⟨fun h => ?_, readBitsLsb_raises, fun b d e lo hi hlo hhi => ?_⟩
  · rw [readBitsLsb_ok h, fieldLsb_eq_field h, Cursor.advance]
  · rw [readBitsLsb_add, hlo, Read.bind_ok, hhi, Read.bind_ok, Nat.two_pow_add_eq_or_of_lt (readBitsLsb_lt hlo),
      Nat.or_comm, Nat.shiftLeft_eq, Nat.mul_comm]

/-! ### The reversal, and reading several bits MSB-first -/

theorem revBits_lt : ∀ n v : Nat, revBits n v < 2 ^ n
  | 0, _ => Nat.one_pos
  | n + 1, v => by
    have ih := revBits_lt n (v / 2)
    rw [revBits, Nat.pow_succ]
    rcases Nat.mod_two_eq_zero_or_one v with h | h <;> rw [h] <;> omega

/-- The bit `i` of the reversal is the bit `n - 1 - i` of the number. -/
theorem testBit_revBits : ∀ {n i : Nat} (v : Nat), i < n → (revBits n v).testBit i = v.testBit (n - 1 - i)
  | n + 1, i, v, hi => by
    rw [revBits, Nat.mul_comm, Nat.testBit_two_pow_mul_add _ (revBits_lt n _)]
    split
    · next h =>
      rw [testBit_revBits _ h, ← Nat.testBit_add_one]
      congr 1
      omega
    · next h =>
      obtain rfl : i = n := by omega
      simp [Nat.testBit_zero]

theorem revBits_revBits {n v : Nat} (hv : v < 2 ^ n) : revBits n (revBits n v) = v := by
  refine Nat.eq_of_testBit_eq fun i => ?_
  by_cases hi : i < n
  · rw [testBit_revBits _ hi, testBit_revBits _ (by omega)]
    congr 1
    omega
  · have hle : 2 ^ n ≤ 2 ^ i := Nat.pow_le_pow_right (by omega) (by omega)
    rw [Nat.testBit_lt_two_pow (lt_of_lt_of_le (revBits_lt n _) hle), Nat.testBit_lt_two_pow (lt_of_lt_of_le hv hle)]

/-- The first bit of the stream is the highest of the reversal. -/
theorem revBits_bit_add (n v : Nat) (b : Bool) : revBits (n + 1) (b.toNat + 2 * v) = b.toNat * 2 ^ n + revBits n v := by
  have hb := Bool.toNat_le b
  rw [revBits, show (b.toNat + 2 * v) % 2 = b.toNat by omega, show (b.toNat + 2 * v) / 2 = v by omega]

/-- R95: the loop of `read_bits_msb(n)` reads what `read_bits_lsb(n)` reads, and puts it reversed behind the bits so
far. -/
theorem readBitsMsbFrom_eq (m : Input) : ∀ (n acc : Nat) (c : Cursor), readBitsMsbFrom m n acc c =
    (readBitsLsb m n c).bind fun v d => .ok (acc * 2 ^ n + revBits n v) d
  | 0, acc, c => by simp [readBitsMsbFrom, readBitsLsb, revBits]
  | n + 1, acc, c => by
    have hval : ∀ bit v : Nat, (2 * acc + bit) * 2 ^ n + v = acc * 2 ^ (n + 1) + (bit * 2 ^ n + v) :=
      fun _ _ => by ring
    rw [readBitsMsbFrom, readBitsLsb]
    simp only [readBitsMsbFrom_eq m n, Read.bind_assoc, Read.bind_ok, revBits_bit_add, hval]

theorem readBitsMsb_eq (m : Input) (n : Nat) (c : Cursor) :
    readBitsMsb m n c = (readBitsLsb m n c).bind fun v d => .ok (revBits n v) d := by
  simp only [readBitsMsb, readBitsMsbFrom_eq, Nat.zero_mul, Nat.zero_add]

/-- R96: the two reversals of `read_huffman_code` cancel. -/
theorem readHuffmanCode_eq (m : Input) (n : Nat) (c : Cursor) : readHuffmanCode m n c = readBitsLsb m n c := by
  rw [readHuffmanCode, readBitsMsb_eq, Read.bind_assoc]
  cases h : readBitsLsb m n c with
  | ok v d => rw [Read.bind_ok, Read.bind_ok, revBits_revBits (readBitsLsb_lt h)]
  | raises k d => rfl

/-- Settles O9: `readBitsMsb_eq` and `readHuffmanCode_eq`, and what the reversal does to each bit. -/
theorem readBitsMsbReverses : Obligations.ReadBitsMsbReverses := by
  refine ⟨fun m n c => ⟨fun v d h => ?_, fun k d h => ?_, readHuffmanCode_eq m n c⟩,
    fun n v => ⟨revBits_lt n v, fun i hi => testBit_revBits v hi⟩⟩
  · rw [readBitsMsb_eq, h, Read.bind_ok]
  · rw [readBitsMsb_eq, h, Read.bind_raises]

/-! ### Reading bytes -/

theorem bytesLe_lt (m : Input) (a n : Nat) : bytesLe m a n < 256 ^ n := by
  rw [bytesLe_eq_fieldLsb, show 256 = 2 ^ 8 from rfl, ← Nat.pow_mul]
  exact m.fieldLsb_lt _ _

/-- R97: byte `k` of the little-endian number is byte `a + k` of the input. -/
theorem bytesLe_div_mod (m : Input) : ∀ {n k : Nat} (a : Nat), k < n →
    bytesLe m a n / 256 ^ k % 256 = (m.byte (a + k)).toNat
  | n + 1, 0, a, _ => by
    rw [bytesLe, Nat.pow_zero, Nat.div_one, Nat.add_mul_mod_self_left, Nat.mod_eq_of_lt (m.byte a).isLt]
    rfl
  | n + 1, k + 1, a, h => by
    have := (m.byte a).isLt
    have hdiv : ((m.byte a).toNat + 256 * bytesLe m (a + 1) n) / 256 = bytesLe m (a + 1) n := by omega
    rw [bytesLe, Nat.pow_succ', ← Nat.div_div_eq_div_mul, hdiv, bytesLe_div_mod m (a + 1) (Nat.lt_of_succ_lt_succ h),
      Nat.add_assoc, Nat.add_comm 1 k]

/-- R97: on an aligned cursor with the bytes left, `read_bits_lsb(8*n)` reads the same bytes. -/
theorem readBitsLsb_bytes {m : Input} {a n : Nat} (h : a + n ≤ m.len) :
    readBitsLsb m (8 * n) ⟨a, 0⟩ = .ok (bytesLe m a n) ⟨a + n, 0⟩ := by
  have hidx : (⟨a, 0⟩ : Cursor).index = 8 * a := Cursor.index_of_aligned rfl
  have hend : (⟨a, 0⟩ : Cursor).advance (8 * n) = ⟨a + n, 0⟩ :=
    Cursor.ext_index (by rw [Cursor.index_advance, hidx, Cursor.index_of_aligned rfl, Nat.mul_add])
  rw [readBitsLsb_ok (by omega), bytesLe_eq_fieldLsb, hidx, hend]

/-- Settles O10: the number is `bytesLe`, byte by byte and as a field of bits. -/
theorem readBytesLittleEndian : Obligations.ReadBytesLittleEndian := fun m a count =>
  ⟨fun h => ⟨bytesLe m a count, readBytes_ok h, readBitsLsb_bytes h, fun _ hk => bytesLe_div_mod m a hk,
    bytesLe_lt m a count⟩, fun h => readBytes_raises h⟩

end Sys2Proof

namespace Sys2Proof.Machine

open Claims

/-! ### Reads called on the state -/

theorem raise_eq_failed {s : State} (h : s.status ≠ .error) (k : ErrorKind) : raise k s = failed s k :=
  raise_of_running h k

/-- R100 (a): a read that succeeds moves the cursor of the state and changes nothing else. -/
theorem liftRead_ok {α : Type} (s : State) (v : α) (c : Cursor) :
    liftRead s (.ok v c) = .ok v { s with pc := c } := rfl

/-- R100 (d), R201: a read that fails leaves the cursor where the read was given up, and the error is taken. -/
theorem liftRead_raises {α : Type} {s : State} (hs : s.status ≠ .error) (k : ErrorKind) (c : Cursor) :
    liftRead s (.raises k c : Read α) = .raised (failed { s with pc := c } k) :=
  congrArg Op.raised (raise_eq_failed (s := s.setPc c) hs k)

theorem callReadBitsLsb_ok {s : State} {n : Nat} (hn : n ≤ 16) (h : s.pc.index + n ≤ 8 * s.input.len) :
    callReadBitsLsb n s = .ok (s.input.fieldLsb s.pc.index n) { s with pc := s.pc.advance n } := by
  rw [callReadBitsLsb, if_pos hn, readBitsLsb_ok h, liftRead_ok]

theorem callReadBitsMsb_ok {s : State} {n : Nat} (hn : n ≤ 16) (h : s.pc.index + n ≤ 8 * s.input.len) :
    callReadBitsMsb n s = .ok (revBits n (s.input.fieldLsb s.pc.index n)) { s with pc := s.pc.advance n } := by
  rw [callReadBitsMsb, if_pos hn, readBitsMsb_eq, readBitsLsb_ok h, Read.bind_ok, liftRead_ok]

/-- R95, R96: with too few bits left the two reads are given up alike, at the end of the buffer. -/
theorem callReadBits_exhausted {s : State} {n : Nat} (hc : s.CursorInBounds) (hs : s.status ≠ .error) (hn : n ≤ 16)
    (h : 8 * s.input.len < s.pc.index + n) :
    callReadBitsLsb n s = .raised (failed { s with pc := ⟨s.input.len, 0⟩ } .streamExhausted) ∧
      callReadBitsMsb n s = .raised (failed { s with pc := ⟨s.input.len, 0⟩ } .streamExhausted) := by
  have hread := readBitsLsb_raises (s.cursorInBounds_iff.1 hc) h
  rw [callReadBitsLsb, callReadBitsMsb, if_pos hn, if_pos hn, readBitsMsb_eq, hread, Read.bind_raises, liftRead_raises hs]
  exact ⟨rfl, rfl⟩

theorem callReadHuffmanCode_eq {n : Nat} (h₁ : 1 ≤ n) (h₁₅ : n ≤ 15) (s : State) :
    callReadHuffmanCode n s = callReadBitsLsb n s := by
  rw [callReadHuffmanCode, callReadBitsLsb, if_pos ⟨h₁, h₁₅⟩, if_pos (by omega), readHuffmanCode_eq]

/-- Settles O13: each read's two outcomes, lifted to the state. -/
theorem readsMoveOnlyTheCursor : Obligations.ReadsMoveOnlyTheCursor := by
  intro s n hc hs
  refine ⟨fun h => ?_, fun h => ?_, fun hn h => ?_, callReadBits_exhausted hc hs,
    fun h₁ h₁₅ => callReadHuffmanCode_eq h₁ h₁₅ s, fun h₁ h₄ ha => ?_⟩
  · rw [callReadBitLsb, callReadBitMsb, readBitLsb_eq, readBitMsb_eq, if_neg (by omega), if_neg (by omega)]
    exact ⟨⟨_, rfl⟩, ⟨_, rfl⟩⟩
  · rw [callReadBitLsb, callReadBitMsb, readBitLsb_eq, readBitMsb_eq, if_pos (by omega), if_pos (by omega),
      liftRead_raises hs]
    exact ⟨rfl, rfl⟩
  · exact ⟨⟨_, s.input.fieldLsb_lt _ n, callReadBitsLsb_ok hn h⟩, ⟨_, revBits_lt n _, callReadBitsMsb_ok hn h⟩⟩
  · rw [callReadBytes_aligned ha h₁ h₄, raise_eq_failed hs, ha]
    exact ⟨fun h => ⟨_, bytesLe_lt _ _ n, if_neg (Nat.not_lt.2 h)⟩, fun h => if_pos h⟩

/-! ### Alignment and the sink -/

/-- Settles O11: the two cases of the alignment; that it is idempotent and stays in bounds are laws of the cursor. -/
theorem skipToNextByte_spec : Obligations.SkipToNextByte := by
  refine fun s => ⟨fun h => ?_, fun h => ?_, ?_, align_movesInBounds s⟩
  · rw [skipToNextByte, Cursor.align_of_aligned h, State.setPc_self]
  · rw [skipToNextByte, Cursor.align_of_unaligned h, State.setPc]
  · exact congrArg s.setPc s.pc.align_align

/-- Settles O12: the byte goes to `out_pos` where the sink has room, and the error is taken where it has none. -/
theorem putByte_spec : Obligations.PutByte := by
  refine fun b s => ⟨fun hroom => ⟨s.pushOut b, ?_, rfl, ?_, fun a ha => ?_⟩, fun cap hcap hle hs => ?_⟩
  · rw [putByte, State.sinkFull_of_room hroom, if_neg Bool.false_ne_true]
  · rw [State.pushOut_out, Memory.read_write_same]
  · rw [State.pushOut_out, Memory.read_write_other _ _ ha]
  · rw [putByte, if_pos (s.sinkFull_eq.2 ⟨cap, hcap, hle⟩), raise_eq_failed hs]

end Sys2Proof.Machine
end

section
/-! PROOFS. The canonical codes (41_huffman_tree.md R113, R115, R118 (a)): an insertion along a free path gives the symbol
the inserted code and leaves the others theirs. The key fact is that in every state of the assignment the next code of a
length is the first one plus the symbols of this length that have been passed, which is the canonical code. -/

namespace Sys2Proof

open Claims

/-! ### The code of an inserted symbol -/

@[simp] theorem Tree.left_node (l r : Tree) : (Tree.node l r).left = l := rfl

@[simp] theorem Tree.right_node (l r : Tree) : (Tree.node l r).right = r := rfl

/-- The code of a symbol in a node that is no leaf: through the left child, and only where it has none there through the
right one. -/
theorem Tree.NoLeaf.codeOf_eq {t : Tree} (h : t.NoLeaf) (sym : Nat) : t.codeOf sym =
    ((t.left.codeOf sym).map (false :: ·)).or ((t.right.codeOf sym).map (true :: ·)) := by
  cases t with
  | leaf s c len => exact absurd rfl (h s c len)
  | absent => rfl
  | node l r =>
    rw [Tree.codeOf, Tree.left_node, Tree.right_node]
    cases l.codeOf sym <;> rfl

theorem Tree.Free.right {c i : Nat} {t : Tree} (h : t.Free c (i + 1)) (hb : c.testBit i = true) :
    t.right.Free c i := by
  obtain ⟨-, hfree⟩ := h
  rwa [hb] at hfree

theorem Tree.Free.left {c i : Nat} {t : Tree} (h : t.Free c (i + 1)) (hb : ¬ c.testBit i = true) :
    t.left.Free c i := by
  obtain ⟨-, hfree⟩ := h
  rwa [Bool.eq_false_of_not_eq_true hb] at hfree

/-- R115: an insertion along a free path leaves the codes of the other symbols. -/
theorem Tree.codeOf_insert_other {s c len sym : Nat} (hne : sym ≠ s) : ∀ {i : Nat} {t : Tree}, t.Free c i →
    (t.insert s c len i).codeOf sym = t.codeOf sym
  | 0, _, rfl => if_neg hne.symm
  | i + 1, t, h@⟨hleaf, _⟩ => by
    rw [(Tree.insert_rootInternal s c len i t).noLeaf.codeOf_eq, hleaf.codeOf_eq, Tree.insert]
    split
    · next hb => rw [Tree.left_node, Tree.right_node, Tree.codeOf_insert_other hne (h.right hb)]
    · next hb => rw [Tree.left_node, Tree.right_node, Tree.codeOf_insert_other hne (h.left hb)]

/-- R115: the code of an inserted symbol is the inserted one, from its most significant bit on. -/
theorem Tree.codeOf_insert_same {s c len : Nat} : ∀ {i : Nat} {t : Tree}, t.Free c i → t.codeOf s = none →
    (t.insert s c len i).codeOf s = some (msbBits i c)
  | 0, _, rfl, _ => if_pos rfl
  | i + 1, t, h@⟨hleaf, _⟩, hnone => by
    rw [hleaf.codeOf_eq] at hnone
    obtain ⟨hl, hr⟩ : t.left.codeOf s = none ∧ t.right.codeOf s = none := by simpa using hnone
    rw [(Tree.insert_rootInternal s c len i t).noLeaf.codeOf_eq, Tree.insert, msbBits_succ]
    split
    · next hb => simp [hl, Tree.codeOf_insert_same (h.right hb) hr, hb]
    · next hb => simp [Tree.codeOf_insert_same (h.left hb) hl, hb]

/-! ### The canonical codes -/

/-- The symbol has the code that R113 assigns, and this code fits in its length. -/
structure Tree.HasCanonicalCode (lengths : List Nat) (t : Tree) (sym : Nat) : Prop where
  fits : canonicalCode lengths sym < 2 ^ lengths.getD sym 0
  code : t.codeOf sym = some (msbBits (lengths.getD sym 0) (canonicalCode lengths sym))

/-- What holds while the codes of the symbols from `s` on are still to be assigned: exactly the symbols before `s` can
have a code, and those with a length have the canonical one. -/
structure Build.Coded (lengths : List Nat) (s : Nat) (b : Build) : Prop where
  assigning : b.Assigning lengths (lengths.drop s)
  fresh : ∀ sym, s ≤ sym → b.tree.codeOf sym = none
  coded : ∀ sym < s, lengths.getD sym 0 ≠ 0 → b.tree.HasCanonicalCode lengths sym

/-- R113: the next code of a length has as many codes of this length before it as symbols have been passed. -/
theorem Build.Assigning.nextCode_eq {lengths : List Nat} {s l : Nat} {b : Build}
    (h : b.Assigning lengths (lengths.drop s)) (h₁ : 1 ≤ l) (h₁₅ : l ≤ 15) :
    b.nextCode.getD l 0 = firstCode lengths l + (lengths.take s).count l := by
  have hleft := h.left l h₁ h₁₅
  have hsplit : lengths.count l = (lengths.take s).count l + (lengths.drop s).count l := by
    rw [← List.count_append, List.take_append_drop]
  rw [endCode] at hleft
  omega

/-- The first of the lengths from `s` on is that of symbol `s`. -/
theorem getD_of_drop_eq_cons {lengths rest : List Nat} {s len : Nat} (h : lengths.drop s = len :: rest) :
    lengths.getD s 0 = len := by
  rw [List.getD_eq_getElem?_getD, ← List.head?_drop, h]
  rfl

theorem Build.Coded.initial (lengths : List Nat) : Build.Coded lengths 0
    ⟨.bareRoot, countLengths lengths, firstCodes (countLengths lengths), true⟩ where
  assigning := Build.Assigning.initial lengths
  fresh _ _ := rfl
  coded sym h := absurd h (Nat.not_lt_zero sym)

theorem Build.Coded.skip {lengths rest : List Nat} {s : Nat} {b : Build} (hrest : lengths.drop s = 0 :: rest)
    (h : b.Coded lengths s) : b.Coded lengths (s + 1) where
  assigning := by
    have hassigning := h.assigning
    rw [hrest] at hassigning
    rw [List.drop_add_one_eq_tail_drop, hrest]
    exact hassigning.skip
  fresh sym hs := h.fresh sym (by omega)
  coded sym hs hlen := by
    rcases Nat.lt_succ_iff_lt_or_eq.1 hs with hlt | rfl
    · exact h.coded sym hlt hlen
    · exact absurd (getD_of_drop_eq_cons hrest) hlen

theorem Build.Coded.assign {lengths rest : List Nat} {s len : Nat} {b : Build} (hrest : lengths.drop s = len :: rest)
    (h : b.Coded lengths s) (h₁ : 1 ≤ len) (h₁₅ : len ≤ 15) (hfits : b.nextCode.getD len 0 < 2 ^ len) :
    (b.assign s len).Coded lengths (s + 1) := by
  have hnext := h.assigning.nextCode_eq h₁ h₁₅
  have hassigning := h.assigning
  rw [hrest] at hassigning
  have hfree := hassigning.free _ _ (hassigning.isCode h₁ h₁₅ hfits) (le_refl _)
  refine ⟨?_, fun sym hs => ?_, fun sym hs hlen => ?_⟩
  · rw [List.drop_add_one_eq_tail_drop, hrest]
    exact hassigning.assign s h₁ h₁₅ hfits
  · exact (Tree.codeOf_insert_other (by omega) hfree).trans (h.fresh sym (by omega))
  · rcases Nat.lt_succ_iff_lt_or_eq.1 hs with hlt | rfl
    · obtain ⟨hfit, hcode⟩ := h.coded sym hlt hlen
      exact ⟨hfit, (Tree.codeOf_insert_other (by omega) hfree).trans hcode⟩
    · have hget := getD_of_drop_eq_cons hrest
      have hcanon : canonicalCode lengths sym = b.nextCode.getD len 0 := by rw [hnext, canonicalCode, hget, firstCode]
      refine ⟨by rwa [hget, hcanon], ?_⟩
      rw [hget, hcanon]
      exact Tree.codeOf_insert_same hfree (h.fresh sym (le_refl sym))

/-- R113 to R115: an assignment that succeeds gives every symbol with a length its canonical code. -/
theorem assignCodes_hasCanonicalCode {lengths : List Nat} (hle : ∀ len ∈ lengths, len ≤ 15) :
    ∀ {rest : List Nat} {s : Nat} {b : Build}, lengths.drop s = rest → b.Coded lengths s →
      (assignCodes rest s b).ok = true → ∀ sym < lengths.length, lengths.getD sym 0 ≠ 0 →
        (assignCodes rest s b).tree.HasCanonicalCode lengths sym
  | [], s, b, hrest, h, _ => fun sym hsym => h.coded sym (hsym.trans_le (List.drop_eq_nil_iff.1 hrest))
  | 0 :: rest, s, b, hrest, h, hok => by
    rw [assignCodes_zero] at hok ⊢
    exact assignCodes_hasCanonicalCode hle (by rw [List.drop_add_one_eq_tail_drop, hrest, List.tail_cons])
      (h.skip hrest) hok
  | (n + 1) :: rest, s, b, hrest, h, hok => by
    have h₁₅ : n + 1 ≤ 15 := hle (n + 1) (List.mem_of_mem_drop (hrest ▸ List.mem_cons_self ..))
    obtain ⟨hfits, he⟩ := assignCodes_cons_ok (Nat.succ_ne_zero n) hok
    rw [he] at hok ⊢
    exact assignCodes_hasCanonicalCode hle (by rw [List.drop_add_one_eq_tail_drop, hrest, List.tail_cons])
      (h.assign hrest (Nat.succ_pos n) h₁₅ hfits) hok

theorem build_hasCanonicalCode {lengths : List Nat} (hle : ∀ len ∈ lengths, len ≤ 15)
    (hok : (build lengths).ok = true) {sym : Nat} (hsym : sym < lengths.length) (hlen : lengths.getD sym 0 ≠ 0) :
    (build lengths).tree.HasCanonicalCode lengths sym :=
  assignCodes_hasCanonicalCode hle rfl (Build.Coded.initial lengths) hok sym hsym hlen

/-- Settles O16: the codes are canonical by induction over the assignment, and a walk along the bits of a code ends at
its symbol. -/
theorem canonicalCodesDecode : Obligations.CanonicalCodesDecode := by
  intro lengths hle hok sym hsym hlen
  obtain ⟨hfits, hcode⟩ := build_hasCanonicalCode hle hok hsym hlen
  refine ⟨hfits, hcode, fun m c hbits => ?_⟩
  rw [Tree.walk_of_codeOf hcode hbits, msbBits_length]

end Sys2Proof
end

section
/-! PROOFS. The counts, the over-subscription check and the tree without codes (41_huffman_tree.md R111, R112, R114, R116,
R117). The key fact is that the codes up to a length are assigned without a gap: the code after the last one of length `l`
is the number of codes of `l` bits that are taken, the Kraft sum of the lengths up to `l` times `2 ^ l`. -/

namespace Sys2Proof

open Claims

/-! ### The counts and the first codes -/

/-- R111: symbols of length 0 are not counted. -/
theorem countLengths_zero (lengths : List Nat) : (countLengths lengths).getD 0 0 = 0 := by
  have step : ∀ ls bl : List Nat,
      (ls.foldl (fun bl len => if len = 0 then bl else bl.set len (bl.getD len 0 + 1)) bl).getD 0 0 =
        bl.getD 0 0 := by
    intro ls
    induction ls with
    | nil => exact fun _ => rfl
    | cons len ls ih =>
      intro bl
      rw [List.foldl_cons, ih]
      split
      · rfl
      · next h0 => rw [List.getD_eq_getElem?_getD, List.getElem?_set_ne h0, ← List.getD_eq_getElem?_getD]
  exact step lengths _

/-- R111: where no length exceeds 15, every length is counted. -/
theorem countLengths_eq_count {lengths : List Nat} (hle : ∀ len ∈ lengths, len ≤ 15) {l : Nat} (h₁ : 1 ≤ l) :
    (countLengths lengths).getD l 0 = lengths.count l := by
  by_cases h₁₅ : l ≤ 15
  · exact countLengths_getD lengths h₁ h₁₅
  · rw [List.count_eq_zero_of_not_mem fun hl => h₁₅ (hle l hl), List.getD_eq_getElem?_getD,
      List.getElem?_eq_none (by rw [countLengths_length]; omega)]
    rfl

theorem build_blCount (lengths : List Nat) : (build lengths).blCount = countLengths lengths :=
  (assignCodes_scratch lengths 0 _).1

/-- R112: `next_code[1]` is 0. -/
theorem firstCode_one (lengths : List Nat) : firstCode lengths 1 = 0 := by
  rw [firstCode, firstCodes_succ (countLengths_length lengths) (by omega), countLengths_zero]
  rfl

/-- R112: the codes of the next length begin at twice the code after the last one. -/
theorem firstCode_succ (lengths : List Nat) {l : Nat} (h₁ : 1 ≤ l) (h₁₅ : l < 15) :
    firstCode lengths (l + 1) = endCode lengths l * 2 := by
  rw [firstCode, firstCodes_succ (countLengths_length lengths) h₁₅, countLengths_getD lengths h₁ h₁₅.le]
  rfl

/-- Settles O14: the scratch registers are not written after step 2; the counts and first codes by their recurrences. -/
theorem buildCounts : Obligations.BuildCounts := fun lengths hle =>
  ⟨build_blCount lengths, countLengths_zero lengths, fun _ h₁ => countLengths_eq_count hle h₁,
    firstCode_one lengths, fun _ h₁ h₁₅ => firstCode_succ lengths h₁ h₁₅⟩

/-! ### The Kraft sum -/

/-- The number of codes of `l` bits that begin with the code of a symbol whose length is at most `l`: the Kraft sum of
R114 over these symbols, times `2 ^ l`. -/
def codesTaken (lengths : List Nat) (l : Nat) : Nat :=
  (lengths.map fun len => if len = 0 ∨ l < len then 0 else 2 ^ (l - len)).sum

theorem codesTaken_zero (lengths : List Nat) : codesTaken lengths 0 = 0 := by
  rw [codesTaken, List.sum_eq_zero_iff]
  intro n hn
  obtain ⟨len, -, rfl⟩ := List.mem_map.1 hn
  exact if_pos (Nat.eq_zero_or_pos len)

/-- Each code of `l` bits begins two of `l + 1` bits, and the symbols of length `l + 1` take one each. -/
theorem codesTaken_succ (lengths : List Nat) (l : Nat) :
    codesTaken lengths (l + 1) = codesTaken lengths l * 2 + lengths.count (l + 1) := by
  induction lengths with
  | nil => rfl
  | cons len lengths ih =>
    have hhead : (if len = 0 ∨ l + 1 < len then 0 else 2 ^ (l + 1 - len)) =
        (if len = 0 ∨ l < len then 0 else 2 ^ (l - len)) * 2 + if len = l + 1 then 1 else 0 := by
      rcases Nat.lt_trichotomy len (l + 1) with h | rfl | h
      · by_cases h0 : len = 0
        · simp [h0]
        · rw [if_neg (by omega), if_neg (by omega), if_neg h.ne, Nat.succ_sub (by omega), Nat.pow_succ, Nat.add_zero]
      · simp
      · simp [h, h.ne', show l < len by omega]
    simp only [codesTaken, List.map_cons, List.sum_cons, List.count_cons, beq_iff_eq] at ih ⊢
    omega

/-- R111 to R113: the codes of up to `l` bits are assigned without a gap. -/
theorem endCode_eq_codesTaken (lengths : List Nat) {l : Nat} (h₁ : 1 ≤ l) (h₁₅ : l ≤ 15) :
    endCode lengths l = codesTaken lengths l := by
  induction l, h₁ using Nat.le_induction with
  | base => rw [endCode, firstCode_one, codesTaken_succ, codesTaken_zero]
  | succ l h₁ ih => rw [endCode, firstCode_succ lengths h₁ h₁₅, ih (by omega), codesTaken_succ]

/-- The sum of R114, times `2 ^ 15`. -/
theorem codesTaken_fifteen {lengths : List Nat} (hle : ∀ len ∈ lengths, len ≤ 15) :
    codesTaken lengths 15 = (lengths.map fun len => if len = 0 then 0 else 2 ^ (15 - len)).sum := by
  rw [codesTaken]
  refine congrArg List.sum (List.map_congr_left fun len hlen => ?_)
  have := hle len hlen
  simp [show ¬ 15 < len by omega]

/-! ### When every code fits -/

/-- R114: the codes left fit exactly when the last code of each length fits. -/
theorem assignCodes_ok_iff {lengths : List Nat} : ∀ {rest : List Nat} {s : Nat} {b : Build},
    (∀ len ∈ rest, len ≤ 15) → b.Assigning lengths rest → b.ok = true →
    ((assignCodes rest s b).ok = true ↔ ∀ len ∈ rest, len ≠ 0 → endCode lengths len ≤ 2 ^ len)
  | [], _, _, _, _, hok => by simp [assignCodes, hok]
  | 0 :: rest, s, b, hle, h, hok => by
    rw [assignCodes_zero, assignCodes_ok_iff (fun len hl => hle len (List.mem_cons_of_mem _ hl)) h.skip hok]
    simp
  | (n + 1) :: rest, s, b, hle, h, hok => by
    have h₁₅ : n + 1 ≤ 15 := hle (n + 1) (List.mem_cons_self ..)
    have h0 : n + 1 ≠ 0 := Nat.succ_ne_zero n
    have hrest : ∀ len ∈ rest, len ≤ 15 := fun len hl => hle len (List.mem_cons_of_mem _ hl)
    have hleft := h.left (n + 1) (Nat.succ_pos n) h₁₅
    rw [List.count_cons_self] at hleft
    refine ⟨fun hok' => ?_, fun hends => ?_⟩
    · obtain ⟨hfits, he⟩ := assignCodes_cons_ok h0 hok'
      have hends := (assignCodes_ok_iff hrest (h.assign s (Nat.succ_pos n) h₁₅ hfits) hok).1 (he ▸ hok')
      refine List.forall_mem_cons.2 ⟨fun _ => ?_, hends⟩
      by_cases hmem : n + 1 ∈ rest
      · exact hends _ hmem h0
      · rw [List.count_eq_zero_of_not_mem hmem] at hleft
        omega
    · obtain ⟨hhead, hends⟩ := List.forall_mem_cons.1 hends
      have hfits : b.nextCode.getD (n + 1) 0 < 2 ^ (n + 1) := by
        have := hhead h0
        omega
      rw [assignCodes, if_neg h0]
      dsimp only
      rw [if_neg (Nat.not_le.2 hfits)]
      exact (assignCodes_ok_iff hrest (h.assign s (Nat.succ_pos n) h₁₅ hfits) hok).2 hends

theorem build_ok_iff {lengths : List Nat} (hle : ∀ len ∈ lengths, len ≤ 15) :
    (build lengths).ok = true ↔ ∀ len ∈ lengths, len ≠ 0 → endCode lengths len ≤ 2 ^ len :=
  assignCodes_ok_iff hle (Build.Assigning.initial lengths) rfl

/-- R112: where the codes of all bits fit, so do those of fewer. -/
theorem endCode_le_of_fifteen {lengths : List Nat} (h : endCode lengths 15 ≤ 2 ^ 15) {l : Nat} (h₁ : 1 ≤ l)
    (h₁₅ : l ≤ 15) : endCode lengths l ≤ 2 ^ l := by
  induction h₁₅ using Nat.decreasingInduction with
  | self => exact h
  | of_succ l hlt ih =>
    have := ih (by omega)
    rw [endCode, firstCode_succ lengths h₁ hlt, Nat.pow_succ] at this
    omega

/-- R112: a length without symbols needs no more room than the length before it. -/
theorem endCode_le_of_forall_mem {lengths : List Nat} (h : ∀ len ∈ lengths, len ≠ 0 → endCode lengths len ≤ 2 ^ len)
    {l : Nat} (h₁ : 1 ≤ l) (h₁₅ : l ≤ 15) : endCode lengths l ≤ 2 ^ l := by
  have hzero : ∀ l ∉ lengths, endCode lengths l = firstCode lengths l := fun l hmem => by
    rw [endCode, List.count_eq_zero_of_not_mem hmem, Nat.add_zero]
  induction l, h₁ using Nat.le_induction with
  | base =>
    by_cases hmem : 1 ∈ lengths
    · exact h 1 hmem Nat.one_ne_zero
    · rw [hzero 1 hmem, firstCode_one]
      exact Nat.zero_le _
  | succ l h₁ ih =>
    by_cases hmem : l + 1 ∈ lengths
    · exact h (l + 1) hmem (Nat.succ_ne_zero l)
    · rw [hzero _ hmem, firstCode_succ lengths h₁ h₁₅, Nat.pow_succ]
      exact Nat.mul_le_mul_right 2 (ih (by omega))

/-- Settles O15: `build` succeeds exactly when the codes of all lengths fit, and by the recurrence of the first codes they
do when the codes of 15 bits, which count the Kraft sum, fit. -/
theorem buildRejectsExactlyOversubscribed : Obligations.BuildRejectsExactlyOversubscribed := by
  intro lengths hle
  rw [← codesTaken_fifteen hle, ← endCode_eq_codesTaken lengths (by omega) (le_refl 15), ← Nat.not_le,
    ← Bool.not_eq_true, build_ok_iff hle, not_iff_not]
  exact ⟨fun h => endCode_le_of_forall_mem h (by omega) (le_refl 15),
    fun h len hlen h0 => endCode_le_of_fifteen h (Nat.pos_of_ne_zero h0) (hle len hlen)⟩

/-! ### The tree without codes -/

theorem assignCodes_replicate_zero (n s : Nat) (b : Build) : assignCodes (List.replicate n 0) s b = b := by
  induction n generalizing s with
  | zero => rfl
  | succ n ih => rw [List.replicate_succ, assignCodes_zero, ih]

/-- R116: lengths that are all 0 leave the bare root. -/
theorem build_replicate_zero (n : Nat) : (build (List.replicate n 0)).ok = true ∧
    (build (List.replicate n 0)).tree = .bareRoot := by
  rw [build, assignCodes_replicate_zero]
  exact ⟨rfl, rfl⟩

/-- R117: the bit is read before the child is tested, and the bare root has no child. -/
theorem Tree.walk_bareRoot (m : Input) (c : Cursor) : Tree.bareRoot.walk m c =
    if 8 * m.len ≤ c.index then .raises .streamExhausted c else .raises .malformedTree (c.advance 1) := by
  rw [Tree.bareRoot, Tree.walk_node, ite_self, Tree.walk]

/-- Settles O18: the build leaves the bare root, and a walk of it is one read. -/
theorem emptyTreeWalk : Obligations.EmptyTreeWalk := by
  intro n
  obtain ⟨hok, htree⟩ := build_replicate_zero n
  refine ⟨hok, htree, fun m c => ?_⟩
  rw [htree, Tree.walk_bareRoot]
  exact ⟨fun h => if_neg (Nat.not_le.2 h), fun h => if_pos h⟩

end Sys2Proof
end

section
/-! PROOFS. The sliding window (42_sliding_window.md R125 to R129): a distance out of reach copies nothing; a copy repeats
the output `distance` positions back, because the window holds the last bytes of it; and what appends no byte leaves the
memories and the registers of a copy as they are. -/

namespace Sys2Proof.Machine

open Claims

/-! ### A distance out of reach -/

/-- R127, R206: `copy_back` tests the distance before it copies. -/
theorem copyBack_failed {length d : Nat} {s : State} (hs : s.status ≠ .error)
    (hd : d = 0 ∨ s.emitted < d ∨ s.capacity < d) : copyBack length d s = .raised (failed s .invalidDistance) := by
  rw [copyBack_invalid hd, raise_eq_failed hs]

/-- Settles O37: `copyBack_failed`, for a row in the state in which its `distance` has been written. -/
theorem invalidDistanceStops : Obligations.InvalidDistanceStops := by
  refine ⟨fun _ _ _ => copyBack_failed, fun i d w y s hi hrow hs hd => ?_⟩
  have hcopy : copyBack s.length (dbase d + y) (s.setDistance (dbase d + y)) =
      .raised (failed (s.setDistance (dbase d + y)) .invalidDistance) := copyBack_failed hs (.inr hd)
  rw [exec_eq_execForm, hi, execForm, if_pos hrow]
  exact congrArg (fun o => (o.bind fun _ u => .ok () (u.setPos .symbol)).outcome) hcopy

/-! ### The law of a back-reference -/

/-- R14: every byte before `out_pos` has been written. -/
theorem State.SinkInOrder.read_isSome {s : State} (h : s.SinkInOrder) {a : Nat} (ha : a < s.outPos) :
    (s.out.read a).isSome = true := by
  obtain ⟨-, hout⟩ := h
  rw [Memory.read_isSome, hout, decide_eq_true_iff]
  exact List.mem_range.2 ha

/-- R16 (c), (d): the window bytes a back-reference of distance `d` begins with are the last `d` bytes of the output. -/
theorem out_read_of_lt_distance {s : State} (hsink : s.SinkInOrder) (hhist : s.WindowHoldsHistory)
    (herr : s.errorKind ≠ some .bufferFull) {d k : Nat} (he : d ≤ s.emitted) (hd : d ≤ s.capacity) (hk : k < d) :
    s.out.read (s.emitted + k - d) = some (copySource s d k) := by
  obtain ⟨hpos, hslots⟩ := hhist herr
  have hread := hslots (d - k) (by omega) (by omega) (by omega)
  rw [show s.cursor + s.capacity - (d - k) = s.cursor + s.capacity - d + k by omega,
    show s.emitted - (d - k) = s.emitted + k - d by omega] at hread
  obtain ⟨b, hb⟩ := Option.isSome_iff_exists.1 (hsink.read_isSome (a := s.emitted + k - d) (by omega))
  rw [copySource, Nat.mod_eq_of_lt hk, State.winByte, hread, hb, Option.getD_some]

/-- R129: each byte of a copy is the one `d` positions before it: for the first `d` bytes one of the earlier output, after
that one the copy itself has written. -/
theorem Appended.read_back {s t : State} {l d k : Nat} (h : Appended s t l (copySource s d)) (hsink : s.SinkInOrder)
    (hhist : s.WindowHoldsHistory) (herr : s.errorKind ≠ some .bufferFull) (he : d ≤ s.emitted) (hd : d ≤ s.capacity)
    (hk : k < l) : t.out.read (s.emitted + k - d) = some (copySource s d k) := by
  obtain ⟨hpos, -⟩ := hhist herr
  by_cases hkd : k < d
  · rw [h.outOld _ fun j _ => by omega, out_read_of_lt_distance hsink hhist herr he hd hkd]
  · obtain ⟨j, rfl⟩ := Nat.exists_eq_add_of_le' (Nat.le_of_not_lt hkd)
    have hcycle : copySource s d (j + d) = copySource s d j := by rw [copySource, Nat.add_mod_right, copySource]
    rw [show s.emitted + (j + d) - d = s.outPos + j by omega, h.outNew j (by omega), hcycle]

/-- Settles O39: the copy appends the bytes of the back-reference (`copyBack_appended`), and each of them stands
`distance` positions before its own place (`Appended.read_back`). -/
theorem backReferenceLaw : Obligations.BackReferenceLaw := by
  intro s l d hwin hsink hhist herr h₁ he hd hroom
  obtain ⟨hcursor, -⟩ := hwin
  obtain ⟨hpos, -⟩ := hhist herr
  obtain ⟨t, hcopy, happ, -, -⟩ := copyBack_appended hcursor h₁ he hd hroom
  refine ⟨t, hcopy, happ.emitted, happ.outPos, fun k hk => ?_, fun a ha => happ.outOld a fun k _ => by omega⟩
  have hnew : t.out.read (s.emitted + k) = some (copySource s d k) := by rw [hpos]; exact happ.outNew k hk
  rw [happ.read_back hsink hhist herr he hd hk, hnew]
  exact ⟨rfl, rfl⟩

/-! ### What appends nothing -/

/-- What an instruction that appends nothing leaves as it was: the memories and their counters, the bit cursor, the
parameters, the host's commands, the wrapper's place and the registers of a copy. -/
def State.carried (s : State) :
    Memory × Nat × Memory × Nat × Nat × Cursor × Params × List Command × Frame × Nat × Nat × Nat :=
  (s.out, s.outPos, s.win, s.cursor, s.emitted, s.pc, s.params, s.inbox, s.frame, s.distance, s.src, s.remaining)

theorem State.carried_eq_iff {s t : State} : t.carried = s.carried ↔
    t.out = s.out ∧ t.outPos = s.outPos ∧ t.win = s.win ∧ t.cursor = s.cursor ∧ t.emitted = s.emitted ∧ t.pc = s.pc ∧
    t.params = s.params ∧ t.inbox = s.inbox ∧ t.frame = s.frame ∧ t.distance = s.distance ∧ t.src = s.src ∧
    t.remaining = s.remaining := by
  simp only [State.carried, Prod.mk.injEq]

theorem raise_carried (k : ErrorKind) (s : State) : (raise k s).carried = s.carried := by
  rw [raise_writes]
  rfl

theorem fillLens_carried (n v : Nat) (s : State) : (fillLens n v s).carried = s.carried := by
  rw [fillLens_writes]
  rfl

theorem buildClTree_carried (s : State) : (buildClTree s).carried = s.carried := by
  rw [buildClTree]
  split
  · rfl
  · exact raise_carried _ (s.setClTree _)

theorem buildBlockTrees_carried (s : State) : (buildBlockTrees s).carried = s.carried := by
  rw [buildBlockTrees]
  dsimp only
  split
  · split
    · rfl
    · exact raise_carried _ ((s.setLlTree _).setDTree _)
  · exact raise_carried _ (s.setLlTree _)

theorem endLens_carried (s : State) : (endLens s).carried = s.carried := by
  rw [endLens]
  split
  · rfl
  · exact buildBlockTrees_carried s

theorem runLens_carried (n v : Nat) (s : State) : (runLens n v s).carried = s.carried := by
  rw [runLens]
  split
  · exact raise_carried _ s
  · exact (endLens_carried _).trans (fillLens_carried n v s)

/-- The step ends in a next state that carries over what `s` holds. -/
def Carries (s : State) (o : Host.Outcome State Fault Refusal) : Prop := ∃ t, o = .next t ∧ t.carried = s.carried

theorem raise_carries (k : ErrorKind) (s : State) : Carries s (.next (raise k s)) := ⟨_, rfl, raise_carried k s⟩

/-- R136, R137: the block headers. -/
theorem blockHeader_carries (final : Bool) (s : State) : ∀ btype, Carries s (execForm (.blockHeader final btype) s)
  | 0 | 1 | 2 => ⟨_, rfl, rfl⟩
  | _ + 3 => ⟨_, rfl, raise_carried _ (s.setHeader final 3)⟩

/-- R140 to R142: the counts and the code-length-code lengths. -/
theorem field_carries (w v : Nat) (s : State) : ∀ f, Carries s (execForm (.field f w v) s)
  | .hlit | .hdist | .hclen => ⟨_, rfl, rfl⟩
  | .cllen => by
    refine ⟨_, rfl, ?_⟩
    split
    · rfl
    · exact buildClTree_carried (s.putClLen _)

/-- R143 to R148: the code-length symbols. -/
theorem codeLength_carries (sym w x : Nat) (s : State) : Carries s (execForm (.coded .codeLength sym w x) s) := by
  rw [execForm]
  split
  · exact ⟨_, rfl, (endLens_carried _).trans (fillLens_carried 1 _ s)⟩
  split
  · refine ⟨_, rfl, ?_⟩
    split
    · exact raise_carried _ s
    · exact runLens_carried _ _ s
  split
  · exact ⟨_, rfl, runLens_carried _ _ s⟩
  · exact ⟨_, rfl, runLens_carried _ _ s⟩

/-- R162, R163, R168: the literal/length symbols but the literals. -/
theorem literalLength_carries {sym : Nat} (h : ¬ sym < 256) (w x : Nat) (s : State) :
    Carries s (execForm (.coded .literalLength sym w x) s) := by
  rw [execForm, if_neg h]
  split
  · exact ⟨_, rfl, rfl⟩
  split
  · exact ⟨_, rfl, rfl⟩
  · exact raise_carries _ s

/-- R169: the distance symbols that have no distance. -/
theorem distance_carries {sym : Nat} (h : ¬ sym ≤ 29) (w y : Nat) (s : State) :
    Carries s (execForm (.coded .distance sym w y) s) := by
  rw [execForm, if_neg h]
  exact raise_carries _ s

/-- R125: the cases are the formats; LEN, the literals and the distances append. -/
theorem exec_carries {i : Instr} (h : appends i = false) (s : State) : Carries s (exec i s) := by
  rw [exec_eq_execForm]
  rw [appends] at h
  cases hf : i.form with rw [hf] at h
  | blockHeader final btype => exact blockHeader_carries final s btype
  | storedHeader len nlen => cases h
  | field f w v => exact field_carries w v s f
  | coded a sym w x =>
    cases a with
    | codeLength => exact codeLength_carries sym w x s
    | literalLength => exact literalLength_carries (of_decide_eq_false h) w x s
    | distance => exact distance_carries (of_decide_eq_false h) w x s

/-- Settles O52: `exec_carries`, field by field. -/
theorem otherInstructionsKeepMemories : Obligations.OtherInstructionsKeepMemories := by
  intro i s t hi hexec
  obtain ⟨u, hu, hcarried⟩ := exec_carries hi s
  obtain rfl : u = t := Host.Outcome.next.inj (hu.symm.trans hexec)
  exact State.carried_eq_iff.1 hcarried

end Sys2Proof.Machine
end

section
/-! PROOFS. The block decoder (43_block_decoder.md R135 to R150; 45_inflate_engine.md R180, R181): the instruction a
step runs, the block headers, the fields of a dynamic header on the stream, and the body of a stored block. -/

namespace Sys2Proof

open Claims Laws

/-! ### The elements of fixed width on the stream -/

/-- R61, R94: three bits left are a block header, BFINAL first and BTYPE after it, LSB-first. -/
theorem decode_header_ok {m : Input} {c : Cursor} (h : c.index + 3 ≤ 8 * m.len) : decode m .header c =
    .ok (headerInstr (m.streamBit c.index)
      ((m.streamBit (c.index + 1)).toNat + 2 * (m.streamBit (c.index + 2)).toNat)) (c.advance 3) := by
  have hfinal : (m.fieldLsb c.index 1 == 1) = m.streamBit c.index := by
    rw [Input.fieldLsb, Input.fieldLsb]
    cases m.streamBit c.index <;> rfl
  rw [decode, readBitsLsb_ok (n := 1) (by omega), Read.bind_ok,
    readBitsLsb_ok (n := 2) (by rw [Cursor.index_advance]; omega), Read.bind_ok, hfinal, Cursor.index_advance,
    Cursor.advance_advance]
  rfl

/-- R136, R201: fewer than three bits are no block header; the reads are given up at the end of the buffer. -/
theorem decode_header_cutShort {m : Input} {c : Cursor} (hc : c.index ≤ 8 * m.len) (h : 8 * m.len < c.index + 3) :
    decode m .header c = .raises .streamExhausted ⟨m.len, 0⟩ := by
  rw [decode]
  by_cases h₁ : c.index + 1 ≤ 8 * m.len
  · have htype : readBitsLsb m 2 (c.advance 1) = .raises .streamExhausted ⟨m.len, 0⟩ :=
      readBitsLsb_raises (by rwa [Cursor.index_advance]) (by rw [Cursor.index_advance]; omega)
    rw [readBitsLsb_ok h₁, Read.bind_ok, htype, Read.bind_raises]
  · rw [readBitsLsb_raises hc (Nat.not_le.1 h₁), Read.bind_raises]

/-- R64, R65: with enough bits left, a field of a dynamic header is the number they hold. -/
theorem decode_field_ok {m : Input} {c : Cursor} (fl : Field) (h : c.index + fl.width ≤ 8 * m.len) :
    decode m fl.place c = .ok (rowOf (.field fl fl.width (field m c.index fl.width))) (c.advance fl.width) := by
  have hread : decode m fl.place c =
      (readBitsLsb m fl.width c).bind fun v d => .ok (rowOf (.field fl fl.width v)) d := by cases fl <;> rfl
  rw [hread, readBitsLsb_ok h, Read.bind_ok, fieldLsb_eq_field h]

end Sys2Proof

namespace Sys2Proof.Machine

open Claims Laws

/-! ### A step and its instruction -/

/-- R136: only a block header is latched before it is whole. -/
theorem latchCutHeader_of_ne {s : State} (h : s.phase ≠ .readHeader) : latchCutHeader s = s := by
  rw [latchCutHeader]
  cases hp : s.phase with
  | readHeader => exact absurd hp h
  | idle | stored | fixedHuffman | dynamicHuffman | done | finished | error => rfl

/-- R136, log 11: BFINAL is latched when its bit was there. -/
theorem latchCutHeader_readHeader {s : State} (h : s.phase = .readHeader) : latchCutHeader s =
    s.setBfinal (if s.pc.index < 8 * s.input.len then s.input.streamBit s.pc.index else s.bfinal) := by
  rw [latchCutHeader, h]
  by_cases hlt : s.pc.index < 8 * s.input.len
  · rw [if_pos hlt, readBitLsb_ok hlt]
  · rw [if_neg hlt, readBitLsb_eq, if_pos (Nat.le_of_not_lt hlt)]
    rfl

/-- R135: in a reading phase a step executes the instruction that decodes at the cursor. -/
theorem step_of_decode_ok {s : State} {i : Instr} {c : Cursor} (hp : s.phase.Reads = true)
    (h : decode s.input s.ctx s.pc = .ok i c) : step s = exec i { s with pc := c } := by
  rw [step_reads hp, runElement_ok h, State.setPc]

/-- R201, R207: outside a block header, an element that cannot be read raises its error and does nothing else. -/
theorem step_of_decode_raises {s : State} {k : ErrorKind} {c : Cursor} (hp : s.phase.Reads = true)
    (hne : s.phase ≠ .readHeader) (hs : s.status ≠ .error) (h : decode s.input s.ctx s.pc = .raises k c) :
    step s = .next (failed { s with pc := c } k) := by
  rw [step_reads hp, runElement_raises h, latchCutHeader_of_ne hne, raise_eq_failed (by exact hs), State.setPc]

/-- Settles O40: the two outcomes of the decoder in a reading phase. -/
theorem stepRunsDecodedInstruction : Obligations.StepRunsDecodedInstruction := by
  intro s c hp
  have hreads : s.phase.Reads = true := by rcases hp with hp | hp | hp | hp <;> rw [hp] <;> rfl
  exact ⟨fun i => step_of_decode_ok hreads,
    fun k hne hrun => step_of_decode_raises hreads hne (by rw [hrun]; decide)⟩

/-! ### The turn of the engine -/

/-- Settles O32: `endBlock` on both values of `bfinal`, and at both places of the wrapper in which the CORE runs. -/
theorem engineTurn : Obligations.EngineTurn := by
  intro s hp
  rw [step_done hp, endBlock]
  refine ⟨fun hf => ?_, fun hf hframe => ?_, fun hf hframe => ?_⟩
  · rw [if_neg (by rw [hf]; decide), State.setPhase]
  · have hraw : frameAfterBody s.frame = s.frame := by rw [hframe]; rfl
    rw [if_pos hf, hraw]
    rfl
  · rw [if_pos hf, hframe]
    rfl

/-! ### The block headers -/

/-- Settles O19: the meanings are these register updates, and the reserved type raises after them. -/
theorem blockHeaders : Obligations.BlockHeaders := fun f s =>
  ⟨rfl, rfl, rfl, fun hs => congrArg _ (raise_eq_failed (s := s.setHeader f 3) hs .invalidBlockType)⟩

/-- R136, R137: with three bits left a step runs the header they hold. -/
theorem step_header {s : State} (hp : s.phase = .readHeader) (hroom : s.pc.index + 3 ≤ 8 * s.input.len) :
    step s = exec (headerInstr (s.input.streamBit s.pc.index)
      ((s.input.streamBit (s.pc.index + 1)).toNat + 2 * (s.input.streamBit (s.pc.index + 2)).toNat))
      { s with pc := s.pc.advance 3 } := by
  have hctx : s.ctx = .header := by rw [State.ctx, hp]
  exact step_of_decode_ok (by rw [hp]; rfl) (by rw [hctx, decode_header_ok hroom])

/-- Settles O20: the header on the stream (`step_header`) has the meaning of its BTYPE (`blockHeaders`). -/
theorem headerStep : Obligations.HeaderStep := by
  intro s hp hrun hroom f lo hi s'
  have hstep : step s = exec (headerInstr f (lo.toNat + 2 * hi.toNat)) { s with pc := s.pc.advance 3 } :=
    step_header hp hroom
  obtain ⟨hstored, hfixed, hdynamic, hreserved⟩ := blockHeaders f { s with pc := s.pc.advance 3 }
  rw [hstep]
  refine ⟨fun hlo hhi => ⟨s.pos, ?_⟩, fun hlo hhi => ⟨.symbol, ?_⟩, fun hlo hhi => ⟨.hlit, ?_⟩,
    fun hlo hhi => ?_⟩ <;> rw [hlo, hhi]
  · exact hstored
  · exact hfixed
  · exact hdynamic
  · exact hreserved (by rw [hrun]; decide)

/-- Settles O21: the reads end at the end of the buffer (`decode_header_cutShort`), with BFINAL latched if it was
there. -/
theorem headerCutShort : Obligations.HeaderCutShort := by
  intro s hp hrun hc hcut
  have hctx : s.ctx = .header := by rw [State.ctx, hp]
  have hdecode : decode s.input s.ctx s.pc = .raises .streamExhausted ⟨s.input.len, 0⟩ := by
    rw [hctx, decode_header_cutShort hc hcut]
  rw [step_reads (by rw [hp]; rfl), runElement_raises hdecode, latchCutHeader_readHeader hp]
  exact congrArg _ (raise_eq_failed (by show s.status ≠ .error; rw [hrun]; decide) _)

/-! ### The dynamic header -/

/-- R140, R141: a step at a field of a dynamic header runs the field with the number the stream holds. -/
theorem step_field (fl : Field) {s : State} (hp : s.phase = .dynamicHuffman) (hctx : s.ctx = fl.place)
    (hroom : s.pc.index + fl.width ≤ 8 * s.input.len) :
    step s = exec (rowOf (.field fl fl.width (field s.input s.pc.index fl.width)))
      { s with pc := s.pc.advance fl.width } :=
  step_of_decode_ok (by rw [hp]; rfl) (by rw [hctx, decode_field_ok fl hroom])

/-- R94: a field of `n` bits fits its operand. -/
theorem toNat_ofNat_field (m : Input) (p n : Nat) : (BitVec.ofNat n (field m p n)).toNat = field m p n := by
  rw [BitVec.toNat_ofNat, field, Nat.mod_mod]

/-- R140: the step at HLIT. -/
theorem step_hlit {s : State} (hp : s.phase = .dynamicHuffman) (hq : s.pos = .hlit)
    (hroom : s.pc.index + 5 ≤ 8 * s.input.len) :
    step s = .next (((s.setPc (s.pc.advance 5)).setHlit (field s.input s.pc.index 5 + 257)).setPos .hdist) := by
  have hctx : s.ctx = .hlit := by rw [State.ctx, hp, hq]
  rw [step_field .hlit hp hctx hroom, ← toNat_ofNat_field s.input s.pc.index 5]
  rfl

/-- R140: the step at HDIST. -/
theorem step_hdist {s : State} (hp : s.phase = .dynamicHuffman) (hq : s.pos = .hdist)
    (hroom : s.pc.index + 5 ≤ 8 * s.input.len) :
    step s = .next (((s.setPc (s.pc.advance 5)).setHdist (field s.input s.pc.index 5 + 1)).setPos .hclen) := by
  have hctx : s.ctx = .hdist := by rw [State.ctx, hp, hq]
  rw [step_field .hdist hp hctx hroom, ← toNat_ofNat_field s.input s.pc.index 5]
  rfl

/-- R140, R141: the step at HCLEN. -/
theorem step_hclen {s : State} (hp : s.phase = .dynamicHuffman) (hq : s.pos = .hclen)
    (hroom : s.pc.index + 4 ≤ 8 * s.input.len) : step s =
      .next (((s.setPc (s.pc.advance 4)).setHclen (field s.input s.pc.index 4 + 4)).clearClLen.setPos .cllen) := by
  have hctx : s.ctx = .hclen := by rw [State.ctx, hp, hq]
  rw [step_field .hclen hp hctx hroom, ← toNat_ofNat_field s.input s.pc.index 4]
  rfl

/-- Settles O26: the steps at HLIT, HDIST and HCLEN in a row. -/
theorem dynamicCountsFromStream : Obligations.DynamicCountsFromStream := by
  intro s hp hq hroom
  refine (run_succ_of_next (M := Sys2Proof.core) (step_hlit hp hq (by omega)) 2).trans ?_
  refine (run_succ_of_next (M := Sys2Proof.core) (step_hdist (by exact hp) rfl ?_) 1).trans ?_
  · show (s.pc.advance 5).index + 5 ≤ 8 * s.input.len
    rw [Cursor.index_advance]
    omega
  refine (run_succ_of_next (M := Sys2Proof.core) (step_hclen (by exact hp) rfl ?_) 0).trans ?_
  · show ((s.pc.advance 5).advance 5).index + 4 ≤ 8 * s.input.len
    rw [Cursor.index_advance, Cursor.index_advance]
    omega
  simp [Host.Core.run, State.input, State.setPc, State.setHlit, State.setHdist, State.setHclen, State.clearClLen,
    State.setPos]

/-- Settles O27: on while a field is left, else the outcome of the build. -/
theorem codeLengthCodeLength : Obligations.CodeLengthCodeLength := by
  intro v s s₁ b
  have hexec : exec (.cllen v) s = .next (endClLens s₁) := rfl
  have hend : s.hclen ≤ s.i + 1 → endClLens s₁ = buildClTree s₁ := fun h => if_neg (Nat.not_lt.2 h)
  refine ⟨fun h => hexec.trans (congrArg _ (if_pos h)), fun h hok => ?_, fun h hok hs => ?_⟩
  · rw [hexec, hend h, buildClTree, if_pos hok]
    rfl
  · refine ⟨failed (s₁.setClTree b) .malformedTree, ?_, rfl⟩
    rw [hexec, hend h, buildClTree, if_neg (by exact ne_true_of_eq_false hok), raise_eq_failed (by exact hs)]

/-- D10, R207: a run past the total writes nothing. -/
theorem runLens_failed {n v : Nat} {s : State} (hs : s.status ≠ .error) (h : s.hlit + s.hdist < s.i + n) :
    runLens n v s = failed s .malformedTree := by
  rw [runLens, if_pos (by exact h), raise_eq_failed hs]

/-- Settles O30: the missing previous length is tested first, then the end of the run (`runLens_failed`). -/
theorem codeLengthRunsMalformed : Obligations.CodeLengthRunsMalformed := by
  intro s hs
  refine ⟨fun x h => ?_, fun x h => congrArg _ (runLens_failed hs h), fun x h => congrArg _ (runLens_failed hs h)⟩
  rw [exec, execClRep]
  by_cases hi : s.i = 0
  · rw [if_pos hi, raise_eq_failed hs]
  · rw [if_neg hi, repeatCount, runLens_failed hs (h.resolve_left hi)]

/-! ### The stored block -/

/-- Only the memories and their counters of the last state matter. -/
theorem Appended.of_eq_right {s t u : State} {n : Nat} {b : Nat → Byte} (h : Appended s t n b)
    (h₁ : u.outPos = t.outPos) (h₂ : u.emitted = t.emitted) (h₃ : u.cursor = t.cursor) (h₄ : u.out = t.out)
    (h₅ : u.win = t.win) : Appended s u n b where
  outPos := by rw [h₁, h.outPos]
  emitted := by rw [h₂, h.emitted]
  cursor := by rw [h₃, h.cursor]
  outNew := by rw [h₄]; exact h.outNew
  outOld := by rw [h₄]; exact h.outOld
  winNew := by rw [h₅]; exact h.winNew
  winOld := by rw [h₅]; exact h.winOld

/-- R138: `t` is `s` after the first `r` bytes of a stored body. -/
structure StoredBytes (s t : State) (r : Nat) : Prop where
  appended : Appended s t r fun k => s.input.byte (s.pc.byte + k)
  writes : t = { s with pc := ⟨s.pc.byte + r, 0⟩, remaining := t.remaining, out := t.out, outPos := t.outPos,
                        win := t.win, cursor := t.cursor, emitted := t.emitted }

/-- R138: what is left of LEN after its first bytes: the rest `o` of the copy, then the end of the block. -/
def storedEnd (o : Op Unit) : Host.Outcome State Fault Refusal := (o.bind fun _ t => .ok () (t.setPhase .done)).outcome

/-- R138: LEN with its complement copies the first `r` bytes, where they are there and have room, and goes on to the `n`
that are left. -/
theorem exec_len_of_bytes {len : Half} {s : State} {r n : Nat} (hlen : len.toNat = r + n) (ha : s.pc.bit = 0)
    (hc : s.cursor < s.capacity) (hl : s.pc.byte + r ≤ s.input.len) (hr : Room s r) :
    ∃ t, exec (.len len (~~~len)) s = storedEnd (copyStored n t) ∧ StoredBytes s t r := by
  obtain ⟨t, ht, happ, hs, hp, hsrc⟩ := copyStored_appended r n (s.setRemaining len.toNat) hc ha hl hr
  refine ⟨t, ?_, happ.of_eq rfl rfl rfl rfl rfl rfl, ?_⟩
  · rw [exec, execLen, if_pos (lenComplement_not len), ← ht, ← hlen, storedEnd]
  · rw [SameButMemories, hp, hsrc] at hs
    exact hs

/-- Settles O22: `exec_len_of_bytes` with no byte left. -/
theorem storedBlockCopies : Obligations.StoredBlockCopies := by
  rintro len _ s rfl ha hc hl hr
  obtain ⟨t, hexec, happ, hw⟩ := exec_len_of_bytes (Nat.add_zero _).symm ha hc hl hr
  exact ⟨t.setPhase .done, hexec, happ.of_eq_right rfl rfl rfl rfl rfl, congrArg (State.setPhase · .done) hw⟩

/-- R76: values that are no complements are rejected. -/
theorem lenComplement_of_ne {len nlen : Half} (h : nlen ≠ ~~~len) : lenComplement len nlen = false := by
  rw [lenComplement, beq_eq_false_iff_ne]
  intro hxor
  have hnot : nlen = len ^^^ (len ^^^ nlen) := by rw [← BitVec.xor_assoc, BitVec.xor_self, BitVec.zero_xor]
  rw [hxor] at hnot
  exact h (hnot.trans (BitVec.xor_allOnes (x := len)))

/-- R138, R201: the next byte of the body is not there. -/
theorem copyStored_exhausted {s : State} {n : Nat} (hs : s.status ≠ .error) (ha : s.pc.bit = 0)
    (hl : s.input.len ≤ s.pc.byte) : copyStored (n + 1) s = .raised (failed s .streamExhausted) := by
  rw [copyStored, callReadByte_raises ha hl, Op.bind_raised, raise_eq_failed hs]

/-- R138, R202: the next byte of the body is read and put into the window, and has no room in the sink. -/
theorem copyStored_full {s : State} {n cap : Nat} (hs : s.status ≠ .error) (ha : s.pc.bit = 0)
    (hl : s.pc.byte < s.input.len) (hcap : s.params.outCap = some cap) (hfull : cap ≤ s.outPos) :
    ∃ b, copyStored (n + 1) s = .raised (failed ((s.setPc ⟨s.pc.byte + 1, 0⟩).pushWin b) .bufferFull) := by
  refine ⟨BitVec.ofNat 8 (s.input.byte s.pc.byte).toNat, ?_⟩
  rw [copyStored, callReadByte_ok ha hl, Op.bind_ok, ha, append_of_full (by exact hcap) (by exact hfull),
    Op.bind_raised, raise_eq_failed (by exact hs)]

/-- Settles O23: the complement is tested before the copy; then `exec_len_of_bytes` goes up to the end of the input or
of the sink, and the byte after that raises. -/
theorem storedBlockErrors : Obligations.StoredBlockErrors := by
  intro len nlen s hs
  refine ⟨fun hne => ?_, ?_, ?_⟩
  · rw [exec, execLen, lenComplement_of_ne hne, if_neg Bool.false_ne_true, raise_eq_failed hs]
  · rintro rfl ha hc hl hcut hroom
    obtain ⟨n, hn⟩ := Nat.exists_eq_add_of_lt (Nat.sub_lt_left_of_lt_add hl hcut)
    obtain ⟨t, hexec, happ, hw⟩ :=
      exec_len_of_bytes (r := s.input.len - s.pc.byte) (n := n + 1) hn ha hc (by omega) hroom
    have hpc : t.pc = ⟨s.input.len, 0⟩ := by rw [hw, Nat.add_sub_cancel' hl]
    have hend : copyStored (n + 1) t = .raised (failed t .streamExhausted) :=
      copyStored_exhausted (by rw [hw]; exact hs) (by rw [hpc]) (by rw [hpc, hw]; exact le_refl _)
    rw [hend] at hexec
    exact ⟨_, hexec, happ.of_eq_right rfl rfl rfl rfl rfl, rfl, rfl, hpc⟩
  · rintro rfl ha hc cap hcap hle hfill hl
    obtain ⟨n, hn⟩ := Nat.exists_eq_add_of_lt (Nat.sub_lt_left_of_lt_add hle hfill)
    have hroom : Room s (cap - s.outPos) := fun c hcapc => by
      rw [hcap, Option.some.injEq] at hcapc
      omega
    obtain ⟨t, hexec, happ, hw⟩ := exec_len_of_bytes (r := cap - s.outPos) (n := n + 1) hn ha hc hl.le hroom
    have hpc : t.pc = ⟨s.pc.byte + (cap - s.outPos), 0⟩ := by rw [hw]
    have hpos : t.outPos = cap := by rw [happ.outPos, Nat.add_sub_cancel' hle]
    obtain ⟨b, hend⟩ := copyStored_full (s := t) (n := n) (by rw [hw]; exact hs) (by rw [hpc])
      (by rw [hpc, hw]; exact hl) (by rw [hw]; exact hcap) hpos.ge
    rw [hend, hpc] at hexec
    exact ⟨_, hexec, rfl, rfl, hpos, happ.outNew, congrArg (· + 1) happ.emitted, rfl⟩

end Sys2Proof.Machine
end

section
/-! PROOFS. The symbols of a Huffman block (44_symbol_decode.md R161 to R169; 30_encoding.md R73, R74): a literal is one
append, the end of a block is a change of phase, the 29 match lengths are one meaning at 29 rows of a table, and so are the
30 match distances. -/

namespace Sys2Proof.Machine

open Claims

/-! ### Literals, the end of the block, the illegal symbols -/

/-- R126: one append is a write of the window, then one of the sink. -/
theorem appended_one {s : State} (hc : s.cursor < s.capacity) (b : Byte) :
    Appended s ((s.pushWin b).pushOut b) 1 fun _ => b :=
  Appended.step (u := (s.pushWin b).pushOut b) hc ⟨rfl, rfl, rfl, rfl, rfl, rfl⟩
    (Appended.zero _ (Nat.mod_lt _ s.capacity_pos) rfl rfl rfl rfl rfl)

/-- Settles O33: both rows of LIT are `append`, and the sink has room. -/
theorem literalAppends : Obligations.LiteralAppends := by
  intro b s hc hr
  have happend : (append b s).outcome = .next ((s.pushWin b).pushOut b) := by
    rw [append_of_room hr, Op.outcome_ok]
  exact ⟨_, happend, happend, appended_one hc b, rfl⟩

/-- Settles O31: the meaning of EOB is this one register update. -/
theorem endOfBlock : Obligations.EndOfBlock := fun _ => rfl

/-- Settles O34: both meanings are `raise`, of a state without an error. -/
theorem illegalSymbolsRaise : Obligations.IllegalSymbolsRaise := fun _ _ hs =>
  ⟨congrArg _ (raise_eq_failed hs .invalidSymbol), congrArg _ (raise_eq_failed hs .invalidSymbol)⟩

/-! ### The match lengths -/

/-- R163: a match length symbol with its extra bits sets `length` by its row of the table. -/
theorem setsLength_of_form {i : Instr} {sym w x n : Nat} (hi : i.form = .coded .literalLength sym w x)
    (h₁ : 257 ≤ sym) (h₂ : sym ≤ 285) (hn : n = lbase sym + x) : SetsLength i n := by
  intro s
  rw [exec_eq_execForm, hi, execForm, if_neg (by omega), if_neg (by omega), if_pos h₂, hn]
  rfl

/-- Settles O35: `setsLength_of_form` at each row, the base read off the table. -/
theorem matchLengths : Obligations.MatchLengths := by
  unfold Obligations.MatchLengths
  and_intros
  all_goals
    intros
    exact setsLength_of_form rfl (by decide) (by decide) rfl

/-! ### The match distances -/

/-- R74: no row of the table has a distance of 0. -/
theorem one_le_dbase : ∀ d ≤ 29, 1 ≤ dbase d := by decide

/-- R167: after a copy that succeeds, the next literal/length symbol follows. -/
theorem matchDistance_of_copyBack {d y : Nat} {s t : State}
    (h : copyBack s.length (dbase d + y) (s.setDistance (dbase d + y)) = .ok () t) :
    matchDistance d y s = .next (t.setPos .symbol) := by
  show ((copyBack s.length (dbase d + y) (s.setDistance (dbase d + y))).bind fun _ u =>
    .ok () (u.setPos .symbol)).outcome = _
  rw [h, Op.bind_ok, Op.outcome_ok]

/-- R166, R167: a distance symbol with its extra bits sets `distance` by its row of the table; the copy then starts from
the state in which it has been written. -/
theorem copiesBack_of_form {i : Instr} {d w y n : Nat} (hi : i.form = .coded .distance d w y) (hrow : d ≤ 29)
    (hn : n = dbase d + y) : CopiesBack i n := by
  subst hn
  intro s hc he hd hr
  have h₁ : 1 ≤ dbase d + y := Nat.le_add_right_of_le (one_le_dbase d hrow)
  obtain ⟨t, hcopy, happ, hs, hp⟩ := copyBack_appended (s := s.setDistance (dbase d + y)) hc h₁ he hd hr
  have hbytes : Appended s t s.length (copySource s (dbase d + y)) := happ.of_eq rfl rfl rfl rfl rfl rfl
  refine ⟨t.setPos .symbol, ?_, hbytes.of_eq_right rfl rfl rfl rfl rfl, ?_⟩
  · rw [exec_eq_execForm, hi, execForm, if_pos hrow, matchDistance_of_copyBack hcopy]
  · rw [SameButMemories, hp] at hs
    exact congrArg (State.setPos · .symbol) hs

/-- Settles O36: `copiesBack_of_form` at each row, the base read off the table. -/
theorem matchDistancesCopy : Obligations.MatchDistancesCopy := by
  unfold Obligations.MatchDistancesCopy
  and_intros
  all_goals
    intros
    exact copiesBack_of_form rfl (by decide) rfl

end Sys2Proof.Machine
end

section
/-! PROOFS. The end of a run (45_inflate_engine.md R181, R184, R185; 00_scope.md R8): an element leaves the machine running
or in `Error`, so only the turn of the engine loop finishes; and each step of a run that goes on lowers `stepsLeft`, since
an element uses up a bit and no two turns of the engine loop follow one another. -/

namespace Sys2Proof.Machine

/-! ### The status after a step of a run -/

/-- R25, R210: every instruction leaves the running machine running, or raises an error. -/
theorem kept_running : Kept (fun s => s.status = .running) fun s => s.status = .error where
  same _ _ hd h := hd.status.trans h
  append b s h := by
    rw [append_eq]
    split
    · exact raise_status _ _
    · exact h
  read _ ha h := callReadByte_ensures ha (fun _ => h) (raise_status _ _)
  raise k s _ := raise_status k s

theorem runElement_running_or_error {s t : State} (hrun : s.status = .running) (h : runElement s = .next t) :
    t.status = .running ∨ t.status = .error :=
  runElement_keeps kept_running h fun _ _ => hrun

/-- R180, R181: everything the turn of the engine loop can do, by the BFINAL bit of the block. -/
theorem endBlock_cases {s t : State} (h : endBlock s = .next t) :
    (s.bfinal = true ∧ t = s.setFinished.setFrame (frameAfterBody s.frame)) ∨
      (s.bfinal = false ∧ t = s.setPhase .readHeader) := by
  obtain rfl := Host.Outcome.next.inj h
  cases hf : s.bfinal with
  | true => exact .inl ⟨rfl, rfl⟩
  | false => exact .inr ⟨rfl, rfl⟩

/-- Settles O55: no element finishes a run, and the turn of the engine loop does so only after a final block. -/
theorem finishedOnlyAfterFinalBlock : Obligations.FinishedOnlyAfterFinalBlock := by
  rintro s t ⟨hphase, -⟩ hrun h hfin
  rcases Phase.reads_or_done (hphase.symm.trans hrun) with hp | hp
  · rcases runElement_running_or_error hrun ((step_reads hp).symm.trans h) with ht | ht <;> simp [ht] at hfin
  · rcases endBlock_cases ((step_done hp).symm.trans h) with ⟨hf, rfl⟩ | ⟨-, rfl⟩
    · exact ⟨hp, hf, rfl, rfl, rfl⟩
    · simp [hrun] at hfin

/-! ### The steps left to a run -/

/-- A bound on the steps a run can still take before its last: two for each bit left, and the turn of the engine loop
where it comes next. -/
def State.stepsLeft (s : State) : Nat := 2 * (8 * s.input.len - s.pc.index) + if s.phase = .done then 1 else 0

theorem State.stepsLeft_done {s : State} (h : s.phase = .done) :
    s.stepsLeft = 2 * (8 * s.input.len - s.pc.index) + 1 := by
  rw [State.stepsLeft, if_pos h]

theorem State.stepsLeft_of_ne_done {s : State} (h : s.phase ≠ .done) :
    s.stepsLeft = 2 * (8 * s.input.len - s.pc.index) := by
  rw [State.stepsLeft, if_neg h, Nat.add_zero]

theorem State.stepsLeft_le (s : State) : s.stepsLeft ≤ 2 * (8 * s.input.len - s.pc.index) + 1 := by
  rw [State.stepsLeft]
  split <;> omega

/-- R184: with a bit used up there are fewer steps left, wherever the machine then stands. -/
theorem State.stepsLeft_lt_of_index_lt {s t : State} (hin : t.input = s.input) (hlt : s.pc.index < t.pc.index)
    (hle : t.pc.index ≤ 8 * s.input.len) : t.stepsLeft < s.stepsLeft := by
  have hs : 2 * (8 * s.input.len - s.pc.index) ≤ s.stepsLeft := Nat.le_add_right _ _
  have ht := t.stepsLeft_le
  rw [hin] at ht
  omega

/-- R184: a step ends the run, or leaves it with fewer steps. -/
theorem step_ends_or_stepsLeft_lt {s t : State} (hs : s.Inv) (hrun : s.status = .running) (h : step s = .next t) :
    t.Ended ∨ (t.status = .running ∧ t.stepsLeft < s.stepsLeft) := by
  rcases Phase.reads_or_done (hs.status.1.symm.trans hrun) with hp | hp
  · have helem : runElement s = .next t := (step_reads hp).symm.trans h
    rcases runElement_running_or_error hrun helem with ht | ht
    · have hin : t.input = s.input := congrArg Params.input (runElement_sameHost helem).params
      have hle : t.pc.index ≤ 8 * s.input.len := hin ▸ t.cursorInBounds_iff.1 (step_cursorInBounds hs.cursor h)
      rcases runElement_cursor hs.cursor hs.block helem with hlt | ⟨-, herr⟩
      · exact .inr ⟨ht, State.stepsLeft_lt_of_index_lt hin hlt hle⟩
      · exact .inl (.inr herr)
    · exact .inl (.inr ht)
  · rcases endBlock_cases ((step_done hp).symm.trans h) with ⟨-, rfl⟩ | ⟨-, rfl⟩
    · exact .inl (.inl rfl)
    · refine .inr ⟨hrun, ?_⟩
      rw [State.stepsLeft_done hp, State.stepsLeft_of_ne_done (by simp)]
      exact Nat.lt_succ_self _

/-- R184: a run with fewer than `n` steps left ends within `n`. -/
theorem run_ends_within : ∀ {n : Nat} {s : State}, s.Inv → s.status = .running → s.stepsLeft < n →
    ∃ (k : Nat) (t : State), k ≤ n ∧ Sys2Proof.core.run k s = .next t ∧ t.Ended := by
  intro n
  induction n with
  | zero => exact fun _ _ hn => absurd hn (Nat.not_lt_zero _)
  | succ n ih =>
    intro s hs hrun hn
    obtain ⟨u, hu⟩ := runningStepAnswersNext s hs.status hrun
    have hgo := run_succ_of_next (M := Sys2Proof.core) hu
    rcases step_ends_or_stepsLeft_lt hs hrun hu with hend | ⟨hurun, hlt⟩
    · exact ⟨1, u, by omega, hgo 0, hend⟩
    · obtain ⟨k, t, hk, hsteps, hend⟩ := ih (step_inv hs hu) hurun (by omega)
      exact ⟨k + 1, t, by omega, (hgo k).trans hsteps, hend⟩

/-- Settles O48: a running state has at most two steps for each bit left and one (`State.stepsLeft_le`), and a run ends
within one more (`run_ends_within`). -/
theorem runEnds : Obligations.RunEnds := fun s hs hrun =>
  run_ends_within hs hrun (Nat.lt_succ_of_le s.stepsLeft_le)

end Sys2Proof.Machine
end

section
/-! PROOFS. The zlib wrapper (46_zlib_frame.md): its single-byte reads, run one after another until the input ends, then
the header's checks (R192, R193, R197) and the trailer's (R194, R195). -/

namespace Sys2Proof

theorem Cursor.align_eq (c : Cursor) : c.align = ⟨c.byte + (if c.bit = 0 then 0 else 1), 0⟩ := by
  by_cases h : c.bit = 0
  · rw [Cursor.align_of_aligned h, if_pos h, Nat.add_zero, ← h]
  · rw [Cursor.align_of_unaligned h, if_neg h]

end Sys2Proof

namespace Sys2Proof.Machine

open Claims

/-! ### Single-byte reads in a row -/

/-- R97: a byte read that finds its byte hands it on, the cursor at the next byte. -/
theorem bind_callReadByte_ok {α : Type} {s : State} {a : Nat} (f : Nat → State → Op α) (h : a < s.input.len) :
    (callReadBytes 1 (s.setPc ⟨a, 0⟩)).bind f = f (s.input.byte a).toNat (s.setPc ⟨a + 1, 0⟩) := by
  rw [callReadByte_ok (s := s.setPc ⟨a, 0⟩) rfl h, Op.bind_ok]
  rfl

/-- R97, R201: byte reads in a row fail at the end of the input, if those after this one do. -/
theorem bind_callReadByte_exhausted {α : Type} {s : State} {a : Nat} {f : Nat → State → Op α} (hs : s.status ≠ .error)
    (hle : a ≤ s.input.len)
    (hf : a < s.input.len → f (s.input.byte a).toNat (s.setPc ⟨a + 1, 0⟩) =
      .raised (failed (s.setPc ⟨s.input.len, 0⟩) .streamExhausted)) :
    (callReadBytes 1 (s.setPc ⟨a, 0⟩)).bind f = .raised (failed (s.setPc ⟨s.input.len, 0⟩) .streamExhausted) := by
  rcases hle.eq_or_lt with rfl | hlt
  · have hend : (s.setPc ⟨s.input.len, 0⟩).status ≠ .error := hs
    rw [callReadByte_raises (s := s.setPc ⟨s.input.len, 0⟩) rfl le_rfl, Op.bind_raised, raise_eq_failed hend]
  · rw [bind_callReadByte_ok f hlt, hf hlt]

/-! ### The fields of the header -/

theorem zlibCm_eq_eight_iff (cmf : Byte) : zlibCm cmf = 8 ↔ cmf.toNat % 16 = 8 := by
  rw [← BitVec.toNat_inj, zlibCm, BitVec.extractLsb'_toNat, Nat.shiftRight_zero]
  rfl

theorem zlibCinfo_toNat (cmf : Byte) : (zlibCinfo cmf).toNat = cmf.toNat / 16 := by
  rw [zlibCinfo, BitVec.extractLsb'_toNat, Nat.shiftRight_eq_div_pow]
  omega

theorem zlibFdict_eq_true_iff (flg : Byte) : zlibFdict flg = true ↔ flg.toNat / 32 % 2 = 1 := by
  rw [zlibFdict, BitVec.getLsbD, Nat.testBit_eq_decide_div_mod_eq, decide_eq_true_iff]

/-- R192: the checks in their order, on the bytes as numbers. -/
theorem zlibHeaderError_eq (cmf flg : Byte) :
    zlibHeaderError cmf flg =
      if cmf.toNat % 16 ≠ 8 then some .unsupportedCompressionMethod
      else if (cmf.toNat * 256 + flg.toNat) % 31 ≠ 0 then some .headerChecksumInvalid
      else if flg.toNat / 32 % 2 = 1 then some .presetDictionaryUnsupported
      else none := by
  simp only [zlibHeaderError, ne_eq, zlibCm_eq_eight_iff, zlibFdict_eq_true_iff]

/-! ### The header step -/

theorem zlibHeader_read {s : State} (h : 2 ≤ s.input.len) :
    zlibHeader (s.setPc ⟨0, 0⟩) = (zlibAfterHeader (s.input.byte 0) (s.input.byte 1) (s.setPc ⟨2, 0⟩)).outcome := by
  rw [zlibHeader, bind_callReadByte_ok _ (by omega), bind_callReadByte_ok _ (by omega), BitVec.ofNat_toNat,
    BitVec.ofNat_toNat, BitVec.setWidth_eq, BitVec.setWidth_eq]

theorem zlibHeader_exhausted {s : State} (hs : s.status ≠ .error) (h : s.input.len < 2) :
    zlibHeader (s.setPc ⟨0, 0⟩) = .next (failed (s.setPc ⟨s.input.len, 0⟩) .streamExhausted) := by
  rw [zlibHeader, bind_callReadByte_exhausted hs (Nat.zero_le _), Op.outcome_raised]
  exact fun h₁ => bind_callReadByte_exhausted hs h₁ fun h₂ => absurd h₂ (by omega)

theorem zlibAfterHeader_error {cmf flg : Byte} {k : ErrorKind} {s : State} (hs : s.status ≠ .error)
    (h : zlibHeaderError cmf flg = some k) : (zlibAfterHeader cmf flg s).outcome = .next (failed s k) := by
  rw [zlibAfterHeader, h, Op.outcome_raised, raise_eq_failed hs]

/-- R193, R197: a header without an error starts the CORE, or is refused for its window. -/
theorem zlibAfterHeader_accepted {cmf flg : Byte} {s : State} (h : zlibHeaderError cmf flg = none) :
    (zlibAfterHeader cmf flg s).outcome =
      if 7 < cmf.toNat / 16 then .refused .windowInfoAboveSeven
      else .next ((startState ⟨s.params.input, cmf.toNat / 16 + 8, s.params.outCap, 2, s.params.trace⟩ s.inbox).setFrame
        .body) := by
  rw [zlibAfterHeader, h, zlibWbits, zlibCinfo_toNat]
  exact apply_ite Op.outcome _ _ _

/-- Settles O58: both bytes are read (`zlibHeader_read`), then the first check that fails decides
(`zlibHeaderError_eq`). -/
theorem zlibHeaderStep : Obligations.ZlibHeaderStep := by
  intro s hphase hstatus hframe hpc
  have hs : s.status ≠ .error := by simp [hstatus]
  have hstep : step s = zlibHeader (s.setPc ⟨0, 0⟩) := by
    rw [step_idle hphase, idleStep, hframe, ← hpc, State.setPc_self]
  have hread (h : 2 ≤ s.input.len) := hstep.trans (zlibHeader_read h)
  refine ⟨fun h hcm => ?_, fun h hcm hmod => ?_, fun h hcm hmod hdict => ?_, fun h hcm hmod hdict hinfo => ?_,
    fun h hcm hmod hdict hinfo => ?_, fun h => hstep.trans (zlibHeader_exhausted hs h)⟩
  · refine (hread h).trans (zlibAfterHeader_error hs ?_)
    rw [zlibHeaderError_eq, if_pos hcm]
  · refine (hread h).trans (zlibAfterHeader_error hs ?_)
    rw [zlibHeaderError_eq, if_neg (not_not.2 hcm), if_pos hmod]
  · refine (hread h).trans (zlibAfterHeader_error hs ?_)
    rw [zlibHeaderError_eq, if_neg (not_not.2 hcm), if_neg (not_not.2 hmod), if_pos hdict]
  all_goals
    have hnone : zlibHeaderError (s.input.byte 0) (s.input.byte 1) = none := by
      rw [zlibHeaderError_eq, if_neg (not_not.2 hcm), if_neg (not_not.2 hmod), if_neg (by omega)]
    have hafter := (hread h).trans (zlibAfterHeader_accepted hnone)
  · rw [hafter, if_pos hinfo]
  · rw [if_neg (Nat.not_lt.2 hinfo)] at hafter
    exact ⟨_, hafter, rfl, rfl, rfl, rfl, rfl, rfl, rfl, rfl, rfl⟩

/-! ### The trailer step -/

/-- The four bytes of the trailer from address `a` on (R194). -/
def trailerAt (m : Input) (a : Nat) : BitVec 32 :=
  trailerOf (m.byte a).toNat (m.byte (a + 1)).toNat (m.byte (a + 2)).toNat (m.byte (a + 3)).toNat

theorem trailerAt_toNat (m : Input) (a : Nat) :
    (trailerAt m a).toNat = (m.byte a).toNat * 2 ^ 24 + (m.byte (a + 1)).toNat * 2 ^ 16 +
      (m.byte (a + 2)).toNat * 2 ^ 8 + (m.byte (a + 3)).toNat := by
  have h₃ := (m.byte a).isLt
  have h₂ := (m.byte (a + 1)).isLt
  have h₁ := (m.byte (a + 2)).isLt
  have h₀ := (m.byte (a + 3)).isLt
  rw [trailerAt, trailerOf, BitVec.toNat_ofNat]
  omega

theorem zlibTrailer_read {s : State} {a : Nat} (hpc : s.pc.align = ⟨a, 0⟩) (h : a + 4 ≤ s.input.len) :
    zlibTrailer s = .next (zlibCheck (trailerAt s.input a) (s.setPc ⟨a + 4, 0⟩)) := by
  rw [zlibTrailer, skipToNextByte, hpc, bind_callReadByte_ok _ (by omega), bind_callReadByte_ok _ (by omega),
    bind_callReadByte_ok _ (by omega), bind_callReadByte_ok _ (by omega), Op.outcome_ok, trailerAt]

theorem zlibTrailer_exhausted {s : State} {a : Nat} (hs : s.status ≠ .error) (hpc : s.pc.align = ⟨a, 0⟩)
    (hle : a ≤ s.input.len) (h : s.input.len < a + 4) :
    zlibTrailer s = .next (failed (s.setPc ⟨s.input.len, 0⟩) .streamExhausted) := by
  rw [zlibTrailer, skipToNextByte, hpc, bind_callReadByte_exhausted hs hle, Op.outcome_raised]
  exact fun h₁ => bind_callReadByte_exhausted hs h₁ fun h₂ => bind_callReadByte_exhausted hs h₂ fun h₃ =>
    bind_callReadByte_exhausted hs h₃ fun h₄ => absurd h₄ (by omega)

theorem zlibCheck_of_eq {trailer : BitVec 32} {s : State} (h : adler32 s.output = trailer) :
    zlibCheck trailer s = s.setFrame .complete := if_pos h

theorem zlibCheck_of_ne {trailer : BitVec 32} {s : State} (hs : s.status ≠ .error) (h : adler32 s.output ≠ trailer) :
    zlibCheck trailer s = failed s .checksumMismatch :=
  (if_neg h).trans (raise_eq_failed hs _)

/-- Settles O59: the four bytes follow the aligned cursor (`Cursor.align_eq`), and the check compares them with the
checksum as numbers. -/
theorem zlibTrailerStep : Obligations.ZlibTrailerStep := by
  intro s hphase hstatus hframe hbounds a trailer
  have hs : s.status ≠ .error := by simp [hstatus]
  have hstep : step s = zlibTrailer s := by rw [step_finished hphase, finishedStep, hframe]
  have hpc : s.pc.align = ⟨a, 0⟩ := s.pc.align_eq
  have htrailer : (trailerAt s.input a).toNat = trailer := trailerAt_toNat s.input a
  refine ⟨fun h heq => ?_, fun h hne => ?_, fun h => ?_⟩
  · rw [hstep, zlibTrailer_read hpc h]
    exact congrArg _ (zlibCheck_of_eq (s := s.setPc _) (BitVec.eq_of_toNat_eq (heq.trans htrailer.symm)))
  · rw [hstep, zlibTrailer_read hpc h]
    exact congrArg _ (zlibCheck_of_ne (s := s.setPc _) hs fun heq => hne ((congrArg _ heq).trans htrailer))
  · have hle : a ≤ s.input.len := by
      have := s.cursorInBounds_iff.1 hbounds
      have hidx : s.pc.align.index = 8 * a := by rw [hpc, Cursor.index_of_aligned rfl]
      rw [Cursor.index_align] at hidx
      omega
    exact hstep.trans (zlibTrailer_exhausted hs hpc hle h)

end Sys2Proof.Machine
end

section
/-! PROOFS. Adler-32 in closed form (46_zlib_frame.md R196): each byte counts once in the low sum, and in the high sum
once for every byte from it to the end. -/

namespace Sys2Proof.Machine

/-- The sum of the bytes, each times the number of bytes from it to the end. -/
def weightedSum (bs : List Byte) : Nat :=
  ((List.range bs.length).map fun k => (bs.length - k) * (bs.getD k 0).toNat).sum

theorem weightedSum_cons (x : Byte) (xs : List Byte) :
    weightedSum (x :: xs) = (xs.length + 1) * x.toNat + weightedSum xs := by
  simp [weightedSum, List.range_succ_eq_map, Function.comp_def]

/-- R196: the running sums after the bytes, from any two reduced sums. -/
theorem foldl_adlerStep (bs : List Byte) {a b : Nat} (ha : a < 65521) (hb : b < 65521) :
    bs.foldl adlerStep (a, b) =
      ((a + (bs.map (·.toNat)).sum) % 65521, (b + bs.length * a + weightedSum bs) % 65521) := by
  induction bs generalizing a b with
  | nil => simp [weightedSum, Nat.mod_eq_of_lt ha, Nat.mod_eq_of_lt hb]
  | cons x xs ih =>
    have hlow : (a + x.toNat) % 65521 ≡ a + x.toNat [MOD 65521] := Nat.mod_modEq _ _
    have hhigh : (b + (a + x.toNat) % 65521) % 65521 ≡ b + (a + x.toNat) [MOD 65521] :=
      (Nat.mod_modEq _ _).trans (hlow.add_left b)
    rw [List.foldl_cons, adlerStep, ih (Nat.mod_lt _ (by decide)) (Nat.mod_lt _ (by decide)), weightedSum_cons,
      List.map_cons, List.sum_cons, List.length_cons]
    refine Prod.ext ?_ ?_
    · exact (hlow.add_right _).trans (congrArg (· % 65521) (by ring))
    · exact ((hhigh.add (hlow.mul_left _)).add_right _).trans (congrArg (· % 65521) (by ring))

/-- Settles O60: the running sums (`foldl_adlerStep`) from `(1, 0)`, which together fit in 32 bits. -/
theorem adlerClosedForm : Obligations.AdlerClosedForm := by
  intro bs
  have hlow := Nat.mod_lt (1 + (bs.map (·.toNat)).sum) (show 65521 > 0 by decide)
  have hhigh := Nat.mod_lt (bs.length + weightedSum bs) (show 65521 > 0 by decide)
  rw [adler32, foldl_adlerStep bs (by decide) (by decide), Nat.zero_add, Nat.mul_one, BitVec.toNat_ofNat,
    Nat.mod_eq_of_lt (by omega)]
  rfl

end Sys2Proof.Machine
end

section
/-! PROOFS. Exceptions and reset (60_exceptions.md R202, R210, R211; 70_reset_and_hazards.md R230, R231, R234): `raise`
takes effect once, the state at reset begins like a run, the host's commands between runs, and a full sink. -/

namespace Sys2Proof.Machine

open Claims

/-! ### `raise` -/

/-- Settles O54: outside `Error` `raise` is its three writes, in `Error` it does nothing, and it ends in `Error`. -/
theorem raiseFreezes : Obligations.RaiseFreezes := by
  refine ⟨fun k s => ⟨fun hs => ?_, fun hs => raise_of_error hs k⟩, fun _ _ _ => rfl, fun k l s => ?_⟩
  · rw [raise_of_running hs]
    exact ⟨rfl, rfl⟩
  · exact raise_of_error (raise_status k s) l

/-! ### The state at reset -/

/-- R231: every register at reset has the value with which a run begins, but for those a command writes. -/
theorem begins_reset : Begins State.reset State.reset where
  data := rfl
  phase := .inr rfl
  status := rfl
  cursor := ⟨le_rfl, fun hb => absurd rfl hb⟩
  params hp _ := hp
  inbox _ hc := hc

theorem Begins.windowHoldsHistory {s t : State} (h : Begins s t) : t.WindowHoldsHistory := by
  rw [h.data]
  exact fun _ => ⟨rfl, fun d h₁ h₀ => absurd (h₁.trans h₀) (Nat.not_succ_le_zero 0)⟩

theorem reset_inv : State.reset.Inv where
  params := ⟨rfl, by decide, by decide⟩
  inbox _ hc := absurd hc List.not_mem_nil
  cursor := begins_reset.cursor
  sink := begins_reset.sinkInOrder
  window := begins_reset.windowInBounds
  history := begins_reset.windowHoldsHistory
  status := begins_reset.statusAgrees
  arrays := begins_reset.arranged.arrays
  block := begins_reset.arranged.block

/-- Settles O43: `reset_inv`, and the three registers R231 gives. -/
theorem resetMeetsInv : Obligations.ResetMeetsInv := ⟨reset_inv, rfl, rfl, rfl⟩

/-! ### The host's commands -/

/-- R211, R234: in `Idle`, `Finished` and `Error`, with none of the wrapper's own reads to come, a step is the host's. -/
theorem step_awaits {s : State}
    (h : s.phase = .idle ∧ s.frame ≠ .header ∨ s.phase = .finished ∧ s.frame ≠ .trailer ∨ s.phase = .error) :
    step s = awaitHost s := by
  rcases h with ⟨hp, hf⟩ | ⟨hp, hf⟩ | hp
  · rw [step_idle hp, idleStep]
    cases hframe : s.frame with
    | header => exact absurd hframe hf
    | raw | body | trailer | complete => rfl
  · rw [step_finished hp, finishedStep]
    cases hframe : s.frame with
    | trailer => exact absurd hframe hf
    | raw | header | body | complete => rfl
  · exact step_error hp

/-- R230: between runs Start with parameters in their ranges begins the run. -/
theorem start_accepted {p : Params} {s : State} (hs : s.status ≠ .running) (h₈ : 8 ≤ p.wbits) (h₁₅ : p.wbits ≤ 15)
    (hstart : p.startByte ≤ p.input.len) : start p s = .next (startState p s.inbox) := by
  rw [start, if_neg hs, if_neg (by omega), if_neg (by omega)]

/-- Settles O56: between runs the step takes the oldest command (`step_awaits`), which is refused only by a running
machine. -/
theorem startState_spec : Obligations.StartState := by
  refine ⟨fun s p rest hi h₈ h₁₅ hstart => ⟨fun hs hp => ⟨startState p rest, ?_, ?_⟩, fun hrun => if_pos hrun⟩,
    fun s m cap tr rest hi => ⟨fun hs hp => ⟨zlibState m cap tr rest, ?_, ?_⟩, fun hrun => if_pos hrun⟩,
    fun s hp hi => ?_⟩
  · rw [step_awaits hp, awaitHost, hi]
    exact start_accepted (s := s.setInbox rest) hs h₈ h₁₅ hstart
  · exact ⟨rfl, rfl, rfl, rfl, rfl, rfl, rfl, rfl, rfl⟩
  · rw [step_awaits hp, awaitHost, hi]
    exact if_neg hs
  · exact ⟨rfl, rfl, rfl, rfl, rfl, rfl, rfl, rfl⟩
  · rw [step_awaits hp, awaitHost, hi]

/-! ### A full sink -/

/-- R126, R202: a literal that finds the sink full has been put into the window. -/
theorem outcome_append_full {s : State} {cap : Nat} (hs : s.status ≠ .error) (hcap : s.params.outCap = some cap)
    (hfull : cap ≤ s.outPos) (b : Byte) :
    (append b s).outcome = .next (failed (s.pushWin b) .bufferFull) := by
  rw [append_of_full hcap hfull, Op.outcome_raised, raise_eq_failed (by exact hs)]

/-- R127, R202: `copy_back` with `r` bytes of room, fewer than it is to copy: they are copied, the window takes one byte
more, and `BufferFull` is raised. -/
theorem copyBack_full {s : State} {l d cap r : Nat} (hc : s.cursor < s.capacity) (h₁ : 1 ≤ d) (he : d ≤ s.emitted)
    (hd : d ≤ s.capacity) (hs : s.status ≠ .error) (hcap : s.params.outCap = some cap) (hroom : cap = s.outPos + r)
    (hr : r < l) : ∃ t b, copyBack l d s = .raised (failed (t.pushWin b) .bufferFull) ∧
      Appended s t r (copySource s d) := by
  rw [copyBack, if_neg (by omega)]
  obtain ⟨t, -, b, hcopy, happ, hsame, -⟩ := copyLoop_full h₁ r l
    ((s.setSrc ((s.cursor + s.capacity - d) % s.capacity)).setRemaining l) hc hd rfl hcap hroom hr
  have ht : t.status ≠ .error := by rw [hsame.status]; exact hs
  exact ⟨t, b, by rw [hcopy, raise_eq_failed (by exact ht)], happ.of_eq rfl rfl rfl rfl rfl rfl⟩

/-- Settles O38: `outcome_append_full`, and `copyBack_full` in the state in which `distance` has been written. -/
theorem sinkFullStops : Obligations.SinkFullStops := by
  intro s cap hs hcap
  refine ⟨fun hfull b => ?_, fun i d w y hi hrow hc he hd hle hcut => ?_⟩
  · have hexec := outcome_append_full hs hcap hfull b
    exact ⟨_, hexec, hexec, rfl, Memory.read_write_same _ _ _, fun a ha => Memory.read_write_other _ _ ha⟩
  · obtain ⟨r, rfl⟩ := Nat.exists_eq_add_of_le hle
    have h₁ : 1 ≤ dbase d + y := Nat.le_add_right_of_le (one_le_dbase d hrow)
    obtain ⟨t, b, hcopy, happ⟩ := copyBack_full (s := s.setDistance (dbase d + y)) (l := s.length) (r := r)
      hc h₁ he hd hs hcap rfl (by omega)
    refine ⟨failed (t.pushWin b) .bufferFull, ?_, rfl, rfl, happ.outPos, ?_, ?_, fun a ha => ?_⟩
    · rw [exec_eq_execForm, hi, execForm, if_pos hrow]
      exact congrArg (fun o => (o.bind fun _ u => .ok () (u.setPos .symbol)).outcome) hcopy
    · rw [Nat.add_sub_cancel_left]
      exact congrArg (· + 1) happ.emitted
    · rw [Nat.add_sub_cancel_left]
      exact happ.outNew
    · exact happ.outOld a fun k hk => by show a ≠ s.outPos + k; omega

end Sys2Proof.Machine
end

section
/-! PROOFS. The error kinds of the CORE (60_exceptions.md R200 to R208): `MayRaise` says which kinds a step can raise in
each phase; the reads of an element raise no other, and neither do the instructions of its place. -/

namespace Sys2Proof

/-! ### What the reads raise -/

/-- The read raises only kinds of `K`. -/
def Read.RaisesOnly {α : Type} (K : ErrorKind → Prop) (r : Read α) : Prop := ∀ k c, r = .raises k c → K k

theorem Read.RaisesOnly.ok {α : Type} (K : ErrorKind → Prop) (v : α) (c : Cursor) : (Read.ok v c).RaisesOnly K :=
  fun _ _ h => by cases h

theorem Read.RaisesOnly.raises {α : Type} {K : ErrorKind → Prop} {k : ErrorKind} (hk : K k) (c : Cursor) :
    (Read.raises k c : Read α).RaisesOnly K :=
  fun _ _ h => by cases h; exact hk

theorem Read.RaisesOnly.bind {α β : Type} {K : ErrorKind → Prop} {r : Read α} {f : α → Cursor → Read β}
    (hr : r.RaisesOnly K) (hf : ∀ v c, (f v c).RaisesOnly K) : (r.bind f).RaisesOnly K := by
  cases r with
  | ok v c => exact hf v c
  | raises k c => exact .raises (hr k c rfl) c

section
variable {K : ErrorKind → Prop} (hK : K .streamExhausted) (m : Input)
include hK

/-- R201: reading bits can only run out of input. -/
theorem readBitsLsb_raisesOnly : ∀ (n : Nat) (c : Cursor), (readBitsLsb m n c).RaisesOnly K
  | 0, c => .ok K 0 c
  | n + 1, c => by
    have hbit : (readBitLsb m c).RaisesOnly K := by
      rw [readBitLsb]
      split
      · exact .raises hK c
      · exact .ok K _ _
    exact hbit.bind fun _ _ => (readBitsLsb_raisesOnly n _).bind fun _ _ => .ok K _ _

theorem readBitsMsb_raisesOnly (n : Nat) (c : Cursor) : (readBitsMsb m n c).RaisesOnly K := by
  rw [readBitsMsb_eq]
  exact (readBitsLsb_raisesOnly hK m n c).bind fun _ _ => .ok K _ _

theorem readBytes_raisesOnly (n : Nat) (c : Cursor) : (readBytes m n c).RaisesOnly K := by
  rw [readBytes]
  split
  · exact .raises hK c
  · exact .ok K _ _

theorem decode_header_raisesOnly (c : Cursor) : (decode m .header c).RaisesOnly K :=
  (readBitsLsb_raisesOnly hK m 1 c).bind fun _ d => (readBitsLsb_raisesOnly hK m 2 d).bind fun _ _ => .ok K _ _

theorem decode_stored_raisesOnly (c : Cursor) : (decode m .stored c).RaisesOnly K :=
  (readBytes_raisesOnly hK m 2 c.align).bind fun _ d => (readBytes_raisesOnly hK m 2 d).bind fun _ _ => .ok K _ _

variable (hS : K .invalidSymbol)
include hS

/-- R168, R205: after a literal/length symbol the input can end, or the symbol is none of the alphabet. -/
theorem symbolRest_raisesOnly (sym : Nat) (c : Cursor) : (symbolRest m sym c).RaisesOnly K := by
  rw [symbolRest]
  split
  · exact .ok K _ _
  split
  · exact .ok K _ _
  split
  · exact .ok K _ _
  split
  · exact (readBitsLsb_raisesOnly hK m _ c).bind fun _ _ => .ok K _ _
  split
  · exact .ok K _ _
  · exact .raises hS c

/-- R169, R205: the same after a distance symbol. -/
theorem distanceRest_raisesOnly (sym : Nat) (c : Cursor) : (distanceRest m sym c).RaisesOnly K := by
  rw [distanceRest]
  split
  · exact (readBitsLsb_raisesOnly hK m _ c).bind fun _ _ => .ok K _ _
  split
  · exact .ok K _ _
  · exact .raises hS c

/-- R71, R207: in a fixed block no walk meets a missing child. -/
theorem decode_fixedSymbol_raisesOnly (c : Cursor) : (decode m (.symbol fixedLlTree) c).RaisesOnly K := by
  obtain ⟨-, -, -, -, -, hcomplete⟩ := fixedLiteralLengthCode
  have hwalk : (fixedLlTree.walk m c).RaisesOnly K := fun k d h => by rw [hcomplete m c d k h]; exact hK
  exact hwalk.bind fun sym d => symbolRest_raisesOnly hK m hS sym d

theorem decode_distFixed_raisesOnly (c : Cursor) : (decode m .distFixed c).RaisesOnly K :=
  (readBitsMsb_raisesOnly hK m 5 c).bind fun sym d => distanceRest_raisesOnly hK m hS sym d

end

end Sys2Proof

namespace Sys2Proof.Machine

/-! ### The kinds of a phase -/

/-- The kinds that a step of a run in phase `p` can raise, with the sink's capacity (R201 to R208). -/
def MayRaise (p : Phase) (cap : Option Nat) : ErrorKind → Prop
  | .streamExhausted => True
  | .bufferFull => cap ≠ none
  | .invalidBlockType => p = .readHeader
  | .lengthMismatch => p = .stored
  | .invalidSymbol | .invalidDistance => p = .fixedHuffman ∨ p = .dynamicHuffman
  | .malformedTree => p = .dynamicHuffman
  | .unsupportedCompressionMethod | .headerChecksumInvalid | .presetDictionaryUnsupported | .checksumMismatch => False

/-- R207, R139: reading an element raises only the kinds of its phase. -/
theorem decode_raises_mayRaise {s : State} {k : ErrorKind} {c : Cursor} (hp : s.phase.Reads = true)
    (h : decode s.input s.ctx s.pc = .raises k c) (cap : Option Nat) : MayRaise s.phase cap k := by
  rw [State.ctx] at h
  cases hph : s.phase with rw [hph] at h
  | idle | done | finished | error => rw [hph] at hp; cases hp
  | readHeader => exact decode_header_raisesOnly trivial _ _ k c h
  | stored => exact decode_stored_raisesOnly trivial _ _ k c h
  | fixedHuffman =>
    cases hq : s.pos with rw [hq] at h
    | distance => exact decode_distFixed_raisesOnly trivial _ (.inl rfl) _ k c h
    | hlit | hdist | hclen | cllen | codeLength | symbol =>
      exact decode_fixedSymbol_raisesOnly trivial _ (.inl rfl) _ k c h
  | dynamicHuffman =>
    rcases decode_raises h with rfl | rfl | rfl
    · trivial
    · rfl
    · exact .inr rfl

/-! ### The operations -/

/-- The machine runs, with a sink of capacity `cap`. -/
def RunsWith (cap : Option Nat) (s : State) : Prop := s.status = .running ∧ s.params.outCap = cap

/-- An error has been recorded, of a kind of phase `p`. -/
def RaisedIn (p : Phase) (cap : Option Nat) (s : State) : Prop := ∃ k, s.errorKind = some k ∧ MayRaise p cap k

/-- The machine still runs, or has raised an error of a kind of phase `p`. -/
def RunsOrRaised (p : Phase) (cap : Option Nat) (s : State) : Prop := s.status = .running ∨ RaisedIn p cap s

/-- The step ends in a state that still runs or has raised an error of a kind of phase `p`. -/
def EndsIn (p : Phase) (cap : Option Nat) (o : Host.Outcome State Fault Refusal) : Prop :=
  ∃ t, o = .next t ∧ RunsOrRaised p cap t

section
variable {p : Phase} {cap : Option Nat} {s : State}

theorem RaisedIn.raise {k : ErrorKind} (hs : s.status = .running) (hk : MayRaise p cap k) :
    RaisedIn p cap (raise k s) := by
  rw [raise_of_running (by rw [hs]; decide)]
  exact ⟨k, rfl, hk⟩

theorem EndsIn.raise {k : ErrorKind} (hs : s.status = .running) (hk : MayRaise p cap k) :
    EndsIn p cap (.next (raise k s)) :=
  ⟨_, rfl, .inr (.raise hs hk)⟩

/-- R202: only a finite sink can be full. -/
theorem RunsWith.mayRaise_bufferFull (hs : RunsWith cap s) (hfull : s.sinkFull = true) : MayRaise p cap .bufferFull := by
  obtain ⟨-, hcap⟩ := hs
  obtain ⟨n, hn, -⟩ := s.sinkFull_eq.1 hfull
  exact fun hnone => Option.some_ne_none n (hn.symm.trans (hcap.trans hnone))

theorem append_raisedIn (b : Byte) (hs : RunsWith cap s) : (append b s).Ensures (RunsWith cap) (RaisedIn p cap) := by
  rw [append_eq]
  split
  · next hfull => exact .raise (s := s.pushWin b) hs.1 (hs.mayRaise_bufferFull hfull)
  · exact hs

theorem copyStored_raisedIn : ∀ (n : Nat) {s : State}, s.pc.bit = 0 → RunsWith cap s →
    (copyStored n s).Ensures (RunsWith cap) (RaisedIn p cap)
  | 0, _, _, hs => hs
  | n + 1, s, ha, hs => by
    by_cases hl : s.pc.byte < s.input.len
    · cases hfull : s.sinkFull with
      | false =>
        rw [copyStored_succ ha hl hfull]
        exact copyStored_raisedIn n (s := s.storedTurn n) ha hs
      | true =>
        rw [copyStored, callReadByte_ok ha hl, Op.bind_ok, append_eq, if_pos (by exact hfull)]
        exact .raise (s := (s.setPc ⟨s.pc.byte + 1, s.pc.bit⟩).pushWin _) hs.1 (hs.mayRaise_bufferFull hfull)
    · rw [copyStored, callReadByte_raises ha (Nat.le_of_not_lt hl)]
      exact .raise hs.1 trivial

/-- A copy, then an update of the phase or the position. -/
theorem Op.Ensures.endsIn {o : Op Unit} {f : State → State} (h : o.Ensures (RunsWith cap) (RaisedIn p cap))
    (hf : ∀ t, (f t).status = t.status) : EndsIn p cap (o.bind fun _ t => .ok () (f t)).outcome :=
  (h.bind (Q := fun t => t.status = .running) (f := fun _ t => .ok () (f t)) fun _ t ht => (hf t).trans ht.1).outcome

/-! ### The instructions -/

theorem blockHeader_endsIn (hs : s.status = .running) (hp : p = .readHeader) (final : Bool) :
    ∀ t, EndsIn p cap (execForm (.blockHeader final t) s)
  | 0 | 1 | 2 => ⟨_, rfl, .inl hs⟩
  | _ + 3 => .raise (s := s.setHeader final 3) hs hp

theorem execLen_endsIn (hs : RunsWith cap s) (hp : p = .stored) (ha : s.pc.bit = 0) (l n : Half) :
    EndsIn p cap (execLen l n s) := by
  rw [execLen]
  split
  · exact (copyStored_raisedIn l.toNat (s := s.setRemaining l.toNat) ha hs).endsIn fun _ => rfl
  · exact .raise hs.1 hp

section
variable (hp : p = .fixedHuffman ∨ p = .dynamicHuffman)
include hp

theorem literalLength_endsIn (hs : RunsWith cap s) (sym w x : Nat) :
    EndsIn p cap (execForm (.coded .literalLength sym w x) s) := by
  rw [execForm]
  split
  · obtain ⟨t, ht, h⟩ := (append_raisedIn (.ofNat 8 sym) hs).outcome
    exact ⟨t, ht, h.imp_left And.left⟩
  split
  · exact ⟨_, rfl, .inl hs.1⟩
  split
  · exact ⟨_, rfl, .inl hs.1⟩
  · exact .raise hs.1 hp

theorem distance_endsIn (hs : RunsWith cap s) (sym w y : Nat) :
    EndsIn p cap (execForm (.coded .distance sym w y) s) := by
  rw [execForm]
  split
  · exact (copyBack_ensures (fun b _ => append_raisedIn b) (fun _ _ _ h => h) (fun _ h => .raise h.1 hp) _ _
      (s.setDistance (matchDistanceOf sym y)) hs).endsIn fun _ => rfl
  · exact .raise hs.1 hp

end

section
variable (hp : p = .dynamicHuffman)
include hp

theorem buildClTree_runsOrRaised (hs : s.status = .running) : RunsOrRaised p cap (buildClTree s) := by
  rw [buildClTree]
  split
  · exact .inl hs
  · exact .inr (.raise (s := s.setClTree _) hs hp)

theorem endLens_runsOrRaised (hs : s.status = .running) : RunsOrRaised p cap (endLens s) := by
  rw [endLens, buildBlockTrees]
  split
  · exact .inl hs
  dsimp only
  split
  · split
    · exact .inl hs
    · exact .inr (.raise (s := (s.setLlTree _).setDTree _) hs hp)
  · exact .inr (.raise (s := s.setLlTree _) hs hp)

theorem runLens_runsOrRaised (hs : s.status = .running) (n v : Nat) : RunsOrRaised p cap (runLens n v s) := by
  rw [runLens]
  split
  · exact .inr (.raise hs hp)
  · exact endLens_runsOrRaised hp ((fillLens_sameData v n s).status.trans hs)

theorem field_endsIn (hs : s.status = .running) (w v : Nat) : ∀ f, EndsIn p cap (execForm (.field f w v) s)
  | .hlit | .hdist | .hclen => ⟨_, rfl, .inl hs⟩
  | .cllen => by
    refine ⟨_, rfl, ?_⟩
    split
    · exact .inl hs
    · exact buildClTree_runsOrRaised hp (s := s.putClLen _) hs

theorem codeLength_endsIn (hs : s.status = .running) (sym w x : Nat) :
    EndsIn p cap (execForm (.coded .codeLength sym w x) s) := by
  rw [execForm]
  split
  · exact ⟨_, rfl, endLens_runsOrRaised hp ((fillLens_sameData _ 1 s).status.trans hs)⟩
  split
  · refine ⟨_, rfl, ?_⟩
    split
    · exact .inr (.raise hs hp)
    · exact runLens_runsOrRaised hp hs _ _
  split
  · exact ⟨_, rfl, runLens_runsOrRaised hp hs _ _⟩
  · exact ⟨_, rfl, runLens_runsOrRaised hp hs _ _⟩

end

/-! ### A step -/

/-- R201 to R207: an instruction of a place raises only the kinds of the phase. -/
theorem exec_endsIn {i : Instr} (hs : RunsWith cap s) (hreads : s.phase.Reads = true)
    (ha : s.phase = .stored → s.pc.bit = 0) (hadm : s.ctx.Admits i.form) : EndsIn s.phase cap (exec i s) := by
  rw [exec_eq_execForm]
  rw [State.ctx] at hadm
  cases hp : s.phase with rw [hp] at hadm
  | idle | done | finished | error => rw [hp] at hreads; cases hreads
  | readHeader =>
    obtain ⟨final, t, hf, -⟩ := hadm
    rw [hf]
    exact blockHeader_endsIn hs.1 rfl final t
  | stored =>
    obtain ⟨l, n, hf⟩ := hadm
    rw [hf]
    exact execLen_endsIn hs rfl (ha hp) _ _
  | fixedHuffman =>
    cases hq : s.pos with rw [hq] at hadm
    | distance =>
      obtain ⟨sym, w, y, hf, -⟩ := hadm
      rw [hf]
      exact distance_endsIn (.inl rfl) hs sym w y
    | hlit | hdist | hclen | cllen | codeLength | symbol =>
      obtain ⟨sym, w, x, hf, -⟩ := hadm
      rw [hf]
      exact literalLength_endsIn (.inl rfl) hs sym w x
  | dynamicHuffman =>
    cases hq : s.pos with rw [hq] at hadm
    | hlit | hdist | hclen | cllen =>
      obtain ⟨v, hf, -⟩ := hadm
      rw [hf]
      exact field_endsIn rfl hs.1 _ v _
    | codeLength =>
      obtain ⟨sym, w, x, hf, -⟩ := hadm
      rw [hf]
      exact codeLength_endsIn rfl hs.1 sym w x
    | symbol =>
      obtain ⟨sym, w, x, hf, -⟩ := hadm
      rw [hf]
      exact literalLength_endsIn (.inr rfl) hs sym w x
    | distance =>
      obtain ⟨sym, w, y, hf, -⟩ := hadm
      rw [hf]
      exact distance_endsIn (.inr rfl) hs sym w y

theorem runElement_endsIn (hs : RunsWith cap s) (hreads : s.phase.Reads = true) :
    EndsIn s.phase cap (runElement s) := by
  cases hd : decode s.input s.ctx s.pc with
  | ok i c =>
    rw [runElement_ok hd]
    refine exec_endsIn (s := s.setPc c) hs hreads (fun hp => ?_) (decode_admits hd)
    have hctx : s.ctx = .stored := by rw [State.ctx, show s.phase = .stored from hp]
    rw [hctx] at hd
    exact decode_stored_aligned hd
  | raises k c =>
    obtain ⟨f, hf⟩ := latchCutHeader_writes s
    rw [runElement_raises hd, hf]
    exact .raise (s := (s.setBfinal f).setPc c) hs.1 (decode_raises_mayRaise hreads hd cap)

theorem endBlock_not_error {t : State} (hs : s.status = .running) (h : endBlock s = .next t) :
    t.status ≠ .error := by
  rcases endBlock_cases h with ⟨-, rfl⟩ | ⟨-, rfl⟩
  · exact nofun
  · rw [State.setPhase_status, hs]
    exact nofun

/-- R200 to R208: an error of a run is of a kind of the phase in which it is raised. -/
theorem step_raisedIn {t : State} (hs : s.StatusAgrees) (hrun : s.status = .running) (h : step s = .next t)
    (herr : t.status = .error) : RaisedIn s.phase s.params.outCap t := by
  rcases Phase.reads_or_done (hs.1.symm.trans hrun) with hp | hp
  · obtain ⟨u, hu, hend⟩ := runElement_endsIn (s := s) ⟨hrun, rfl⟩ hp
    obtain rfl : u = t := Host.Outcome.next.inj (hu.symm.trans ((step_reads hp).symm.trans h))
    exact hend.resolve_left (by rw [herr]; exact nofun)
  · exact absurd herr (endBlock_not_error hrun ((step_done hp).symm.trans h))

/-- R200: these are the codes 1 to 7. -/
theorem MayRaise.errorCode_le {k : ErrorKind} (h : MayRaise p cap k) : (errorCode k).toNat ≤ 7 := by
  cases k with
  | streamExhausted | bufferFull | invalidBlockType | lengthMismatch | invalidSymbol | invalidDistance | malformedTree =>
    decide
  | unsupportedCompressionMethod | headerChecksumInvalid | presetDictionaryUnsupported | checksumMismatch => exact h.elim

end

/-- Settles O53: `step_raisedIn`, with `MayRaise` read off at each kind. -/
theorem coreErrorKinds : Obligations.CoreErrorKinds := by
  intro s t hs hrun h herr
  obtain ⟨k, hk, hmay⟩ := step_raisedIn hs hrun h herr
  have at_kind {l : ErrorKind} (hl : k = l) : MayRaise s.phase s.params.outCap l := hl ▸ hmay
  exact ⟨k, hk, hmay.errorCode_le, at_kind, at_kind, at_kind, fun h => h.elim at_kind at_kind, at_kind⟩

end Sys2Proof.Machine
end

section
/-! PROOFS. The trace switch (60_exceptions.md R224): every operation commutes with setting it, since none reads it. -/

namespace Sys2Proof.Machine

open Claims

/-- What an operation ends in, with the trace switch of its state set. -/
def Op.withTrace {α : Type} (b : Bool) : Op α → Op α
  | .ok v s => .ok v (Claims.withTrace b s)
  | .raised s => .raised (Claims.withTrace b s)
  | .refused r => .refused r

theorem Op.outcome_withTrace (b : Bool) (o : Op Unit) : (o.withTrace b).outcome = outcomeWithTrace b o.outcome := by
  cases o with
  | ok | raised | refused => rfl

/-- Two operations in a row commute with the switch if each does. -/
theorem Op.bind_withTrace {α β : Type} {b : Bool} {o o' : Op α} {f : α → State → Op β} (h : o' = o.withTrace b)
    (hf : ∀ v s, f v (Claims.withTrace b s) = (f v s).withTrace b) : o'.bind f = (o.bind f).withTrace b := by
  rw [h]
  cases o with
  | ok v s => exact hf v s
  | raised | refused => rfl

/-- Two branches under one test commute with `f` if each does. -/
theorem ite_eq_apply {α β : Type} {f : α → β} {p : Prop} [Decidable p] {x y : α} {x' y' : β} (hx : x' = f x)
    (hy : y' = f y) : (if p then x' else y') = f (if p then x else y) := by
  rw [hx, hy, apply_ite f]

section
variable (b : Bool)

/-! ### The operations -/

theorem raise_withTrace (k : ErrorKind) (s : State) : raise k (withTrace b s) = withTrace b (raise k s) :=
  ite_eq_apply (p := s.status = .error) rfl rfl

theorem append_withTrace (x : Byte) (s : State) : append x (withTrace b s) = (append x s).withTrace b := by
  rw [append_eq, append_eq]
  exact ite_eq_apply (p := s.sinkFull = true) (congrArg Op.raised (raise_withTrace b _ (s.pushWin x))) rfl

theorem liftRead_withTrace {α : Type} (s : State) (r : Read α) :
    liftRead (withTrace b s) r = (liftRead s r).withTrace b := by
  cases r with
  | ok v c => rfl
  | raises k c => exact congrArg Op.raised (raise_withTrace b k (s.setPc c))

theorem callReadBytes_withTrace (n : Nat) (s : State) :
    callReadBytes n (withTrace b s) = (callReadBytes n s).withTrace b := by
  rw [callReadBytes, callReadBytes]
  exact ite_eq_apply (p := s.pc.bit ≠ 0) rfl (ite_eq_apply rfl (liftRead_withTrace b s _))

theorem copyLoop_withTrace : ∀ (n : Nat) (s : State), copyLoop n (withTrace b s) = (copyLoop n s).withTrace b
  | 0, _ => rfl
  | n + 1, s => Op.bind_withTrace (append_withTrace b (s.winByte s.src) s) fun _ u =>
      copyLoop_withTrace n ((u.setSrc ((u.src + 1) % u.capacity)).setRemaining n)

theorem copyBack_withTrace (l d : Nat) (s : State) : copyBack l d (withTrace b s) = (copyBack l d s).withTrace b := by
  rw [copyBack, copyBack]
  exact ite_eq_apply (p := d = 0 ∨ s.emitted < d ∨ s.capacity < d) (congrArg Op.raised (raise_withTrace b _ s))
    (copyLoop_withTrace b l ((s.setSrc ((s.cursor + s.capacity - d) % s.capacity)).setRemaining l))

theorem copyStored_withTrace : ∀ (n : Nat) (s : State), copyStored n (withTrace b s) = (copyStored n s).withTrace b
  | 0, _ => rfl
  | n + 1, s => Op.bind_withTrace (callReadBytes_withTrace b 1 s) fun v u =>
      Op.bind_withTrace (append_withTrace b (.ofNat 8 v) u) fun _ w => copyStored_withTrace n (w.setRemaining n)

theorem fillLens_withTrace (v : Nat) : ∀ (n : Nat) (s : State),
    fillLens n v (withTrace b s) = withTrace b (fillLens n v s)
  | 0, _ => rfl
  | n + 1, s => fillLens_withTrace v n (s.putLen v)

theorem buildClTree_withTrace (s : State) : buildClTree (withTrace b s) = withTrace b (buildClTree s) := by
  rw [buildClTree, buildClTree]
  exact ite_eq_apply rfl (raise_withTrace b _ (s.setClTree _))

theorem buildBlockTrees_withTrace (s : State) : buildBlockTrees (withTrace b s) = withTrace b (buildBlockTrees s) := by
  rw [buildBlockTrees, buildBlockTrees]
  exact ite_eq_apply (ite_eq_apply rfl (raise_withTrace b _ ((s.setLlTree _).setDTree _)))
    (raise_withTrace b _ (s.setLlTree _))

theorem endLens_withTrace (s : State) : endLens (withTrace b s) = withTrace b (endLens s) := by
  rw [endLens, endLens]
  exact ite_eq_apply (p := s.i < s.total) rfl (buildBlockTrees_withTrace b s)

theorem runLens_withTrace (n v : Nat) (s : State) : runLens n v (withTrace b s) = withTrace b (runLens n v s) := by
  rw [runLens, runLens, fillLens_withTrace]
  exact ite_eq_apply (p := s.total < s.i + n) (raise_withTrace b _ s) (endLens_withTrace b _)

/-! ### The instructions -/

/-- A step that answers the raised error. -/
theorem next_raise_withTrace (k : ErrorKind) (s : State) : Host.Outcome.next (raise k (withTrace b s)) =
    outcomeWithTrace b (.next (raise k s)) :=
  congrArg _ (raise_withTrace b k s)

theorem execLen_withTrace (l n : Half) (s : State) :
    execLen l n (withTrace b s) = outcomeWithTrace b (execLen l n s) := by
  have hcopy := Op.bind_withTrace (f := fun _ u => .ok () (u.setPhase .done))
    (copyStored_withTrace b l.toNat (s.setRemaining l.toNat)) fun _ _ => rfl
  rw [execLen, execLen]
  exact ite_eq_apply ((congrArg Op.outcome hcopy).trans (Op.outcome_withTrace b _)) (next_raise_withTrace b _ s)

theorem matchDistance_withTrace (d y : Nat) (s : State) :
    matchDistance d y (withTrace b s) = outcomeWithTrace b (matchDistance d y s) := by
  have hcopy := Op.bind_withTrace (f := fun _ u => .ok () (u.setPos .symbol))
    (copyBack_withTrace b s.length (matchDistanceOf d y) (s.setDistance (matchDistanceOf d y))) fun _ _ => rfl
  exact (congrArg Op.outcome hcopy).trans (Op.outcome_withTrace b _)

theorem blockHeader_withTrace (final : Bool) (s : State) : ∀ t, execForm (.blockHeader final t) (withTrace b s) =
    outcomeWithTrace b (execForm (.blockHeader final t) s)
  | 0 | 1 | 2 => rfl
  | _ + 3 => next_raise_withTrace b _ (s.setHeader final 3)

theorem field_withTrace (w v : Nat) (s : State) : ∀ f, execForm (.field f w v) (withTrace b s) =
    outcomeWithTrace b (execForm (.field f w v) s)
  | .hlit | .hdist | .hclen => rfl
  | .cllen => congrArg Host.Outcome.next
      (ite_eq_apply (p := s.i + 1 < s.hclen) rfl (buildClTree_withTrace b (s.putClLen _)))

theorem codeLength_withTrace (sym w x : Nat) (s : State) : execForm (.coded .codeLength sym w x) (withTrace b s) =
    outcomeWithTrace b (execForm (.coded .codeLength sym w x) s) := by
  rw [execForm, execForm]
  split
  · exact congrArg _ ((congrArg endLens (fillLens_withTrace b _ 1 s)).trans (endLens_withTrace b _))
  split
  · exact congrArg Host.Outcome.next
      (ite_eq_apply (p := s.i = 0) (raise_withTrace b _ s) (runLens_withTrace b _ _ s))
  split
  · exact congrArg _ (runLens_withTrace b _ 0 s)
  · exact congrArg _ (runLens_withTrace b _ 0 s)

theorem literalLength_withTrace (sym w x : Nat) (s : State) :
    execForm (.coded .literalLength sym w x) (withTrace b s) =
      outcomeWithTrace b (execForm (.coded .literalLength sym w x) s) := by
  rw [execForm, execForm]
  split
  · rw [append_withTrace, Op.outcome_withTrace]
  split
  · rfl
  split
  · rfl
  · exact next_raise_withTrace b _ s

theorem distance_withTrace (sym w y : Nat) (s : State) : execForm (.coded .distance sym w y) (withTrace b s) =
    outcomeWithTrace b (execForm (.coded .distance sym w y) s) := by
  rw [execForm, execForm]
  split
  · exact matchDistance_withTrace b sym y s
  · exact next_raise_withTrace b _ s

theorem exec_withTrace (i : Instr) (s : State) : exec i (withTrace b s) = outcomeWithTrace b (exec i s) := by
  rw [exec_eq_execForm, exec_eq_execForm]
  cases i.form with
  | blockHeader final t => exact blockHeader_withTrace b final s t
  | storedHeader l n => exact execLen_withTrace b _ _ s
  | field f w v => exact field_withTrace b w v s f
  | coded a sym w x =>
    cases a with
    | codeLength => exact codeLength_withTrace b sym w x s
    | literalLength => exact literalLength_withTrace b sym w x s
    | distance => exact distance_withTrace b sym w x s

/-! ### A step of a run -/

theorem latchCutHeader_withTrace (s : State) : latchCutHeader (withTrace b s) = withTrace b (latchCutHeader s) := by
  by_cases hp : s.phase = .readHeader
  · rw [latchCutHeader_readHeader hp, latchCutHeader_readHeader (s := withTrace b s) hp]
    rfl
  · rw [latchCutHeader_of_ne hp, latchCutHeader_of_ne (s := withTrace b s) hp]

theorem runElement_withTrace (s : State) : runElement (withTrace b s) = outcomeWithTrace b (runElement s) := by
  cases hd : decode s.input s.ctx s.pc with
  | ok i c =>
    rw [runElement_ok hd, runElement_ok (s := withTrace b s) hd]
    exact exec_withTrace b i (s.setPc c)
  | raises k c =>
    rw [runElement_raises hd, runElement_raises (s := withTrace b s) hd, latchCutHeader_withTrace]
    exact next_raise_withTrace b k ((latchCutHeader s).setPc c)

theorem endBlock_withTrace (s : State) : endBlock (withTrace b s) = outcomeWithTrace b (endBlock s) :=
  congrArg Host.Outcome.next (ite_eq_apply (p := s.bfinal = true) rfl rfl)

end

/-- Settles O57: an element and the turn of the engine loop commute with the switch. -/
theorem traceHasNoEffect : Obligations.TraceHasNoEffect := by
  rintro b s ⟨hphase, -⟩ hrun
  rcases Phase.reads_or_done (hphase.symm.trans hrun) with hp | hp
  · rw [step_reads hp, step_reads (by exact hp), runElement_withTrace]
  · rw [step_done hp, step_done (by exact hp), endBlock_withTrace]

end Sys2Proof.Machine
end
